-- ==== Sys2Proof/Word.lean ====
section
/-! DEFINITION. Words, bytes and register indexes: the three widths every rule of spec/ uses (00_scope.md R6, R8). -/

namespace Sys2Proof

/-- A register, an address, the pc, an instruction word: 32 bits (R6). -/
abbrev Word := BitVec 32

/-- A memory cell: 8 bits (R6). -/
abbrev Byte := BitVec 8

/-- A register index: 5 bits (R20). -/
abbrev RegIdx := BitVec 5

end Sys2Proof
end

