-- ==== Sys2Proof/WellFormed.lean ====
section
/-! DEFINITION. Which instructions an instruction word can hold: the immediate is a value its format encodes
(30_encoding.md R103 to R108, R122). Register indexes and shift amounts are five bits by their type (R101, R104). -/

namespace Sys2Proof

/-- A 12-bit signed immediate, `[-2048, 2047]`: I and S formats (R103, R105). -/
def immFitsIS (imm : Word) : Bool := imm == (imm.setWidth 12).signExtend 32

/-- An even 13-bit signed immediate, `[-4096, 4094]`: B format (R106). -/
def immFitsB (imm : Word) : Bool := imm == (imm.setWidth 13).signExtend 32 && !imm.getLsbD 0

/-- A value whose low 12 bits are zero: U format (R107). -/
def immFitsU (imm : Word) : Bool := imm.setWidth 12 == 0#12

/-- An even 21-bit signed immediate, `[-1048576, 1048574]`: J format (R108). -/
def immFitsJ (imm : Word) : Bool := imm == (imm.setWidth 21).signExtend 32 && !imm.getLsbD 0

/-- The instruction's fields are values its encoding can hold. -/
def Instr.wf : Instr → Bool
  | .lui _ imm => immFitsU imm
  | .auipc _ imm => immFitsU imm
  | .jal _ imm => immFitsJ imm
  | .jalr _ _ imm => immFitsIS imm
  | .beq _ _ imm => immFitsB imm
  | .bne _ _ imm => immFitsB imm
  | .blt _ _ imm => immFitsB imm
  | .bge _ _ imm => immFitsB imm
  | .bltu _ _ imm => immFitsB imm
  | .bgeu _ _ imm => immFitsB imm
  | .lb _ _ imm => immFitsIS imm
  | .lh _ _ imm => immFitsIS imm
  | .lw _ _ imm => immFitsIS imm
  | .lbu _ _ imm => immFitsIS imm
  | .lhu _ _ imm => immFitsIS imm
  | .sb _ _ imm => immFitsIS imm
  | .sh _ _ imm => immFitsIS imm
  | .sw _ _ imm => immFitsIS imm
  | .addi _ _ imm => immFitsIS imm
  | .slti _ _ imm => immFitsIS imm
  | .sltiu _ _ imm => immFitsIS imm
  | .xori _ _ imm => immFitsIS imm
  | .ori _ _ imm => immFitsIS imm
  | .andi _ _ imm => immFitsIS imm
  | .slli _ _ _ => true
  | .srli _ _ _ => true
  | .srai _ _ _ => true
  | .add _ _ _ => true
  | .sub _ _ _ => true
  | .sll _ _ _ => true
  | .slt _ _ _ => true
  | .sltu _ _ _ => true
  | .xor _ _ _ => true
  | .srl _ _ _ => true
  | .sra _ _ _ => true
  | .or _ _ _ => true
  | .and _ _ _ => true
  | .fence _ _ _ _ _ => true
  | .ecall => true
  | .ebreak => true
  | .mul _ _ _ => true
  | .mulh _ _ _ => true
  | .mulhsu _ _ _ => true
  | .mulhu _ _ _ => true
  | .div _ _ _ => true
  | .divu _ _ _ => true
  | .rem _ _ _ => true
  | .remu _ _ _ => true

end Sys2Proof
end

