-- ==== Sys2Proof/Decode.lean ====
section
/-! DEFINITION. Decode and encode (30_encoding.md): the fields and immediates of the formats (R101 to R109), the decode
function, total on every word and on every list of bytes (R110 to R117), the opcode table's rows as mask and match (R112),
and after them the encoder, written from the same formats. -/

namespace Sys2Proof

/-! ### Byte order (R52, R53) -/

/-- The value of bytes laid out little-endian, lowest address first, zero-extended to 32 bits (R52, R54). -/
def wordOfBytes : List Byte → Word
  | [] => 0#32
  | b :: bs => b.setWidth 32 ||| (wordOfBytes bs <<< 8)

/-- The low `n` bytes of a value, lowest address first (R52, R55). -/
def bytesOfWord (n : Nat) (v : Word) : List Byte :=
  (List.range n).map fun i => v.extractLsb' (8 * i) 8

/-! ### Fields (R101) -/

def opcodeOf (w : Word) : BitVec 7 := w.extractLsb' 0 7
def rdOf (w : Word) : RegIdx := w.extractLsb' 7 5
def funct3Of (w : Word) : BitVec 3 := w.extractLsb' 12 3
def rs1Of (w : Word) : RegIdx := w.extractLsb' 15 5
def rs2Of (w : Word) : RegIdx := w.extractLsb' 20 5
def funct7Of (w : Word) : BitVec 7 := w.extractLsb' 25 7

/-! ### Immediates (R103, R105 to R109) -/

/-- I format: `sext_12(w[31:20])` (R103). -/
def immI (w : Word) : Word := (w.extractLsb' 20 12).signExtend 32

/-- S format: `sext_12(w[31:25] ## w[11:7])` (R105). -/
def immS (w : Word) : Word := (w.extractLsb' 25 7 ++ w.extractLsb' 7 5 : BitVec 12).signExtend 32

/-- B format: `sext_13(w[31] ## w[7] ## w[30:25] ## w[11:8] ## 0b0)` (R106). -/
def immB (w : Word) : Word :=
  (w.extractLsb' 31 1 ++ w.extractLsb' 7 1 ++ w.extractLsb' 25 6 ++ w.extractLsb' 8 4 ++ 0#1 : BitVec 13).signExtend 32

/-- U format: `w[31:12] ## 0^12` (R107). -/
def immU (w : Word) : Word := (w.extractLsb' 12 20 ++ 0#12 : BitVec 32)

/-- J format: `sext_21(w[31] ## w[19:12] ## w[20] ## w[30:21] ## 0b0)` (R108). -/
def immJ (w : Word) : Word :=
  (w.extractLsb' 31 1 ++ w.extractLsb' 12 8 ++ w.extractLsb' 20 1 ++ w.extractLsb' 21 10 ++ 0#1 : BitVec 21).signExtend 32

/-! ### The rows, by major opcode (R111, R112) -/

/-- BRANCH, by funct3 (R112). -/
def decodeBranch (f3 : BitVec 3) (rs1 rs2 : RegIdx) (imm : Word) : Option Instr :=
  if f3 = 0b000#3 then some (.beq rs1 rs2 imm)
  else if f3 = 0b001#3 then some (.bne rs1 rs2 imm)
  else if f3 = 0b100#3 then some (.blt rs1 rs2 imm)
  else if f3 = 0b101#3 then some (.bge rs1 rs2 imm)
  else if f3 = 0b110#3 then some (.bltu rs1 rs2 imm)
  else if f3 = 0b111#3 then some (.bgeu rs1 rs2 imm)
  else none

/-- LOAD, by funct3 (R112). -/
def decodeLoad (f3 : BitVec 3) (rd rs1 : RegIdx) (imm : Word) : Option Instr :=
  if f3 = 0b000#3 then some (.lb rd rs1 imm)
  else if f3 = 0b001#3 then some (.lh rd rs1 imm)
  else if f3 = 0b010#3 then some (.lw rd rs1 imm)
  else if f3 = 0b100#3 then some (.lbu rd rs1 imm)
  else if f3 = 0b101#3 then some (.lhu rd rs1 imm)
  else none

/-- STORE, by funct3 (R112). -/
def decodeStore (f3 : BitVec 3) (rs1 rs2 : RegIdx) (imm : Word) : Option Instr :=
  if f3 = 0b000#3 then some (.sb rs1 rs2 imm)
  else if f3 = 0b001#3 then some (.sh rs1 rs2 imm)
  else if f3 = 0b010#3 then some (.sw rs1 rs2 imm)
  else none

/-- OP-IMM, by funct3, and funct7 for the shifts (R104, R112, R114 item 4). -/
def decodeOpImm (f7 : BitVec 7) (f3 : BitVec 3) (rd rs1 : RegIdx) (shamt : BitVec 5) (imm : Word) : Option Instr :=
  if f3 = 0b000#3 then some (.addi rd rs1 imm)
  else if f3 = 0b010#3 then some (.slti rd rs1 imm)
  else if f3 = 0b011#3 then some (.sltiu rd rs1 imm)
  else if f3 = 0b100#3 then some (.xori rd rs1 imm)
  else if f3 = 0b110#3 then some (.ori rd rs1 imm)
  else if f3 = 0b111#3 then some (.andi rd rs1 imm)
  else if f3 = 0b001#3 then
    if f7 = 0b0000000#7 then some (.slli rd rs1 shamt) else none
  else
    if f7 = 0b0000000#7 then some (.srli rd rs1 shamt)
    else if f7 = 0b0100000#7 then some (.srai rd rs1 shamt)
    else none

/-- OP with funct7 `0000000`, by funct3 (R112). -/
def decodeOpBase (f3 : BitVec 3) (rd rs1 rs2 : RegIdx) : Option Instr :=
  if f3 = 0b000#3 then some (.add rd rs1 rs2)
  else if f3 = 0b001#3 then some (.sll rd rs1 rs2)
  else if f3 = 0b010#3 then some (.slt rd rs1 rs2)
  else if f3 = 0b011#3 then some (.sltu rd rs1 rs2)
  else if f3 = 0b100#3 then some (.xor rd rs1 rs2)
  else if f3 = 0b101#3 then some (.srl rd rs1 rs2)
  else if f3 = 0b110#3 then some (.or rd rs1 rs2)
  else some (.and rd rs1 rs2)

/-- OP with funct7 `0100000`, by funct3 (R112). -/
def decodeOpAlt (f3 : BitVec 3) (rd rs1 rs2 : RegIdx) : Option Instr :=
  if f3 = 0b000#3 then some (.sub rd rs1 rs2)
  else if f3 = 0b101#3 then some (.sra rd rs1 rs2)
  else none

/-- OP with funct7 `0000001`, by funct3: the M extension (R112, R250). -/
def decodeOpMul (f3 : BitVec 3) (rd rs1 rs2 : RegIdx) : Option Instr :=
  if f3 = 0b000#3 then some (.mul rd rs1 rs2)
  else if f3 = 0b001#3 then some (.mulh rd rs1 rs2)
  else if f3 = 0b010#3 then some (.mulhsu rd rs1 rs2)
  else if f3 = 0b011#3 then some (.mulhu rd rs1 rs2)
  else if f3 = 0b100#3 then some (.div rd rs1 rs2)
  else if f3 = 0b101#3 then some (.divu rd rs1 rs2)
  else if f3 = 0b110#3 then some (.rem rd rs1 rs2)
  else some (.remu rd rs1 rs2)

/-- OP, by funct7 (R112, R114 item 5). -/
def decodeOp (f7 : BitVec 7) (f3 : BitVec 3) (rd rs1 rs2 : RegIdx) : Option Instr :=
  if f7 = 0b0000000#7 then decodeOpBase f3 rd rs1 rs2
  else if f7 = 0b0100000#7 then decodeOpAlt f3 rd rs1 rs2
  else if f7 = 0b0000001#7 then decodeOpMul f3 rd rs1 rs2
  else none

/-- The row of the opcode table a word matches, with its fields (R110 first line, R111, R112). -/
def decodeRow (w : Word) : Option Instr :=
  if opcodeOf w = 0b0110111#7 then some (.lui (rdOf w) (immU w))
  else if opcodeOf w = 0b0010111#7 then some (.auipc (rdOf w) (immU w))
  else if opcodeOf w = 0b1101111#7 then some (.jal (rdOf w) (immJ w))
  else if opcodeOf w = 0b1100111#7 then
    if funct3Of w = 0b000#3 then some (.jalr (rdOf w) (rs1Of w) (immI w)) else none
  else if opcodeOf w = 0b1100011#7 then decodeBranch (funct3Of w) (rs1Of w) (rs2Of w) (immB w)
  else if opcodeOf w = 0b0000011#7 then decodeLoad (funct3Of w) (rdOf w) (rs1Of w) (immI w)
  else if opcodeOf w = 0b0100011#7 then decodeStore (funct3Of w) (rs1Of w) (rs2Of w) (immS w)
  else if opcodeOf w = 0b0010011#7 then
    decodeOpImm (funct7Of w) (funct3Of w) (rdOf w) (rs1Of w) (rs2Of w) (immI w)
  else if opcodeOf w = 0b0110011#7 then decodeOp (funct7Of w) (funct3Of w) (rdOf w) (rs1Of w) (rs2Of w)
  else if opcodeOf w = 0b0001111#7 then
    if funct3Of w = 0b000#3 then
      some (.fence (w.extractLsb' 28 4) (w.extractLsb' 24 4) (w.extractLsb' 20 4) (rs1Of w) (rdOf w))
    else none
  else if w = 0x00000073#32 then some .ecall
  else if w = 0x00100073#32 then some .ebreak
  else none

/-- What a word decodes to (R110). -/
inductive Decoded where
  /-- an instruction of the table, with its fields -/
  | instr (i : Instr)
  /-- a word of the floating-point space, to which the spec gives no meaning (R116) -/
  | refused (w : Word)
  /-- any other word: it raises `DecodeError` when fetched (R114) -/
  | illegal (w : Word)
  deriving DecidableEq, Repr

/-- The major opcodes LOAD-FP, STORE-FP and OP-FP (R116). -/
def isFloatingPoint (w : Word) : Bool :=
  opcodeOf w == 0b0000111#7 || opcodeOf w == 0b0100111#7 || opcodeOf w == 0b1010011#7

/-- `decode` of R110: a total, pure function of the word alone. -/
def decode (w : Word) : Decoded :=
  match decodeRow w with
  | some i => .instr i
  | none => if isFloatingPoint w then .refused w else .illegal w

/-- Why a list of bytes holds no instruction. -/
inductive DecodeReject where
  /-- fewer than the four bytes of a word (R100) -/
  | truncated
  /-- a word of the floating-point space (R116) -/
  | floatingPoint (w : Word)
  /-- a word outside the table (R114) -/
  | illegal (w : Word)
  deriving DecidableEq, Repr

/-- The instruction at the head of a list of bytes, and the bytes after it (R53, R100, R110). -/
def decodeBytes : List Byte → Except DecodeReject (Instr × List Byte)
  | b0 :: b1 :: b2 :: b3 :: rest =>
    match decode (wordOfBytes [b0, b1, b2, b3]) with
    | .instr i => .ok (i, rest)
    | .refused w => .error (.floatingPoint w)
    | .illegal w => .error (.illegal w)
  | _ => .error .truncated

/-- The instruction read from a row's word: `w` with the bits from `nbits` up zero, laid out as four little-endian bytes
(R53) and given to `decodeBytes`. -/
def decodeTableWord (nbits w : Nat) : Option Instr :=
  match decodeBytes (bytesOfWord 4 (BitVec.ofNat 32 (w % 2 ^ nbits))) with
  | .ok (i, _) => some i
  | .error _ => none

/-! ### The opcode table as mask and match (R110, R112) -/

/-- A row of spec/opcode_table.json: a word `w` matches it when `w AND mask = pattern` (R8). -/
structure OpcodeRow where
  mnemonic : String
  pattern  : Word
  mask     : Word
  deriving DecidableEq, Repr

/-- The row of an instruction: the match and mask columns of R112. -/
def Instr.row : Instr → OpcodeRow
  | .lui _ _ => ⟨"LUI", 0x00000037#32, 0x0000007F#32⟩
  | .auipc _ _ => ⟨"AUIPC", 0x00000017#32, 0x0000007F#32⟩
  | .jal _ _ => ⟨"JAL", 0x0000006F#32, 0x0000007F#32⟩
  | .jalr _ _ _ => ⟨"JALR", 0x00000067#32, 0x0000707F#32⟩
  | .beq _ _ _ => ⟨"BEQ", 0x00000063#32, 0x0000707F#32⟩
  | .bne _ _ _ => ⟨"BNE", 0x00001063#32, 0x0000707F#32⟩
  | .blt _ _ _ => ⟨"BLT", 0x00004063#32, 0x0000707F#32⟩
  | .bge _ _ _ => ⟨"BGE", 0x00005063#32, 0x0000707F#32⟩
  | .bltu _ _ _ => ⟨"BLTU", 0x00006063#32, 0x0000707F#32⟩
  | .bgeu _ _ _ => ⟨"BGEU", 0x00007063#32, 0x0000707F#32⟩
  | .lb _ _ _ => ⟨"LB", 0x00000003#32, 0x0000707F#32⟩
  | .lh _ _ _ => ⟨"LH", 0x00001003#32, 0x0000707F#32⟩
  | .lw _ _ _ => ⟨"LW", 0x00002003#32, 0x0000707F#32⟩
  | .lbu _ _ _ => ⟨"LBU", 0x00004003#32, 0x0000707F#32⟩
  | .lhu _ _ _ => ⟨"LHU", 0x00005003#32, 0x0000707F#32⟩
  | .sb _ _ _ => ⟨"SB", 0x00000023#32, 0x0000707F#32⟩
  | .sh _ _ _ => ⟨"SH", 0x00001023#32, 0x0000707F#32⟩
  | .sw _ _ _ => ⟨"SW", 0x00002023#32, 0x0000707F#32⟩
  | .addi _ _ _ => ⟨"ADDI", 0x00000013#32, 0x0000707F#32⟩
  | .slti _ _ _ => ⟨"SLTI", 0x00002013#32, 0x0000707F#32⟩
  | .sltiu _ _ _ => ⟨"SLTIU", 0x00003013#32, 0x0000707F#32⟩
  | .xori _ _ _ => ⟨"XORI", 0x00004013#32, 0x0000707F#32⟩
  | .ori _ _ _ => ⟨"ORI", 0x00006013#32, 0x0000707F#32⟩
  | .andi _ _ _ => ⟨"ANDI", 0x00007013#32, 0x0000707F#32⟩
  | .slli _ _ _ => ⟨"SLLI", 0x00001013#32, 0xFE00707F#32⟩
  | .srli _ _ _ => ⟨"SRLI", 0x00005013#32, 0xFE00707F#32⟩
  | .srai _ _ _ => ⟨"SRAI", 0x40005013#32, 0xFE00707F#32⟩
  | .add _ _ _ => ⟨"ADD", 0x00000033#32, 0xFE00707F#32⟩
  | .sub _ _ _ => ⟨"SUB", 0x40000033#32, 0xFE00707F#32⟩
  | .sll _ _ _ => ⟨"SLL", 0x00001033#32, 0xFE00707F#32⟩
  | .slt _ _ _ => ⟨"SLT", 0x00002033#32, 0xFE00707F#32⟩
  | .sltu _ _ _ => ⟨"SLTU", 0x00003033#32, 0xFE00707F#32⟩
  | .xor _ _ _ => ⟨"XOR", 0x00004033#32, 0xFE00707F#32⟩
  | .srl _ _ _ => ⟨"SRL", 0x00005033#32, 0xFE00707F#32⟩
  | .sra _ _ _ => ⟨"SRA", 0x40005033#32, 0xFE00707F#32⟩
  | .or _ _ _ => ⟨"OR", 0x00006033#32, 0xFE00707F#32⟩
  | .and _ _ _ => ⟨"AND", 0x00007033#32, 0xFE00707F#32⟩
  | .fence _ _ _ _ _ => ⟨"FENCE", 0x0000000F#32, 0x0000707F#32⟩
  | .ecall => ⟨"ECALL", 0x00000073#32, 0xFFFFFFFF#32⟩
  | .ebreak => ⟨"EBREAK", 0x00100073#32, 0xFFFFFFFF#32⟩
  | .mul _ _ _ => ⟨"MUL", 0x02000033#32, 0xFE00707F#32⟩
  | .mulh _ _ _ => ⟨"MULH", 0x02001033#32, 0xFE00707F#32⟩
  | .mulhsu _ _ _ => ⟨"MULHSU", 0x02002033#32, 0xFE00707F#32⟩
  | .mulhu _ _ _ => ⟨"MULHU", 0x02003033#32, 0xFE00707F#32⟩
  | .div _ _ _ => ⟨"DIV", 0x02004033#32, 0xFE00707F#32⟩
  | .divu _ _ _ => ⟨"DIVU", 0x02005033#32, 0xFE00707F#32⟩
  | .rem _ _ _ => ⟨"REM", 0x02006033#32, 0xFE00707F#32⟩
  | .remu _ _ _ => ⟨"REMU", 0x02007033#32, 0xFE00707F#32⟩

/-- One instruction of each constructor, all fields zero. -/
def everyInstr : List Instr :=
  [.lui 0 0, .auipc 0 0, .jal 0 0, .jalr 0 0 0,
   .beq 0 0 0, .bne 0 0 0, .blt 0 0 0, .bge 0 0 0, .bltu 0 0 0, .bgeu 0 0 0,
   .lb 0 0 0, .lh 0 0 0, .lw 0 0 0, .lbu 0 0 0, .lhu 0 0 0, .sb 0 0 0, .sh 0 0 0, .sw 0 0 0,
   .addi 0 0 0, .slti 0 0 0, .sltiu 0 0 0, .xori 0 0 0, .ori 0 0 0, .andi 0 0 0,
   .slli 0 0 0, .srli 0 0 0, .srai 0 0 0,
   .add 0 0 0, .sub 0 0 0, .sll 0 0 0, .slt 0 0 0, .sltu 0 0 0,
   .xor 0 0 0, .srl 0 0 0, .sra 0 0 0, .or 0 0 0, .and 0 0 0,
   .fence 0 0 0 0 0, .ecall, .ebreak,
   .mul 0 0 0, .mulh 0 0 0, .mulhsu 0 0 0, .mulhu 0 0 0, .div 0 0 0, .divu 0 0 0, .rem 0 0 0, .remu 0 0 0]

/-- The 48 rows of the opcode table (R112). -/
def opcodeTable : List OpcodeRow := everyInstr.map Instr.row

/-! ### Encode (R102 to R108, R112) -/

/-- R format (R102), and with a shift amount in the place of `rs2` the I-shamt format (R104). -/
def encodeR (f7 : BitVec 7) (rs2 rs1 : BitVec 5) (f3 : BitVec 3) (rd : RegIdx) (op : BitVec 7) : Word :=
  (f7 ++ rs2 ++ rs1 ++ f3 ++ rd ++ op : BitVec 32)

/-- I format (R103). -/
def encodeI (imm : Word) (rs1 : RegIdx) (f3 : BitVec 3) (rd : RegIdx) (op : BitVec 7) : Word :=
  (imm.extractLsb' 0 12 ++ rs1 ++ f3 ++ rd ++ op : BitVec 32)

/-- S format (R105). -/
def encodeS (imm : Word) (rs2 rs1 : RegIdx) (f3 : BitVec 3) (op : BitVec 7) : Word :=
  (imm.extractLsb' 5 7 ++ rs2 ++ rs1 ++ f3 ++ imm.extractLsb' 0 5 ++ op : BitVec 32)

/-- B format (R106). -/
def encodeB (imm : Word) (rs2 rs1 : RegIdx) (f3 : BitVec 3) (op : BitVec 7) : Word :=
  (imm.extractLsb' 12 1 ++ imm.extractLsb' 5 6 ++ rs2 ++ rs1 ++ f3 ++ imm.extractLsb' 1 4 ++ imm.extractLsb' 11 1 ++ op
    : BitVec 32)

/-- U format (R107). -/
def encodeU (imm : Word) (rd : RegIdx) (op : BitVec 7) : Word :=
  (imm.extractLsb' 12 20 ++ rd ++ op : BitVec 32)

/-- J format (R108). -/
def encodeJ (imm : Word) (rd : RegIdx) (op : BitVec 7) : Word :=
  (imm.extractLsb' 20 1 ++ imm.extractLsb' 1 10 ++ imm.extractLsb' 11 1 ++ imm.extractLsb' 12 8 ++ rd ++ op : BitVec 32)

/-- The word of an instruction: its format's fields with the opcode, funct3 and funct7 of R111 and R112. -/
def encode : Instr → Word
  | .lui rd imm => encodeU imm rd 0b0110111#7
  | .auipc rd imm => encodeU imm rd 0b0010111#7
  | .jal rd imm => encodeJ imm rd 0b1101111#7
  | .jalr rd rs1 imm => encodeI imm rs1 0b000#3 rd 0b1100111#7
  | .beq rs1 rs2 imm => encodeB imm rs2 rs1 0b000#3 0b1100011#7
  | .bne rs1 rs2 imm => encodeB imm rs2 rs1 0b001#3 0b1100011#7
  | .blt rs1 rs2 imm => encodeB imm rs2 rs1 0b100#3 0b1100011#7
  | .bge rs1 rs2 imm => encodeB imm rs2 rs1 0b101#3 0b1100011#7
  | .bltu rs1 rs2 imm => encodeB imm rs2 rs1 0b110#3 0b1100011#7
  | .bgeu rs1 rs2 imm => encodeB imm rs2 rs1 0b111#3 0b1100011#7
  | .lb rd rs1 imm => encodeI imm rs1 0b000#3 rd 0b0000011#7
  | .lh rd rs1 imm => encodeI imm rs1 0b001#3 rd 0b0000011#7
  | .lw rd rs1 imm => encodeI imm rs1 0b010#3 rd 0b0000011#7
  | .lbu rd rs1 imm => encodeI imm rs1 0b100#3 rd 0b0000011#7
  | .lhu rd rs1 imm => encodeI imm rs1 0b101#3 rd 0b0000011#7
  | .sb rs1 rs2 imm => encodeS imm rs2 rs1 0b000#3 0b0100011#7
  | .sh rs1 rs2 imm => encodeS imm rs2 rs1 0b001#3 0b0100011#7
  | .sw rs1 rs2 imm => encodeS imm rs2 rs1 0b010#3 0b0100011#7
  | .addi rd rs1 imm => encodeI imm rs1 0b000#3 rd 0b0010011#7
  | .slti rd rs1 imm => encodeI imm rs1 0b010#3 rd 0b0010011#7
  | .sltiu rd rs1 imm => encodeI imm rs1 0b011#3 rd 0b0010011#7
  | .xori rd rs1 imm => encodeI imm rs1 0b100#3 rd 0b0010011#7
  | .ori rd rs1 imm => encodeI imm rs1 0b110#3 rd 0b0010011#7
  | .andi rd rs1 imm => encodeI imm rs1 0b111#3 rd 0b0010011#7
  | .slli rd rs1 shamt => encodeR 0b0000000#7 shamt rs1 0b001#3 rd 0b0010011#7
  | .srli rd rs1 shamt => encodeR 0b0000000#7 shamt rs1 0b101#3 rd 0b0010011#7
  | .srai rd rs1 shamt => encodeR 0b0100000#7 shamt rs1 0b101#3 rd 0b0010011#7
  | .add rd rs1 rs2 => encodeR 0b0000000#7 rs2 rs1 0b000#3 rd 0b0110011#7
  | .sub rd rs1 rs2 => encodeR 0b0100000#7 rs2 rs1 0b000#3 rd 0b0110011#7
  | .sll rd rs1 rs2 => encodeR 0b0000000#7 rs2 rs1 0b001#3 rd 0b0110011#7
  | .slt rd rs1 rs2 => encodeR 0b0000000#7 rs2 rs1 0b010#3 rd 0b0110011#7
  | .sltu rd rs1 rs2 => encodeR 0b0000000#7 rs2 rs1 0b011#3 rd 0b0110011#7
  | .xor rd rs1 rs2 => encodeR 0b0000000#7 rs2 rs1 0b100#3 rd 0b0110011#7
  | .srl rd rs1 rs2 => encodeR 0b0000000#7 rs2 rs1 0b101#3 rd 0b0110011#7
  | .sra rd rs1 rs2 => encodeR 0b0100000#7 rs2 rs1 0b101#3 rd 0b0110011#7
  | .or rd rs1 rs2 => encodeR 0b0000000#7 rs2 rs1 0b110#3 rd 0b0110011#7
  | .and rd rs1 rs2 => encodeR 0b0000000#7 rs2 rs1 0b111#3 rd 0b0110011#7
  | .fence fm pred succ rs1 rd => (fm ++ pred ++ succ ++ rs1 ++ 0b000#3 ++ rd ++ 0b0001111#7 : BitVec 32)
  | .ecall => 0x00000073#32
  | .ebreak => 0x00100073#32
  | .mul rd rs1 rs2 => encodeR 0b0000001#7 rs2 rs1 0b000#3 rd 0b0110011#7
  | .mulh rd rs1 rs2 => encodeR 0b0000001#7 rs2 rs1 0b001#3 rd 0b0110011#7
  | .mulhsu rd rs1 rs2 => encodeR 0b0000001#7 rs2 rs1 0b010#3 rd 0b0110011#7
  | .mulhu rd rs1 rs2 => encodeR 0b0000001#7 rs2 rs1 0b011#3 rd 0b0110011#7
  | .div rd rs1 rs2 => encodeR 0b0000001#7 rs2 rs1 0b100#3 rd 0b0110011#7
  | .divu rd rs1 rs2 => encodeR 0b0000001#7 rs2 rs1 0b101#3 rd 0b0110011#7
  | .rem rd rs1 rs2 => encodeR 0b0000001#7 rs2 rs1 0b110#3 rd 0b0110011#7
  | .remu rd rs1 rs2 => encodeR 0b0000001#7 rs2 rs1 0b111#3 rd 0b0110011#7

/-- The bytes of an instruction in memory, lowest address first (R53, R100). -/
def encodeBytes (i : Instr) : List Byte := bytesOfWord 4 (encode i)

end Sys2Proof
end

