-- ==== Sys2Proof/Config.lean ====
section
/-! DEFINITION. The configuration of 00_scope.md R7: the parameters the spec asks a model to take as arguments, as plain data,
and the free values it leaves open, as constants without a body. The values a machine has after reset are in
Machine/Defaults.lean; what the parameters mean is in Machine/Platform.lean. -/

namespace Sys2Proof

/-- `MISALIGNED` (R7, R56): what a misaligned access or fetch does. -/
inductive Misaligned where
  /-- a model fault (the spec's choice, D6) -/
  | fault
  /-- the access is performed byte by byte -/
  | bytewise
  deriving DecidableEq, Repr

/-- A range of addresses, from `base` upward. -/
structure AddrRange where
  base : Word
  size : Nat
  deriving DecidableEq, Repr

/-- A device of `PERIPHERALS` (R7, R66): the addresses it owns. Any set of addresses is some list of ranges, so every
function `owns : u32 -> Bool` of R7 is one of these. DESIGN CHOICE (log 5), safe. -/
structure Peripheral where
  ranges : List AddrRange
  deriving DecidableEq, Repr

/-- One of the three quantities of a DMA control value under a bit-field layout: `base` plus the `width` bits from bit
`lo` up, shifted left by `shift`. -/
structure DmaField where
  base  : Word
  lo    : Nat
  width : Nat
  shift : Nat
  deriving DecidableEq, Repr

/-- `DMA_UNPACK` (R7, R72): OPEN. `free` is the uninterpreted function `Config.unpackFree`; `layout` is a layout made of
three bit fields, for a claim that names one. DESIGN CHOICE (log 3), safe: `free` stands for every function. -/
inductive DmaUnpack where
  | free
  | layout (src dst length : DmaField)
  deriving DecidableEq, Repr

/-- The result of a division at a corner (R7 `DIVISION_CORNERS`, 45_muldiv.md). -/
inductive CornerResult where
  /-- this value -/
  | value (v : Word)
  /-- the dividend -/
  | dividend
  /-- the uninterpreted function `Config.divisionFree` of the operands -/
  | free
  deriving DecidableEq, Repr

/-- `DIVISION_CORNERS` (R7): the results at divisor zero and at the signed overflow `0x80000000 / 0xFFFFFFFF`. -/
structure DivisionCorners where
  divZero     : CornerResult
  divuZero    : CornerResult
  remZero     : CornerResult
  remuZero    : CornerResult
  divOverflow : CornerResult
  remOverflow : CornerResult
  deriving DecidableEq, Repr

/-- The numerics record of 45_muldiv.md and D26 for the three high-half products. -/
inductive HighProducts where
  /-- the exact 64-bit product, upper half (R252 to R254) -/
  | exact
  /-- the uninterpreted function `Config.highProductFree` of the operands (U7) -/
  | free
  deriving DecidableEq, Repr

/-- The configuration of R7. It is fixed for a run (R37). -/
structure Config where
  /-- `DMA_CTRL_ADDR`, OPEN; `none` is a configuration that supplies no address (log 2). -/
  dmaCtrlAddr        : Option Word
  dmaUnpack          : DmaUnpack
  dmaCompletionHalts : Bool
  peripherals        : List Peripheral
  syscallReg         : RegIdx
  sysPrintInt        : Word
  sysPrintString     : Word
  sysExit            : Word
  sysWrite           : Word
  misaligned         : Misaligned
  divisionCorners    : DivisionCorners
  highProducts       : HighProducts
  deriving DecidableEq, Repr

/-- The four divisions, as the argument that tells the free corner results apart. -/
inductive DivOp where
  | div | divu | rem | remu
  deriving DecidableEq, Repr

/-- The three high-half products, as the argument that tells the free results apart. -/
inductive HighOp where
  | mulh | mulhsu | mulhu
  deriving DecidableEq, Repr

/-- `draw_32()` (R8): the free values a run draws, the n-th draw being `freeWord n`. It has no body: nothing can be
proved of its values (log 6). -/
opaque Config.freeWord : Nat → Word

/-- `DMA_UNPACK` where the configuration gives no layout (R72, N15): uninterpreted (log 3). -/
opaque Config.unpackFree : Word → Word × Word × Word

/-- A division's corner result where the configuration leaves it open (U6): uninterpreted (log 7). -/
opaque Config.divisionFree : DivOp → Word → Word → Word

/-- A high-half product where the configuration leaves it open (U7): uninterpreted (log 7). -/
opaque Config.highProductFree : HighOp → Word → Word → Word

/-- `TEXT_BASE` (R7, R58): the assembler's default; the hardware does not use it. -/
def Config.textBase : Word := 0x00400000#32

/-- `DATA_BASE` (R7, R58): the assembler's default; the hardware does not use it. -/
def Config.dataBase : Word := 0x10010000#32

end Sys2Proof
end

