-- ==== Sys2Proof/Machine/Defaults.lean ====
section
/-! DEFINITION. The configuration a machine has after reset: for each parameter of 00_scope.md R7 the value that table gives
or suggests, and for the parameters it leaves OPEN the choice a log entry names. A statement over every state holds for
every configuration; only a run from `State.reset` sees these values. -/

namespace Sys2Proof.Machine

/-- The ratified results at the division corners (45_muldiv.md R255 to R258, R7). UNVERIFIED, as U6 says (log 7), unsafe. -/
def ratifiedCorners : DivisionCorners where
  divZero := .value 0xFFFFFFFF#32
  divuZero := .value 0xFFFFFFFF#32
  remZero := .dividend
  remuZero := .dividend
  divOverflow := .value 0x80000000#32
  remOverflow := .value 0x00000000#32

/-- `DMA_CTRL_ADDR` is OPEN and has no suggested value: the reset configuration supplies none.
DESIGN CHOICE (log 2), unsafe. -/
def defaultDmaCtrlAddr : Option Word := none

/-- The configuration after reset: R7's values. The service numbers R7 leaves OPEN are the ones it suggests: DESIGN CHOICE (log 4), unsafe. -/
def defaultConfig : Config where
  dmaCtrlAddr := defaultDmaCtrlAddr
  dmaUnpack := .free
  dmaCompletionHalts := true
  peripherals := []
  syscallReg := 17#5
  sysPrintInt := 1#32
  sysPrintString := 4#32
  sysExit := 10#32
  sysWrite := 64#32
  misaligned := .fault
  divisionCorners := ratifiedCorners
  highProducts := .exact

end Sys2Proof.Machine
end

