-- ==== Sys2Proof/Machine/State.lean ====
section
/-! DEFINITION. The state of the machine as plain data (10_state.md), the reasons a run stops (R32, R270, R271), the reasons
a step of the model has no next state, and the state after reset (R36, R300). -/

namespace Sys2Proof.Machine

/-- The number of bytes an access moves (R59, R60). -/
inductive AccessSize where
  | byte | half | word
  deriving DecidableEq, Repr

/-- `n` of R60: 1, 2 or 4. -/
def AccessSize.bytes : AccessSize → Nat
  | .byte => 1
  | .half => 2
  | .word => 4

/-- A Bus request (R30). The six kinds of R60 are the two constructors at the three sizes; a `value` is there exactly for
the write kinds. -/
inductive Request where
  /-- `read`, `readHalf`, `readByte` -/
  | read (size : AccessSize) (address : Word)
  /-- `write`, `writeHalf`, `writeByte` -/
  | write (size : AccessSize) (address value : Word)
  deriving DecidableEq, Repr

/-- The size of a request's kind (R60). -/
def Request.size : Request → AccessSize
  | .read n _ => n
  | .write n _ _ => n

/-- The address of a request (R30). -/
def Request.address : Request → Word
  | .read _ a => a
  | .write _ a _ => a

/-- A Bus response `{ data? : u32 }` (R30): `data` is present for the read kinds. -/
structure Response where
  data : Option Word
  deriving DecidableEq, Repr

/-- The two slots of the Bus (R30). -/
structure Bus where
  req : Option Request
  rsp : Option Response
  deriving DecidableEq, Repr

/-- What the CPU remembers of an outstanding transaction (R29). -/
inductive Pending where
  | load (rd : RegIdx) (size : AccessSize) (signed : Bool)
  | store
  deriving DecidableEq, Repr

/-- The CPU state machine (R29, C1). -/
inductive Mode where
  | idle
  | awaitingMemory (p : Pending)
  deriving DecidableEq, Repr

/-- The job of the DMA engine (R31). -/
structure Job where
  src      : Word
  dst      : Word
  length   : Word
  progress : Word
  deriving DecidableEq, Repr

/-- Who touched the DMA control word: a Bus request or a fetch (R271 `DmaCtrlAccess(request or pc)`). -/
inductive DmaCtrlUser where
  | request (r : Request)
  | fetch (pc : Word)
  deriving DecidableEq, Repr

/-- The model faults of R271: cases where DOC is silent, which stop the run. -/
inductive ModelFault where
  /-- a fetch with `pc[1:0] != 0` under `MISALIGNED = Fault` (R144) -/
  | misalignedFetch (pc : Word)
  /-- a load or store of `n` bytes with `ea mod n != 0` under `MISALIGNED = Fault` (R148) -/
  | misalignedAccess (ea : Word) (n : AccessSize)
  /-- a fetch from an address a peripheral owns (R144) -/
  | fetchFromPeripheral (pc : Word)
  /-- an access to the DMA control word other than an aligned word write (R74, R144) -/
  | dmaCtrlAccess (user : DmaCtrlUser)
  /-- a control write while a job exists (R73) -/
  | dmaRearm (value : Word)
  /-- ECALL with a number outside the table (R247) -/
  | unknownService (n : Word)
  /-- the write service with `x10 != 1` (R246) -/
  | unsupportedFd (fd : Word)
  /-- print_string over 2^32 non-zero present bytes (R244) -/
  | unterminatedString (a : Word)
  deriving DecidableEq, Repr

/-- Why a run stopped (R32). -/
inductive StopReason where
  /-- the exit service of ECALL (R245) -/
  | exit
  /-- EBREAK (R248) -/
  | ebreak
  /-- the DMA completion callback (R83) -/
  | dmaComplete
  /-- an illegal word was fetched (R272) -/
  | decodeError (pc word : Word)
  /-- an absent cell was read (R273) -/
  | memoryError (address : Word)
  /-- one of this spec's own faults (R271) -/
  | modelFault (f : ModelFault)
  deriving DecidableEq, Repr

/-- The run field (R32). -/
inductive Run where
  | running
  | stopped (r : StopReason)
  deriving DecidableEq, Repr

/-- The direction of a peripheral access (R67, R68). -/
inductive Direction where
  | read | write
  deriving DecidableEq, Repr

/-- One entry of `pevents` (R34, R67, R68). The device is its position in `PERIPHERALS`. -/
structure PEvent where
  tick      : Nat
  device    : Nat
  direction : Direction
  size      : AccessSize
  address   : Word
  value     : Word
  deriving DecidableEq, Repr

/-- Memory (R33): the present cells as (address, byte) pairs, addresses strictly rising; an unlisted address is `absent`,
so a read of it has no value (R54). The canonical form is `Memory.wf` in Machine/Ops.lean. -/
abbrev Memory := List Host.Cell

/-- The machine state (10_state.md). -/
structure State where
  /-- the integer registers (R20); cell 0 is never read (R21) -/
  x       : Vector Word 32
  /-- the floating-point registers, storage only (R27) -/
  f       : Vector Word 32
  /-- the program counter (R23) -/
  pc      : Word
  /-- the CPU state machine (R29) -/
  mode    : Mode
  /-- the Bus slots (R30) -/
  bus     : Bus
  /-- memory (R33) -/
  mem     : Memory
  /-- the DMA engine's job (R31) -/
  dma     : Option Job
  /-- the run field (R32) -/
  run     : Run
  /-- bytes sent to the host console, oldest first (R34) -/
  out     : List Byte
  /-- accesses routed to peripherals, oldest first (R34) -/
  pevents : List PEvent
  /-- the number of the last tick begun, 0 before the first: R34's tick number (log 12) -/
  ticks   : Nat
  /-- the model's own: how many free values have been drawn (log 6) -/
  draws   : Nat
  /-- the configuration (R7), a parameter of the step by R37, kept here because `step` takes nothing else (log 1) -/
  cfg     : Config
  deriving DecidableEq, Repr

/-- Why a step of the model faults. Both reasons are safe: the model stops where no reachable state of the machine is, and
the invariant of R35 rules both out (log 9). The machine's own stops are `StopReason`s, in a next state. -/
inductive Fault where
  /-- Raised by the issue of a load or store while a Bus slot is full, which R61 forbids and R35 excludes. Safe. -/
  | busOccupied
  /-- Raised by the completion of a load whose response carries no data, which R30 excludes. Safe. -/
  | loadWithoutData
  deriving DecidableEq, Repr

/-- Why the model gives a step no meaning. All three are safe: nothing is claimed of such a step. -/
inductive Refusal where
  /-- Raised by an arm of `exec` whose instruction has no meaning yet. Safe. No arm answers it. -/
  | notModelled (mnemonic : String)
  /-- Raised by the decode of a fetched word of the floating-point space (R116, R146, D23). Safe. -/
  | floatingPoint (w : Word)
  /-- Raised by a tick under a configuration D14 or R242 rules out (log 11). Safe. -/
  | illegalConfiguration
  deriving DecidableEq, Repr

/-- The state after reset under a configuration (R36, R300). `ticks` and `draws` are 0 by DESIGN CHOICE (log 6, log 12). -/
def State.resetWith (c : Config) : State where
  x := Vector.replicate 32 0#32
  f := Vector.replicate 32 0#32
  pc := 0#32
  mode := .idle
  bus := { req := none, rsp := none }
  mem := []
  dma := none
  run := .running
  out := []
  pevents := []
  ticks := 0
  draws := 0
  cfg := c

/-- The state after reset (R36, R300), under the configuration of Machine/Defaults.lean. -/
def State.reset : State := State.resetWith defaultConfig

end Sys2Proof.Machine
end

