-- ==== Sys2Proof/Machine/Platform.lean ====
section
/-! DEFINITION. What the parameters of the configuration mean: which addresses a peripheral owns (R66), which accesses meet
the DMA control word (R62, R144), the unpacking of a control value (R72), the division corners and high products (R7), and
which configurations D14 and R242 allow. -/

namespace Sys2Proof.Machine

/-- The address lies in the range. -/
def AddrRange.holds (r : AddrRange) (a : Word) : Bool :=
  decide (r.base.toNat ≤ a.toNat) && decide (a.toNat < r.base.toNat + r.size)

/-- `P.owns(a)` (R66). -/
def Peripheral.owns (p : Peripheral) (a : Word) : Bool := p.ranges.any fun r => AddrRange.holds r a

/-- The first peripheral in the list that owns the address, as its position (R62 test 1, R66, D8). -/
def ownerOf (c : Config) (a : Word) : Option Nat := c.peripherals.findIdx? fun p => Peripheral.owns p a

/-- The bytes `[a, a + n - 1]` (mod 2^32) meet `[DMA_CTRL_ADDR, DMA_CTRL_ADDR + 3]` (R62 test 2, R144). -/
def meetsDmaCtrl (c : Config) (a : Word) (n : Nat) : Bool :=
  match c.dmaCtrlAddr with
  | none => false
  | some d => (List.range n).any fun i => decide ((a + BitVec.ofNat 32 i - d).toNat < 4)

/-- One quantity of a control value under a layout. -/
def DmaField.get (f : DmaField) (v : Word) : Word :=
  f.base + (((v >>> f.lo) &&& BitVec.ofNat 32 (2 ^ f.width - 1)) <<< f.shift)

/-- `DMA_UNPACK(v) = (src, dst, length)` (R72). -/
def unpackDma (c : Config) (v : Word) : Word × Word × Word :=
  match c.dmaUnpack with
  | .free => Config.unpackFree v
  | .layout src dst length => (DmaField.get src v, DmaField.get dst v, DmaField.get length v)

/-- The result of a division corner for the dividend `a` and divisor `b` (R7 `DIVISION_CORNERS`). -/
def cornerValue (r : CornerResult) (op : DivOp) (a b : Word) : Word :=
  match r with
  | .value v => v
  | .dividend => a
  | .free => Config.divisionFree op a b

/-- The configurations the spec allows: `DMA_CTRL_ADDR` a multiple of 4 that no peripheral owns (D14), and the four service
numbers pairwise different (R242). -/
def legalConfig (c : Config) : Bool :=
  (match c.dmaCtrlAddr with
    | none => true
    | some d => decide (d.toNat % 4 = 0) && (ownerOf c d).isNone) &&
  decide (c.sysPrintInt ≠ c.sysPrintString) && decide (c.sysPrintInt ≠ c.sysExit) &&
  decide (c.sysPrintInt ≠ c.sysWrite) && decide (c.sysPrintString ≠ c.sysExit) &&
  decide (c.sysPrintString ≠ c.sysWrite) && decide (c.sysExit ≠ c.sysWrite)

end Sys2Proof.Machine
end

