-- ==== Sys2Proof/Machine/Ops.lean ====
section
/-! DEFINITION. The operations every rule shares: register reads and writes (R20, R21), the pc (R23 to R25), memory
(R33, R54, R55), stopping a run, which is what this machine has in place of taking an exception (R280), and its only way
back, the host's reset and program load (R282, R300, R301), the free values (R8), and the histories (R34). -/

namespace Sys2Proof.Machine

/-- What a meaning answers. -/
abbrev Result := Host.Outcome State Fault Refusal

/-! ### Registers and the pc -/

/-- `x[i]`: register 0 reads 0 in every state (R21). -/
def State.readX (s : State) (i : RegIdx) : Word :=
  if i = 0#5 then 0#32 else s.x[i.toNat]'i.isLt

/-- `x[i] <- v`: a write to register 0 is discarded (R21). -/
def State.writeX (s : State) (i : RegIdx) (v : Word) : State :=
  if i = 0#5 then s else { s with x := s.x.set i.toNat v i.isLt }

/-- `pc <- t`. -/
def State.setPc (s : State) (t : Word) : State := { s with pc := t }

/-- `pc <- pc + 4`, modulo 2^32 (R24, R25). -/
def State.advance (s : State) : State := s.setPc (s.pc + 4#32)

/-- The completion of an instruction that computes a value: the register and pc writes together (R147). -/
def retire (rd : RegIdx) (v : Word) (s : State) : Result := .next ((s.writeX rd v).advance)

/-! ### Stops (R280): nothing is saved, nothing else changes, and the pc stays -/

/-- `run <- Stopped(r)`. -/
def State.stop (s : State) (r : StopReason) : State := { s with run := .stopped r }

/-- `raise r` of R8: the tick goes no further (R151), which the later phases see in `run`. -/
def raise (r : StopReason) (s : State) : Result := .next (s.stop r)

/-! ### Memory -/

/-- The canonical form: addresses strictly rising and inside the 32-bit space. -/
abbrev Memory.wf (m : Memory) : Prop :=
  (m.map Prod.fst).Pairwise (· < ·) ∧ ∀ c ∈ m, c.1 < 2 ^ 32

/-- The cell at an address: a byte, or `none` where it is absent (R33). -/
def Memory.read : Memory → Nat → Option Byte
  | [], _ => none
  | (k, b) :: m, a => if k = a then some b else Memory.read m a

/-- Writing a cell, which makes it present (R55). -/
def Memory.write : Memory → Nat → Byte → Memory
  | [], a, v => [(a, v)]
  | (k, b) :: m, a, v =>
    if a < k then (a, v) :: (k, b) :: m
    else if a = k then (a, v) :: m
    else (k, b) :: Memory.write m a v

/-- The `n` bytes from `a` upward (mod 2^32), or the address of the first absent one (R54). -/
def Memory.readBytes (m : Memory) : Nat → Word → Except Word (List Byte)
  | 0, _ => .ok []
  | n + 1, a =>
    match m.read a.toNat with
    | none => .error a
    | some b =>
      match Memory.readBytes m n (a + 1#32) with
      | .error e => .error e
      | .ok bs => .ok (b :: bs)

/-- `MemRead(a, n)`, zero-extended to 32 bits (R54, R64). -/
def Memory.memRead (m : Memory) (a : Word) (n : Nat) : Except Word Word :=
  match m.readBytes n a with
  | .error e => .error e
  | .ok bs => .ok (wordOfBytes bs)

/-- Bytes stored from `a` upward (mod 2^32). -/
def Memory.writeBytes (m : Memory) : Word → List Byte → Memory
  | _, [] => m
  | a, b :: bs => Memory.writeBytes (m.write a.toNat b) (a + 1#32) bs

/-- `MemWrite(a, n, v)`: the low `8n` bits of `v`, little-endian (R55). -/
def Memory.memWrite (m : Memory) (a : Word) (n : Nat) (v : Word) : Memory := m.writeBytes a (bytesOfWord n v)

/-! ### Histories and free values -/

/-- `emit(bytes)` (R9, R34). -/
def State.emit (s : State) (bs : List Byte) : State := { s with out := s.out ++ bs }

/-- `draw_32()` (R8): the next free value. -/
def State.drawn (s : State) : Word := Config.freeWord s.draws

/-- The state after a draw. -/
def State.afterDraw (s : State) : State := { s with draws := s.draws + 1 }

/-- An access recorded in `pevents` (R67, R68), under the number of the current tick. -/
def State.record (s : State) (device : Nat) (d : Direction) (n : AccessSize) (a v : Word) : State :=
  { s with pevents := s.pevents ++ [⟨s.ticks, device, d, n, a, v⟩] }

/-! ### The host's two ways to (re)start the machine (R282) -/

/-- Reset (R300): every field to its value of R36; the configuration stays, and so does the count of free values drawn, so
that a later draw is a new free value (log 13). -/
def hostReset (s : State) : State := { State.resetWith s.cfg with draws := s.draws }

/-- Bytes of an image put into memory, later entries over earlier ones (R301). -/
def installImage (m : Memory) : List (Word × Byte) → Memory
  | [] => m
  | (a, b) :: rest => installImage (m.write a.toNat b) rest

/-- Program load (R301): reset, then the image, then `pc <- startAddress`. -/
def hostLoad (image : List (Word × Byte)) (start : Word) (s : State) : State :=
  { hostReset s with mem := installImage [] image, pc := start }

end Sys2Proof.Machine
end

