-- ==== Sys2Proof/Machine/Flags.lean ====
section
/-! DEFINITION. The machine has no flags and no condition codes (R26): a comparison is made by the instruction that uses it
and its outcome is a truth value, which a set-if-less instruction writes as 0 or 1 and a branch acts on. -/

namespace Sys2Proof.Machine

/-- `s(a) < s(b)` (R173, R184, R205). -/
def lessSigned (a b : Word) : Bool := decide (a.toInt < b.toInt)

/-- `u(a) < u(b)` (R174, R185, R207). -/
def lessUnsigned (a b : Word) : Bool := decide (a.toNat < b.toNat)

/-- `if c then 1 else 0` (R173). -/
def truthWord (c : Bool) : Word := if c then 1#32 else 0#32

end Sys2Proof.Machine
end

