-- ==== Sys2Proof/Machine/Operands.lean ====
section
/-! DEFINITION. The operand forms: base plus displacement (R148, R220, R229), the pc-relative and register-indirect targets
(R201 to R208), the link address (R24), a shift amount from a register (R183), and the extensions of R8. -/

namespace Sys2Proof.Machine

/-- `ea = x[rs1] + imm`, modulo 2^32 (R220, R229). -/
def effectiveAddress (s : State) (rs1 : RegIdx) (imm : Word) : Word := s.readX rs1 + imm

/-- `pc + 4`, the value a jump links and the address of the next instruction (R24). -/
def linkAddress (s : State) : Word := s.pc + 4#32

/-- `pc + imm`, the target of JAL and of a taken branch (R201, R203). -/
def relativeTarget (s : State) (imm : Word) : Word := s.pc + imm

/-- `(x[rs1] + imm) AND 0xFFFFFFFE`, the target of JALR (R202). UNVERIFIED, as U4 says (log 16), unsafe on an odd sum. -/
def indirectTarget (s : State) (rs1 : RegIdx) (imm : Word) : Word := (s.readX rs1 + imm) &&& 0xFFFFFFFE#32

/-- `u(v[4:0])`: only the low five bits of a register count as a shift amount (R183, R187, R188). -/
def shiftAmount (v : Word) : Nat := (v.extractLsb' 0 5).toNat

/-- `zext_8n` of the low `8n` bits (R8). -/
def zeroExtended (n : AccessSize) (v : Word) : Word :=
  match n with
  | .byte => (v.extractLsb' 0 8).setWidth 32
  | .half => (v.extractLsb' 0 16).setWidth 32
  | .word => v

/-- `sext_8n` of the low `8n` bits (R8). -/
def signExtended (n : AccessSize) (v : Word) : Word :=
  match n with
  | .byte => (v.extractLsb' 0 8).signExtend 32
  | .half => (v.extractLsb' 0 16).signExtend 32
  | .word => v

/-- The extension a load asks for (R150). -/
def extended (n : AccessSize) (signed : Bool) (v : Word) : Word :=
  if signed then signExtended n v else zeroExtended n v

end Sys2Proof.Machine
end

