-- ==== Sys2Proof/Machine/Control.lean ====
section
/-! DEFINITION. Control transfer (42_control_transfer.md R200 to R208). The transfer itself raises nothing: a misaligned
target stops the next fetch (R200). -/

namespace Sys2Proof.Machine

/-- `if cond then pc <- pc + imm else pc <- pc + 4` (R203 to R208). -/
def branch (taken : Bool) (imm : Word) (s : State) : Result :=
  if taken then .next (s.setPc (relativeTarget s imm)) else .next s.advance

/-- The link and the target written together (R201, R202). -/
def jump (rd : RegIdx) (target : Word) (s : State) : Result := .next ((s.writeX rd (linkAddress s)).setPc target)

/-- JAL (R201). -/
def execJal (rd : RegIdx) (imm : Word) (s : State) : Result := jump rd (relativeTarget s imm) s

/-- JALR (R202): the target uses the old `x[rs1]`. -/
def execJalr (rd rs1 : RegIdx) (imm : Word) (s : State) : Result := jump rd (indirectTarget s rs1 imm) s

/-- BEQ (R203). -/
def execBeq (rs1 rs2 : RegIdx) (imm : Word) (s : State) : Result := branch (s.readX rs1 == s.readX rs2) imm s

/-- BNE (R204). -/
def execBne (rs1 rs2 : RegIdx) (imm : Word) (s : State) : Result := branch (s.readX rs1 != s.readX rs2) imm s

/-- BLT (R205). -/
def execBlt (rs1 rs2 : RegIdx) (imm : Word) (s : State) : Result :=
  branch (lessSigned (s.readX rs1) (s.readX rs2)) imm s

/-- BGE (R206). -/
def execBge (rs1 rs2 : RegIdx) (imm : Word) (s : State) : Result :=
  branch (!lessSigned (s.readX rs1) (s.readX rs2)) imm s

/-- BLTU (R207). -/
def execBltu (rs1 rs2 : RegIdx) (imm : Word) (s : State) : Result :=
  branch (lessUnsigned (s.readX rs1) (s.readX rs2)) imm s

/-- BGEU (R208). -/
def execBgeu (rs1 rs2 : RegIdx) (imm : Word) (s : State) : Result :=
  branch (!lessUnsigned (s.readX rs1) (s.readX rs2)) imm s

end Sys2Proof.Machine
end

