-- ==== Sys2Proof/Machine/Arith.lean ====
section
/-! DEFINITION. Shifts, products and quotients: computed exactly in the integers and narrowed at the end, as the rules write
them (R178 to R180, R183, R187, R188, R250 to R258). -/

namespace Sys2Proof.Machine

/-- `(a << n)[31:0]` (R178, R183). -/
def shiftLeft (a : Word) (n : Nat) : Word := BitVec.ofNat 32 (a.toNat * 2 ^ n)

/-- `u(a) >> n` (R179, R187). -/
def shiftRightLogical (a : Word) (n : Nat) : Word := BitVec.ofNat 32 (a.toNat / 2 ^ n)

/-- `floor(s(a) / 2^n)` as 32 bits (R180, R188). -/
def shiftRightArithmetic (a : Word) (n : Nat) : Word := BitVec.ofInt 32 (a.toInt / 2 ^ n)

/-- `(a * b)[31:0]` (R251). -/
def productLow (a b : Word) : Word := BitVec.ofNat 32 (a.toNat * b.toNat)

/-- Bits 63 to 32 of an exact product (R252 to R254). -/
def upperHalf (p : Int) : Word := (BitVec.ofInt 64 p).extractLsb' 32 32

/-- The exact product whose upper half an instruction takes (R252 to R254). -/
def exactProduct (op : HighOp) (a b : Word) : Int :=
  match op with
  | .mulh => a.toInt * b.toInt
  | .mulhsu => a.toInt * (b.toNat : Int)
  | .mulhu => (a.toNat : Int) * (b.toNat : Int)

/-- The high half of a product under the configuration (R252 to R254, 45_muldiv.md). -/
def productHigh (c : Config) (op : HighOp) (a b : Word) : Word :=
  match c.highProducts with
  | .exact => upperHalf (exactProduct op a b)
  | .free => Config.highProductFree op a b

/-- The signed overflow of a division (R255, R257). -/
def isOverflow (a b : Word) : Bool := a == 0x80000000#32 && b == 0xFFFFFFFF#32

/-- `trunc(s(a) / s(b))` as 32 bits, with the configuration's corners (R255). -/
def quotientSigned (c : Config) (a b : Word) : Word :=
  if b = 0#32 then cornerValue c.divisionCorners.divZero .div a b
  else if isOverflow a b then cornerValue c.divisionCorners.divOverflow .div a b
  else BitVec.ofInt 32 (a.toInt.tdiv b.toInt)

/-- `floor(u(a) / u(b))`, with the configuration's corner (R256). -/
def quotientUnsigned (c : Config) (a b : Word) : Word :=
  if b = 0#32 then cornerValue c.divisionCorners.divuZero .divu a b
  else BitVec.ofNat 32 (a.toNat / b.toNat)

/-- `s(a) - s(b) * trunc(s(a) / s(b))` as 32 bits, with the configuration's corners (R257). -/
def remainderSigned (c : Config) (a b : Word) : Word :=
  if b = 0#32 then cornerValue c.divisionCorners.remZero .rem a b
  else if isOverflow a b then cornerValue c.divisionCorners.remOverflow .rem a b
  else BitVec.ofInt 32 (a.toInt - b.toInt * a.toInt.tdiv b.toInt)

/-- `u(a) mod u(b)`, with the configuration's corner (R258). -/
def remainderUnsigned (c : Config) (a b : Word) : Word :=
  if b = 0#32 then cornerValue c.divisionCorners.remuZero .remu a b
  else BitVec.ofNat 32 (a.toNat % b.toNat)

end Sys2Proof.Machine
end

