-- ==== Sys2Proof/Machine/Integer.lean ====
section
/-! DEFINITION. Integer computational instructions (41_integer_computational.md R168 to R190): each writes `x[rd]`, sets the
pc to `pc + 4` and changes nothing else. What each computes is the ratified ISA's, as the spec gives it (log 16). -/

namespace Sys2Proof.Machine

/-- LUI (R170). -/
def execLui (rd : RegIdx) (imm : Word) (s : State) : Result := retire rd imm s

/-- AUIPC (R171). -/
def execAuipc (rd : RegIdx) (imm : Word) (s : State) : Result := retire rd (s.pc + imm) s

/-- ADDI (R172). -/
def execAddi (rd rs1 : RegIdx) (imm : Word) (s : State) : Result := retire rd (s.readX rs1 + imm) s

/-- SLTI (R173). -/
def execSlti (rd rs1 : RegIdx) (imm : Word) (s : State) : Result :=
  retire rd (truthWord (lessSigned (s.readX rs1) imm)) s

/-- SLTIU (R174): the sign-extended immediate read as unsigned. -/
def execSltiu (rd rs1 : RegIdx) (imm : Word) (s : State) : Result :=
  retire rd (truthWord (lessUnsigned (s.readX rs1) imm)) s

/-- XORI (R175). -/
def execXori (rd rs1 : RegIdx) (imm : Word) (s : State) : Result := retire rd (s.readX rs1 ^^^ imm) s

/-- ORI (R176). -/
def execOri (rd rs1 : RegIdx) (imm : Word) (s : State) : Result := retire rd (s.readX rs1 ||| imm) s

/-- ANDI (R177). -/
def execAndi (rd rs1 : RegIdx) (imm : Word) (s : State) : Result := retire rd (s.readX rs1 &&& imm) s

/-- SLLI (R178). -/
def execSlli (rd rs1 : RegIdx) (shamt : BitVec 5) (s : State) : Result :=
  retire rd (shiftLeft (s.readX rs1) shamt.toNat) s

/-- SRLI (R179). -/
def execSrli (rd rs1 : RegIdx) (shamt : BitVec 5) (s : State) : Result :=
  retire rd (shiftRightLogical (s.readX rs1) shamt.toNat) s

/-- SRAI (R180). -/
def execSrai (rd rs1 : RegIdx) (shamt : BitVec 5) (s : State) : Result :=
  retire rd (shiftRightArithmetic (s.readX rs1) shamt.toNat) s

/-- ADD (R181). -/
def execAdd (rd rs1 rs2 : RegIdx) (s : State) : Result := retire rd (s.readX rs1 + s.readX rs2) s

/-- SUB (R182). -/
def execSub (rd rs1 rs2 : RegIdx) (s : State) : Result := retire rd (s.readX rs1 - s.readX rs2) s

/-- SLL (R183). -/
def execSll (rd rs1 rs2 : RegIdx) (s : State) : Result :=
  retire rd (shiftLeft (s.readX rs1) (shiftAmount (s.readX rs2))) s

/-- SLT (R184). -/
def execSlt (rd rs1 rs2 : RegIdx) (s : State) : Result :=
  retire rd (truthWord (lessSigned (s.readX rs1) (s.readX rs2))) s

/-- SLTU (R185). -/
def execSltu (rd rs1 rs2 : RegIdx) (s : State) : Result :=
  retire rd (truthWord (lessUnsigned (s.readX rs1) (s.readX rs2))) s

/-- XOR (R186). -/
def execXor (rd rs1 rs2 : RegIdx) (s : State) : Result := retire rd (s.readX rs1 ^^^ s.readX rs2) s

/-- SRL (R187). -/
def execSrl (rd rs1 rs2 : RegIdx) (s : State) : Result :=
  retire rd (shiftRightLogical (s.readX rs1) (shiftAmount (s.readX rs2))) s

/-- SRA (R188). -/
def execSra (rd rs1 rs2 : RegIdx) (s : State) : Result :=
  retire rd (shiftRightArithmetic (s.readX rs1) (shiftAmount (s.readX rs2))) s

/-- OR (R189). -/
def execOr (rd rs1 rs2 : RegIdx) (s : State) : Result := retire rd (s.readX rs1 ||| s.readX rs2) s

/-- AND (R190). -/
def execAnd (rd rs1 rs2 : RegIdx) (s : State) : Result := retire rd (s.readX rs1 &&& s.readX rs2) s

end Sys2Proof.Machine
end

