-- ==== Sys2Proof/Machine/Bus.lean ====
section
/-! DEFINITION. The Bus: the issue of a transaction (R148, R61), its service by the Memory (R62 to R74) and its completion
by the CPU (R150). -/

namespace Sys2Proof.Machine

/-- The address is not a multiple of the access size and `MISALIGNED = Fault` (R56). -/
def isMisaligned (c : Config) (a : Word) (n : AccessSize) : Bool :=
  c.misaligned == .fault && decide (a.toNat % n.bytes ≠ 0)

/-- The request goes to its slot and the CPU waits (R148). -/
def State.await (s : State) (r : Request) (p : Pending) : State :=
  { s with bus := { req := some r, rsp := none }, mode := .awaitingMemory p }

/-- The issue of a load or store (R148): the request goes to the Bus and the CPU waits; `x` and `pc` are not changed. A full
slot, which R61 forbids here and no reachable state has (R35), is a fault (log 9). -/
def issue (r : Request) (p : Pending) (s : State) : Result :=
  if isMisaligned s.cfg r.address r.size then raise (.modelFault (.misalignedAccess r.address r.size)) s
  else if s.bus.req.isSome || s.bus.rsp.isSome then .fault .busOccupied
  else .next (s.await r p)

/-- The CPU leaves the wait: it is idle and the response slot is empty (R150). -/
def State.resume (s : State) : State := { s with mode := .idle, bus := { req := s.bus.req, rsp := none } }

/-- The completion of a transaction (R150): write-back for a load, then the pc moves and the CPU is idle. -/
def complete (p : Pending) (r : Response) (s : State) : Result :=
  match p with
  | .store => .next s.advance.resume
  | .load rd n signed =>
    match r.data with
    | none => .fault .loadWithoutData
    | some d => .next (s.writeX rd (extended n signed d)).advance.resume

/-- The end of a service: the request leaves its slot and the response takes the other (R62). -/
def respond (data : Option Word) (s : State) : State := { s with bus := { req := none, rsp := some { data := data } } }

/-- An access routed to the peripheral at position `d` (R67, R68): a read answers a free value, whose low `8n` bits are kept;
both are recorded, and the flat array is not touched. -/
def peripheralAccess (d : Nat) (r : Request) (s : State) : State :=
  match r with
  | .read n a =>
    respond (some (zeroExtended n s.drawn)) (s.record d .read n a (zeroExtended n s.drawn)).afterDraw
  | .write n a v => respond none (s.record d .write n a (zeroExtended n v))

/-- Arming the DMA engine (R72), or the model fault of a second arming (R73). -/
def armDma (v : Word) (s : State) : State :=
  match s.dma with
  | some _ => s.stop (.modelFault (.dmaRearm v))
  | none =>
    respond none
      { s with dma := some { src := (unpackDma s.cfg v).1, dst := (unpackDma s.cfg v).2.1,
                             length := (unpackDma s.cfg v).2.2, progress := 0#32 } }

/-- A request that meets the DMA control word: only the word write at its address arms (R62 test 2, R74). -/
def dmaCtrlRequest (r : Request) (s : State) : State :=
  match r with
  | .write .word a v =>
    if s.cfg.dmaCtrlAddr = some a then armDma v s else s.stop (.modelFault (.dmaCtrlAccess (.request r)))
  | _ => s.stop (.modelFault (.dmaCtrlAccess (.request r)))

/-- A request served by the flat array (R62 tests 3 and 4). -/
def flatAccess (r : Request) (s : State) : State :=
  match r with
  | .read n a =>
    match s.mem.memRead a n.bytes with
    | .error e => s.stop (.memoryError e)
    | .ok v => respond (some v) s
  | .write n a v => respond none { s with mem := s.mem.memWrite a n.bytes v }

/-- The service of a request: peripheral, then DMA control word, then the flat array (R62). -/
def service (r : Request) (s : State) : State :=
  match ownerOf s.cfg r.address with
  | some d => peripheralAccess d r s
  | none => if meetsDmaCtrl s.cfg r.address r.size.bytes then dmaCtrlRequest r s else flatAccess r s

/-- The Bus/Memory phase of a tick (R62): it acts on a running machine with a request and no response. -/
def busPhase (s : State) : State :=
  if s.run = .running then
    match s.bus.req, s.bus.rsp with
    | some r, none => service r s
    | _, _ => s
  else s

end Sys2Proof.Machine
end

