-- ==== Sys2Proof/Machine/LoadStore.lean ====
section
/-! DEFINITION. Loads and stores (43_load_store.md R220 to R229): the issuing tick of each. The access itself is the service
of Bus.lean in the same tick, and the write-back its completion in the next. -/

namespace Sys2Proof.Machine

/-- The issue of a load (R220). -/
def issueLoad (n : AccessSize) (signed : Bool) (rd rs1 : RegIdx) (imm : Word) (s : State) : Result :=
  issue (.read n (effectiveAddress s rs1 imm)) (.load rd n signed) s

/-- The issue of a store (R229). -/
def issueStore (n : AccessSize) (rs1 rs2 : RegIdx) (imm : Word) (s : State) : Result :=
  issue (.write n (effectiveAddress s rs1 imm) (s.readX rs2)) .store s

/-- LB (R221). -/
def execLb (rd rs1 : RegIdx) (imm : Word) (s : State) : Result := issueLoad .byte true rd rs1 imm s

/-- LH (R222). -/
def execLh (rd rs1 : RegIdx) (imm : Word) (s : State) : Result := issueLoad .half true rd rs1 imm s

/-- LW (R223). R157's trace calls its payload signed; a word needs no extension. -/
def execLw (rd rs1 : RegIdx) (imm : Word) (s : State) : Result := issueLoad .word true rd rs1 imm s

/-- LBU (R224). -/
def execLbu (rd rs1 : RegIdx) (imm : Word) (s : State) : Result := issueLoad .byte false rd rs1 imm s

/-- LHU (R225). -/
def execLhu (rd rs1 : RegIdx) (imm : Word) (s : State) : Result := issueLoad .half false rd rs1 imm s

/-- SB (R226). -/
def execSb (rs1 rs2 : RegIdx) (imm : Word) (s : State) : Result := issueStore .byte rs1 rs2 imm s

/-- SH (R227). -/
def execSh (rs1 rs2 : RegIdx) (imm : Word) (s : State) : Result := issueStore .half rs1 rs2 imm s

/-- SW (R228). -/
def execSw (rs1 rs2 : RegIdx) (imm : Word) (s : State) : Result := issueStore .word rs1 rs2 imm s

end Sys2Proof.Machine
end

