-- ==== Sys2Proof/Machine/MulDiv.lean ====
section
/-! DEFINITION. The M extension (45_muldiv.md R250 to R258): none traps, each writes `x[rd]` and sets the pc to `pc + 4`. -/

namespace Sys2Proof.Machine

/-- MUL (R251). -/
def execMul (rd rs1 rs2 : RegIdx) (s : State) : Result := retire rd (productLow (s.readX rs1) (s.readX rs2)) s

/-- MULH (R252). -/
def execMulh (rd rs1 rs2 : RegIdx) (s : State) : Result :=
  retire rd (productHigh s.cfg .mulh (s.readX rs1) (s.readX rs2)) s

/-- MULHSU (R253). -/
def execMulhsu (rd rs1 rs2 : RegIdx) (s : State) : Result :=
  retire rd (productHigh s.cfg .mulhsu (s.readX rs1) (s.readX rs2)) s

/-- MULHU (R254). -/
def execMulhu (rd rs1 rs2 : RegIdx) (s : State) : Result :=
  retire rd (productHigh s.cfg .mulhu (s.readX rs1) (s.readX rs2)) s

/-- DIV (R255). -/
def execDiv (rd rs1 rs2 : RegIdx) (s : State) : Result :=
  retire rd (quotientSigned s.cfg (s.readX rs1) (s.readX rs2)) s

/-- DIVU (R256). -/
def execDivu (rd rs1 rs2 : RegIdx) (s : State) : Result :=
  retire rd (quotientUnsigned s.cfg (s.readX rs1) (s.readX rs2)) s

/-- REM (R257). -/
def execRem (rd rs1 rs2 : RegIdx) (s : State) : Result :=
  retire rd (remainderSigned s.cfg (s.readX rs1) (s.readX rs2)) s

/-- REMU (R258). -/
def execRemu (rd rs1 rs2 : RegIdx) (s : State) : Result :=
  retire rd (remainderUnsigned s.cfg (s.readX rs1) (s.readX rs2)) s

end Sys2Proof.Machine
end

