-- ==== Sys2Proof/Machine/System.lean ====
section
/-! DEFINITION. FENCE, ECALL with its service table, EBREAK (44_fence_system.md R240 to R248). -/

namespace Sys2Proof.Machine

/-- FENCE (R240): only the pc moves, whatever its fields. UNVERIFIED that it is accepted, as U5 says (log 17), unsafe. -/
def execFence (_fm _pred _succ : BitVec 4) (_rs1 _rd : RegIdx) (s : State) : Result := .next s.advance

/-- A natural number of at most `fuel` digits in decimal ASCII, no leading zeros (R243). -/
def decimalDigits : Nat → Nat → List Byte
  | 0, _ => []
  | fuel + 1, n =>
    if n < 10 then [BitVec.ofNat 8 (48 + n)]
    else decimalDigits fuel (n / 10) ++ [BitVec.ofNat 8 (48 + n % 10)]

/-- `decimal(v)` (R243): a leading `-` for a negative value. Ten digits hold every value of 32 bits. -/
def decimalBytes (v : Int) : List Byte :=
  if v < 0 then 45#8 :: decimalDigits 10 v.natAbs else decimalDigits 10 v.natAbs

/-- print_int (R243). -/
def servicePrintInt (s : State) : Result := .next (s.emit (decimalBytes (s.readX 10#5).toInt)).advance

/-- The loop of print_string (R244): the bytes from `a` up to a NUL, at most `fuel` of them. -/
def collectString (m : Memory) (start : Word) : Nat → Word → Except StopReason (List Byte)
  | 0, _ => .error (.modelFault (.unterminatedString start))
  | fuel + 1, a =>
    match m.read a.toNat with
    | none => .error (.memoryError a)
    | some b =>
      if b = 0#8 then .ok []
      else
        match collectString m start fuel (a + 1#32) with
        | .error e => .error e
        | .ok bs => .ok (b :: bs)

/-- print_string (R244). -/
def servicePrintString (s : State) : Result :=
  match collectString s.mem (s.readX 10#5) (2 ^ 32) (s.readX 10#5) with
  | .error e => raise e s
  | .ok bs => .next (s.emit bs).advance

/-- exit (R245). -/
def serviceExit (s : State) : Result := raise .exit s

/-- write (R246): the return value in `x10` is a free value (log 6). -/
def serviceWrite (s : State) : Result :=
  if s.readX 10#5 ≠ 1#32 then raise (.modelFault (.unsupportedFd (s.readX 10#5))) s
  else
    match s.mem.readBytes (s.readX 12#5).toNat (s.readX 11#5) with
    | .error a => raise (.memoryError a) s
    | .ok bs => .next ((s.emit bs).writeX 10#5 s.drawn).afterDraw.advance

/-- ECALL (R241, R242): the service whose number `x[SYSCALL_REG]` holds, or the model fault of R247. -/
def execEcall (s : State) : Result :=
  if s.readX s.cfg.syscallReg = s.cfg.sysPrintInt then servicePrintInt s
  else if s.readX s.cfg.syscallReg = s.cfg.sysPrintString then servicePrintString s
  else if s.readX s.cfg.syscallReg = s.cfg.sysExit then serviceExit s
  else if s.readX s.cfg.syscallReg = s.cfg.sysWrite then serviceWrite s
  else raise (.modelFault (.unknownService (s.readX s.cfg.syscallReg))) s

/-- EBREAK (R248). -/
def execEbreak (s : State) : Result := raise .ebreak s

end Sys2Proof.Machine
end

