-- ==== Sys2Proof/Machine/Dma.lean ====
section
/-! DEFINITION. The DMA engine (20_memory.md R80 to R85). It reads and writes the flat array directly: no Bus, no routing,
no interception (R82). -/

namespace Sys2Proof.Machine

/-- The gate is open: the machine runs and nothing is outstanding (R80). -/
def dmaEnabled (s : State) : Bool :=
  s.run == .running && s.mode == .idle && s.bus.req.isNone && s.bus.rsp.isNone

/-- Completion (R83): the job is destroyed and the callback fires; it halts the machine where the configuration says so. -/
def dmaComplete (s : State) : State :=
  if s.cfg.dmaCompletionHalts then ({ s with dma := none } : State).stop .dmaComplete else { s with dma := none }

/-- Completion is due when all bytes are copied (R83, R84). -/
def dmaFinish (j : Job) (s : State) : State :=
  if j.progress = j.length then dmaComplete s else s

/-- One enabled tick of a job: the copy of one byte if one is left, then completion if none is (R81, R83, R84). An absent
source byte stops the run (R82). -/
def dmaStep (j : Job) (s : State) : State :=
  if j.progress < j.length then
    match s.mem.read (j.src + j.progress).toNat with
    | none => s.stop (.memoryError (j.src + j.progress))
    | some b =>
      dmaFinish { j with progress := j.progress + 1#32 }
        { s with mem := s.mem.write (j.dst + j.progress).toNat b, dma := some { j with progress := j.progress + 1#32 } }
  else dmaFinish j s

/-- The DMA phase of a tick (R80). -/
def dmaPhase (s : State) : State :=
  if dmaEnabled s then
    match s.dma with
    | some j => dmaStep j s
    | none => s
  else s

end Sys2Proof.Machine
end

