-- ==== Sys2Proof/Machine/Tick.lean ====
section
/-! DEFINITION. The tick (40_tick_and_fetch.md): fetch with its checks (R144, R145), decode (R146), the CPU phase (R143), and
the three phases in their order (R141). -/

namespace Sys2Proof.Machine

/-- The checks before a fetch reads memory, in their order (R144): the model fault of the first that fails. -/
def fetchFault (s : State) : Option ModelFault :=
  if isMisaligned s.cfg s.pc .word then some (.misalignedFetch s.pc)
  else if (ownerOf s.cfg s.pc).isSome then some (.fetchFromPeripheral s.pc)
  else if meetsDmaCtrl s.cfg s.pc 4 then some (.dmaCtrlAccess (.fetch s.pc))
  else none

/-- Fetch (R144, R145): the word at the pc, or why there is none. -/
def fetch (s : State) : Except StopReason Word :=
  match fetchFault s with
  | some f => .error (.modelFault f)
  | none =>
    match s.mem.memRead s.pc 4 with
    | .error a => .error (.memoryError a)
    | .ok w => .ok w

/-- Decode of a fetched word, and execution (R146 to R148). -/
def decodeExecute (w : Word) (s : State) : Result :=
  match decode w with
  | .instr i => exec i s
  | .refused v => .refused (.floatingPoint v)
  | .illegal v => raise (.decodeError s.pc v) s

/-- The CPU phase (R143): fetch and execute from `Idle`; in `AwaitingMemory` stall (R149) or complete (R150). -/
def cpuPhase (s : State) : Result :=
  match s.mode with
  | .idle =>
    match fetch s with
    | .error r => raise r s
    | .ok w => decodeExecute w s
  | .awaitingMemory p =>
    match s.bus.rsp with
    | none => .next s
    | some r => complete p r s

/-- A tick begins: its number is counted (R34). -/
def State.beginTick (s : State) : State := { s with ticks := s.ticks + 1 }

/-- The two phases after the CPU's (R141). Each looks at `run`, so a stop ends the tick (R151). -/
def afterCpu (r : Result) : Result :=
  match r with
  | .next s => .next (dmaPhase (busPhase s))
  | .fault e => .fault e
  | .refused e => .refused e

/-- One tick (R141). A stopped machine does not move (R142); a configuration the spec rules out is refused (D14). -/
def tick (s : State) : Result :=
  if s.run ≠ .running then .next s
  else if !legalConfig s.cfg then .refused .illegalConfiguration
  else afterCpu (cpuPhase s.beginTick)

/-- A word stored at the pc of a machine ready to fetch it: running, idle, the Bus empty. It stands for the program load of
R301, which is how a program comes to be in memory (log 14). -/
def placeWord (s : State) (w : Word) : State :=
  { s with mem := s.mem.memWrite s.pc 4 w, mode := .idle, run := .running, bus := { req := none, rsp := none } }

end Sys2Proof.Machine
end

