-- ==== Sys2Proof/Machine/Step.lean ====
section
/-! DEFINITION. The step of the machine is one tick (R140, R156). -/

namespace Sys2Proof.Machine

/-- One step: one tick (R141). -/
def step (s : State) : Host.Outcome State Fault Refusal := tick s

/-- The instruction word `w` of `nbits` bits stored where the next step fetches: the four bytes at the pc (R53). -/
def State.withFetchWord (s : State) (nbits w : Nat) : State := placeWord s (BitVec.ofNat 32 (w % 2 ^ nbits))

end Sys2Proof.Machine
end

