-- ==== Sys2Proof/Safety.lean ====
section
/-! DEFINITION. How a claim classes the end of a run (40_tick_and_fetch.md R154), what a safe state is, and the invariant of
10_state.md R35. -/

namespace Sys2Proof.Machine

/-- The classes of R154. -/
inductive StopClass where
  /-- the program ended: `Exit`, or `DmaComplete` by the reference design's choice -/
  | normalEnd
  /-- `Ebreak`, `DecodeError`, `MemoryError` -/
  | fault
  /-- DOC is silent: nothing may be concluded about the hardware beyond this point -/
  | modelFault
  deriving DecidableEq, Repr

/-- The class of a stop reason (R154). -/
def StopReason.stopClass : StopReason → StopClass
  | .exit => .normalEnd
  | .dmaComplete => .normalEnd
  | .ebreak => .fault
  | .decodeError _ _ => .fault
  | .memoryError _ => .fault
  | .modelFault _ => .modelFault

/-- A state a safe run may be in: running, or at a normal end. -/
def State.safe (s : State) : Bool :=
  match s.run with
  | .running => true
  | .stopped r => r.stopClass == .normalEnd

/-- A Bus response answers what the CPU waits for: data for a load, none for a store (R30, R35 item 4). -/
def Response.answers (r : Response) (p : Pending) : Bool :=
  match p with
  | .load _ _ _ => r.data.isSome
  | .store => r.data.isNone

/-- A Bus request is the one the CPU waits for: a read for a load, a write for a store (R148). -/
def Request.asks (r : Request) (p : Pending) : Bool :=
  match r, p with
  | .read n _, .load _ m _ => n == m
  | .write _ _ _, .store => true
  | _, _ => false

/-- The invariant of R35, with the canonical form of memory. It holds between ticks. -/
structure State.Inv (s : State) : Prop where
  /-- Item 1: the cell of `x0` stays 0, as its reads do (R21). -/
  zero     : s.x[0] = 0#32
  /-- Item 2: at most one transaction is in flight. -/
  single   : s.bus.req = none ∨ s.bus.rsp = none
  /-- Item 3: an idle CPU has an empty Bus. -/
  idle     : s.mode = .idle → s.bus = { req := none, rsp := none }
  /-- Item 4: a running, waiting CPU has its answer in the response slot. -/
  awaiting : ∀ p, s.mode = .awaitingMemory p → s.run = .running →
    s.bus.req = none ∧ ∃ r, s.bus.rsp = some r ∧ Response.answers r p = true
  /-- A machine stopped while waiting still holds the request that raised (R151, R281). -/
  stopped  : ∀ p, s.mode = .awaitingMemory p → s.run ≠ .running →
    ∃ r, s.bus.req = some r ∧ Request.asks r p = true
  /-- Item 5: a job is unfinished, or it is empty and no transaction-free DMA phase has come since its arming: the store that
  armed it is still outstanding. The next tick completes that store, and its DMA phase destroys the job (R80, R84; log 22). -/
  job      : ∀ j, s.dma = some j → j.progress < j.length ∨
    (j.progress = 0#32 ∧ j.length = 0#32 ∧ s.run = .running ∧ s.mode = .awaitingMemory .store)
  /-- Memory is in its canonical form. -/
  memory   : Memory.wf s.mem

end Sys2Proof.Machine
end

