-- ==== Sys2Proof/Certificates/Slice0/Obligations.lean ====
section
/-! DEFINITION. The statements about the machine, written from the numbered rules of spec/. The words of a rule (fields of a
word, effective addresses, which bytes an access touches, who owns an address) are written again here from the rule, so that
a statement says what the rule says and not what a definition of the model happens to do. Every statement is about all words,
operands and states it names; where a value is open in the spec the statement holds for every value. -/

namespace Sys2Proof.Claims

open Sys2Proof.Machine

/-! ### The fields and immediates of a word (R101 to R108) -/

def rd (w : Word) : RegIdx := w.extractLsb' 7 5
def rs1 (w : Word) : RegIdx := w.extractLsb' 15 5
def rs2 (w : Word) : RegIdx := w.extractLsb' 20 5

/-- `sext_12(w[31:20])` (R103). -/
def iImm (w : Word) : Word := (w.extractLsb' 20 12).signExtend 32

/-- `sext_12(w[31:25] ## w[11:7])` (R105). -/
def sImm (w : Word) : Word := (w.extractLsb' 25 7 ++ w.extractLsb' 7 5 : BitVec 12).signExtend 32

/-- `sext_13(w[31] ## w[7] ## w[30:25] ## w[11:8] ## 0b0)` (R106). -/
def bImm (w : Word) : Word :=
  (w.extractLsb' 31 1 ++ w.extractLsb' 7 1 ++ w.extractLsb' 25 6 ++ w.extractLsb' 8 4 ++ 0b0#1 : BitVec 13).signExtend 32

/-- `w[31:12] ## 0^12` (R107). -/
def uImm (w : Word) : Word := (w.extractLsb' 12 20 ++ 0#12 : BitVec 32)

/-- `sext_21(w[31] ## w[19:12] ## w[20] ## w[30:21] ## 0b0)` (R108). -/
def jImm (w : Word) : Word :=
  (w.extractLsb' 31 1 ++ w.extractLsb' 12 8 ++ w.extractLsb' 20 1 ++ w.extractLsb' 21 10 ++ 0b0#1 : BitVec 21).signExtend 32

/-! ### Frames -/

/-- Every register is as it was. -/
def SameRegs (s t : State) : Prop := ∀ k : RegIdx, t.readX k = s.readX k

/-- Every register is as it was, but that register `r`, unless it is `x0` (R21), holds `v`. -/
def OnlyReg (s t : State) (r : RegIdx) (v : Word) : Prop :=
  ∀ k : RegIdx, t.readX k = if k = r ∧ k ≠ 0#5 then v else s.readX k

/-- Every byte of memory reads as it did. -/
def SameMem (s t : State) : Prop := ∀ a : Nat, t.mem.read a = s.mem.read a

/-- Nothing but registers, the pc, the output and the count of free values drawn has changed. -/
structure Frame (s t : State) : Prop where
  f       : t.f = s.f
  mode    : t.mode = s.mode
  bus     : t.bus = s.bus
  mem     : SameMem s t
  dma     : t.dma = s.dma
  run     : t.run = s.run
  pevents : t.pevents = s.pevents
  ticks   : t.ticks = s.ticks
  cfg     : t.cfg = s.cfg

/-- Nothing but registers and the pc has changed. -/
structure Quiet (s t : State) : Prop where
  frame : Frame s t
  out   : t.out = s.out
  draws : t.draws = s.draws

/-- The state a stop leaves (R280): `run` alone has changed. -/
def stoppedWith (s : State) (r : StopReason) : State := { s with run := .stopped r }

/-- The state a tick that stops the run leaves where only `run` has changed since `s` (R280). The tick's own number, which the
model counts in every tick (log 12), is left open. -/
def StoppedFrom (s t : State) (r : StopReason) : Prop := ∃ k, t = { s with run := .stopped r, ticks := k }

/-- The tick of `s` stops the run and leaves `s'` but for `run` and the tick's number. -/
def StepStops (s s' : State) (r : StopReason) : Prop := ∃ t, step s = .next t ∧ StoppedFrom s' t r

/-- An empty Bus. -/
def emptyBus : Bus := { req := none, rsp := none }

/-- The state an issue leaves (R148): the request stands in its slot and the CPU waits; nothing else has changed. -/
def issued (s : State) (q : Request) (p : Pending) : State :=
  { s with bus := { req := some q, rsp := none }, mode := .awaitingMemory p }

/-! ### Addresses -/

/-- The `i`-th byte address of an access at `a` (modulo 2^32, R57). -/
def at_ (a : Word) (i : Nat) : Word := a + BitVec.ofNat 32 i

/-- The device at position `d` owns the address `a` (R66). -/
def OwnedBy (c : Config) (d : Nat) (a : Word) : Prop :=
  ∃ p, c.peripherals[d]? = some p ∧
    ∃ r ∈ p.ranges, r.base.toNat ≤ a.toNat ∧ a.toNat < r.base.toNat + r.size

/-- Some device owns the address. -/
def Owned (c : Config) (a : Word) : Prop := ∃ d, OwnedBy c d a

/-- The bytes `[a, a + n - 1]` meet the four bytes of the DMA control word (R62 test 2, R144). -/
def MeetsControl (c : Config) (a : Word) (n : Nat) : Prop :=
  ∃ D, c.dmaCtrlAddr = some D ∧ ∃ i < n, ∃ j < 4, at_ a i = at_ D j

/-- The access is served by the flat array (R62 tests 3 and 4). -/
def Plain (c : Config) (a : Word) (n : Nat) : Prop := ¬ Owned c a ∧ ¬ MeetsControl c a n

/-- A misaligned access under `MISALIGNED = Fault` (R56). -/
def Misaligns (c : Config) (a : Word) (n : Nat) : Prop := c.misaligned = .fault ∧ a.toNat % n ≠ 0

/-- `e` is the lowest-indexed absent byte of `n` bytes from `a` (R54). -/
def FirstAbsent (m : Memory) (a : Word) (n : Nat) (e : Word) : Prop :=
  ∃ k < n, (∀ i < k, (m.read (at_ a i).toNat).isSome) ∧ m.read (at_ a k).toNat = none ∧ e = at_ a k

/-- The four service numbers are pairwise different (R242). -/
def DistinctServices (c : Config) : Prop :=
  c.sysPrintInt ≠ c.sysPrintString ∧ c.sysPrintInt ≠ c.sysExit ∧ c.sysPrintInt ≠ c.sysWrite ∧
  c.sysPrintString ≠ c.sysExit ∧ c.sysPrintString ≠ c.sysWrite ∧ c.sysExit ≠ c.sysWrite

/-- A machine between instructions that is going to fetch the word `w`: it runs, it is idle, its Bus is empty (R35), and the
fetch of R144 and R145 gives `w`. -/
structure Ready (s : State) (w : Word) : Prop where
  run   : s.run = .running
  legal : legalConfig s.cfg = true
  mode  : s.mode = .idle
  bus   : s.bus = emptyBus
  fetch : fetch s = .ok w

/-! ### The shapes of the per-instruction statements -/

/-- Every word of the row decodes to the instruction, and the instruction, whatever the operands and the state, completes:
it writes `value` to `x[rd]` (discarded for `x0`), moves the pc to `pc + 4` and changes nothing else. -/
def Computes (pattern mask : Word) (mk : Word → Instr) (value : Word → State → Word) : Prop :=
  ∀ (w : Word) (s : State), w &&& mask = pattern →
    decode w = .instr (mk w) ∧
    ∃ t, exec (mk w) s = .next t ∧ OnlyReg s t (rd w) (value w s) ∧ t.pc = s.pc + 4#32 ∧ Quiet s t

/-- As `Computes`, for the register-immediate form `op rd, rs1, imm` (R103). -/
def ComputesImm (pattern : Word) (mk : RegIdx → RegIdx → Word → Instr) (op : Word → Word → Word) : Prop :=
  Computes pattern 0x0000707F#32 (fun w => mk (rd w) (rs1 w) (iImm w)) (fun w s => op (s.readX (rs1 w)) (iImm w))

/-- As `Computes`, for the shift-by-a-constant form, the amount being `u(w[24:20])` (R104). -/
def ComputesShamt (pattern : Word) (mk : RegIdx → RegIdx → BitVec 5 → Instr) (op : Word → Nat → Word) : Prop :=
  Computes pattern 0xFE00707F#32 (fun w => mk (rd w) (rs1 w) (rs2 w))
    (fun w s => op (s.readX (rs1 w)) (w.extractLsb' 20 5).toNat)

/-- As `Computes`, for the register-register form `op rd, rs1, rs2` (R102). -/
def ComputesReg (pattern : Word) (mk : RegIdx → RegIdx → RegIdx → Instr) (op : Word → Word → Word) : Prop :=
  Computes pattern 0xFE00707F#32 (fun w => mk (rd w) (rs1 w) (rs2 w))
    (fun w s => op (s.readX (rs1 w)) (s.readX (rs2 w)))

/-- Every word of the row decodes to the branch, and the branch completes: no register changes, the pc becomes
`pc + imm` where the condition holds and `pc + 4` where it does not, and nothing else changes (R203). -/
def Branches (pattern : Word) (mk : RegIdx → RegIdx → Word → Instr) (cond : Word → Word → Prop) : Prop :=
  ∀ (w : Word) (s : State), w &&& 0x0000707F#32 = pattern →
    decode w = .instr (mk (rs1 w) (rs2 w) (bImm w)) ∧
    ∃ t, exec (mk (rs1 w) (rs2 w) (bImm w)) s = .next t ∧ SameRegs s t ∧ Quiet s t ∧
      (cond (s.readX (rs1 w)) (s.readX (rs2 w)) → t.pc = s.pc + bImm w) ∧
      (¬ cond (s.readX (rs1 w)) (s.readX (rs2 w)) → t.pc = s.pc + 4#32)

/-- The effective address of a load (R220). -/
def loadAddr (w : Word) (s : State) : Word := s.readX (rs1 w) + iImm w

/-- The effective address of a store (R229). -/
def storeAddr (w : Word) (s : State) : Word := s.readX (rs1 w) + sImm w

/-- The issue of a load (R220, tick 1, CPU phase): with an empty Bus and an address that does not misalign, the request is
placed and the CPU waits, and nothing else changes; a misaligning address stops the run and changes nothing else. -/
def IssuesLoad (pattern : Word) (mk : RegIdx → RegIdx → Word → Instr) (n : AccessSize) (signed : Bool) : Prop :=
  ∀ (w : Word) (s : State), w &&& 0x0000707F#32 = pattern →
    decode w = .instr (mk (rd w) (rs1 w) (iImm w)) ∧
    (¬ Misaligns s.cfg (loadAddr w s) n.bytes → s.bus = emptyBus →
      exec (mk (rd w) (rs1 w) (iImm w)) s =
        .next (issued s (.read n (loadAddr w s)) (.load (rd w) n signed))) ∧
    (Misaligns s.cfg (loadAddr w s) n.bytes →
      exec (mk (rd w) (rs1 w) (iImm w)) s =
        .next (stoppedWith s (.modelFault (.misalignedAccess (loadAddr w s) n))))

/-- The issue of a store (R229, tick 1, CPU phase), as that of a load. -/
def IssuesStore (pattern : Word) (mk : RegIdx → RegIdx → Word → Instr) (n : AccessSize) : Prop :=
  ∀ (w : Word) (s : State), w &&& 0x0000707F#32 = pattern →
    decode w = .instr (mk (rs1 w) (rs2 w) (sImm w)) ∧
    (¬ Misaligns s.cfg (storeAddr w s) n.bytes → s.bus = emptyBus →
      exec (mk (rs1 w) (rs2 w) (sImm w)) s =
        .next (issued s (.write n (storeAddr w s) (s.readX (rs2 w))) .store)) ∧
    (Misaligns s.cfg (storeAddr w s) n.bytes →
      exec (mk (rs1 w) (rs2 w) (sImm w)) s =
        .next (stoppedWith s (.modelFault (.misalignedAccess (storeAddr w s) n))))

/-- The low `8n` bits of a word, extended to 32 (R8). -/
def lowBits (n : AccessSize) (signed : Bool) (v : Word) : Word :=
  if signed then (v.setWidth (8 * n.bytes)).signExtend 32 else (v.setWidth (8 * n.bytes)).setWidth 32

/-- The device at position `d` is the first that owns the address (R66). -/
def FirstOwner (c : Config) (d : Nat) (a : Word) : Prop := OwnedBy c d a ∧ ∀ k < d, ¬ OwnedBy c k a

/-- The first tick of a load or store whose request is served: the CPU waits for `p`, and no register, no pc, no output, no
floating-point register and no configuration has changed (R153). -/
structure Waiting (s t : State) (p : Pending) : Prop where
  run  : t.run = .running
  mode : t.mode = .awaitingMemory p
  regs : SameRegs s t
  pc   : t.pc = s.pc
  f    : t.f = s.f
  out  : t.out = s.out
  cfg  : t.cfg = s.cfg

/-- The second tick: the CPU is idle with an empty Bus, the pc is `pc + 4`, and but for the register a load writes nothing of
the CPU has changed since the first; where there is no DMA job, whose engine may copy a byte in this tick, the run goes on
and memory is as it was (R150, R153). -/
structure Completed (s t u : State) : Prop where
  mode    : u.mode = .idle
  bus     : u.bus = emptyBus
  pc      : u.pc = s.pc + 4#32
  f       : u.f = s.f
  out     : u.out = s.out
  pevents : u.pevents = t.pevents
  draws   : u.draws = t.draws
  cfg     : u.cfg = s.cfg
  still   : t.dma = none → u.run = .running ∧ u.dma = none ∧ SameMem t u

/-- A load of a machine ready to fetch it (R153, R220): where it stops and the state it leaves; what it does with a device's
answer; and, from the flat array, that after the second tick `x[rd]` holds `value` of the bytes read. -/
def Loads (pattern : Word) (n : AccessSize) (signed : Bool) (value : (Nat → Byte) → Word) : Prop :=
  ∀ (w : Word) (s : State), Ready s w → w &&& 0x0000707F#32 = pattern →
    (Misaligns s.cfg (loadAddr w s) n.bytes →
      StepStops s s (.modelFault (.misalignedAccess (loadAddr w s) n))) ∧
    (¬ Misaligns s.cfg (loadAddr w s) n.bytes → ∀ d, FirstOwner s.cfg d (loadAddr w s) →
      ∃ t u, step s = .next t ∧ step t = .next u ∧ Waiting s t (.load (rd w) n signed) ∧ Completed s t u ∧
        OnlyReg s u (rd w) (lowBits n signed (Config.freeWord s.draws)) ∧
        t.draws = s.draws + 1 ∧ t.dma = s.dma ∧ SameMem s t ∧
        ∃ k, t.pevents = s.pevents ++
          [⟨k, d, .read, n, loadAddr w s, lowBits n false (Config.freeWord s.draws)⟩]) ∧
    (¬ Misaligns s.cfg (loadAddr w s) n.bytes → ¬ Owned s.cfg (loadAddr w s) →
      MeetsControl s.cfg (loadAddr w s) n.bytes →
      StepStops s (issued s (.read n (loadAddr w s)) (.load (rd w) n signed))
          (.modelFault (.dmaCtrlAccess (.request (.read n (loadAddr w s)))))) ∧
    (¬ Misaligns s.cfg (loadAddr w s) n.bytes → Plain s.cfg (loadAddr w s) n.bytes →
      (∀ e, FirstAbsent s.mem (loadAddr w s) n.bytes e →
        StepStops s (issued s (.read n (loadAddr w s)) (.load (rd w) n signed))
          (.memoryError e)) ∧
      ∀ b : Nat → Byte, (∀ i < n.bytes, s.mem.read (at_ (loadAddr w s) i).toNat = some (b i)) →
        ∃ t u, step s = .next t ∧ step t = .next u ∧ Waiting s t (.load (rd w) n signed) ∧ Completed s t u ∧
          OnlyReg s u (rd w) (value b) ∧
          t.draws = s.draws ∧ t.dma = s.dma ∧ SameMem s t ∧ t.pevents = s.pevents)

/-- A store of a machine ready to fetch it (R153, R229): where it stops and the state it leaves; the device that receives it;
the arming of the DMA engine by a word at the control word; and, to the flat array, that after the first tick the `n` bytes
at the effective address hold the low bytes of `x[rs2]` and every other byte reads as before. -/
def Stores (pattern : Word) (n : AccessSize) : Prop :=
  ∀ (w : Word) (s : State), Ready s w → w &&& 0x0000707F#32 = pattern →
    (Misaligns s.cfg (storeAddr w s) n.bytes →
      StepStops s s (.modelFault (.misalignedAccess (storeAddr w s) n))) ∧
    (¬ Misaligns s.cfg (storeAddr w s) n.bytes → ∀ d, FirstOwner s.cfg d (storeAddr w s) →
      ∃ t u, step s = .next t ∧ step t = .next u ∧ Waiting s t .store ∧ Completed s t u ∧ SameRegs s u ∧
        t.draws = s.draws ∧ t.dma = s.dma ∧ SameMem s t ∧
        ∃ k, t.pevents = s.pevents ++
          [⟨k, d, .write, n, storeAddr w s, lowBits n false (s.readX (rs2 w))⟩]) ∧
    (¬ Misaligns s.cfg (storeAddr w s) n.bytes → ¬ Owned s.cfg (storeAddr w s) →
      MeetsControl s.cfg (storeAddr w s) n.bytes →
      (n = .word → s.cfg.dmaCtrlAddr = some (storeAddr w s) →
        (∀ j, s.dma = some j →
          StepStops s (issued s (.write n (storeAddr w s) (s.readX (rs2 w))) .store)
          (.modelFault (.dmaRearm (s.readX (rs2 w))))) ∧
        (s.dma = none →
          ∃ t u, step s = .next t ∧ step t = .next u ∧ Waiting s t .store ∧ Completed s t u ∧ SameRegs s u ∧
            t.draws = s.draws ∧ SameMem s t ∧ t.pevents = s.pevents ∧
            t.dma = some ⟨(unpackDma s.cfg (s.readX (rs2 w))).1, (unpackDma s.cfg (s.readX (rs2 w))).2.1,
              (unpackDma s.cfg (s.readX (rs2 w))).2.2, 0#32⟩)) ∧
      (¬ (n = .word ∧ s.cfg.dmaCtrlAddr = some (storeAddr w s)) →
        StepStops s (issued s (.write n (storeAddr w s) (s.readX (rs2 w))) .store)
          (.modelFault (.dmaCtrlAccess (.request (.write n (storeAddr w s) (s.readX (rs2 w)))))))) ∧
    (¬ Misaligns s.cfg (storeAddr w s) n.bytes → Plain s.cfg (storeAddr w s) n.bytes →
      ∃ t u, step s = .next t ∧ step t = .next u ∧ Waiting s t .store ∧ Completed s t u ∧ SameRegs s u ∧
        t.draws = s.draws ∧ t.dma = s.dma ∧ t.pevents = s.pevents ∧
        (∀ i < n.bytes, t.mem.read (at_ (storeAddr w s) i).toNat =
          some ((s.readX (rs2 w)).extractLsb' (8 * i) 8)) ∧
        ∀ a, (∀ i < n.bytes, a ≠ (at_ (storeAddr w s) i).toNat) → t.mem.read a = s.mem.read a)

/-! ### Other words of the rules -/

/-- `decimal(v)` of R243: the digits of `|v|`, most significant first, no leading zero unless `v` is 0, after a `-` for a
negative value. -/
def Decimal (v : Int) (bs : List Byte) : Prop :=
  ∃ ds : List Nat, ds ≠ [] ∧ (∀ d ∈ ds, d < 10) ∧ (ds.head? = some 0 → ds = [0]) ∧
    ds.foldl (fun acc d => 10 * acc + d) 0 = v.natAbs ∧
    bs = (if v < 0 then [0x2D#8] else []) ++ ds.map fun d => BitVec.ofNat 8 (0x30 + d)

/-- The signed overflow of a division. -/
def Overflows (a b : Word) : Prop := a = 0x80000000#32 ∧ b = 0xFFFFFFFF#32

/-- As `ComputesReg` for a division (R255 to R258): it completes on all operands; away from its corners the result is
`exact`, and where the configuration holds the ratified results it is `full` on all operands. -/
def Divides (pattern : Word) (mk : RegIdx → RegIdx → RegIdx → Instr) (corner : Word → Word → Prop)
    (exact full : Word → Word → Word) : Prop :=
  ∀ (w : Word) (s : State), w &&& 0xFE00707F#32 = pattern →
    decode w = .instr (mk (rd w) (rs1 w) (rs2 w)) ∧
    ∃ t v, exec (mk (rd w) (rs1 w) (rs2 w)) s = .next t ∧ OnlyReg s t (rd w) v ∧ t.pc = s.pc + 4#32 ∧ Quiet s t ∧
      (¬ corner (s.readX (rs1 w)) (s.readX (rs2 w)) → v = exact (s.readX (rs1 w)) (s.readX (rs2 w))) ∧
      (s.cfg.divisionCorners = ratifiedCorners → v = full (s.readX (rs1 w)) (s.readX (rs2 w)))

/-- As `ComputesReg` for a high-half product (R252 to R254): it completes under every configuration, and under the default
numerics the result is `value`. -/
def HighProduct (pattern : Word) (mk : RegIdx → RegIdx → RegIdx → Instr) (value : Word → Word → Word) : Prop :=
  ∀ (w : Word) (s : State), w &&& 0xFE00707F#32 = pattern →
    decode w = .instr (mk (rd w) (rs1 w) (rs2 w)) ∧
    ∃ t v, exec (mk (rd w) (rs1 w) (rs2 w)) s = .next t ∧ OnlyReg s t (rd w) v ∧ t.pc = s.pc + 4#32 ∧ Quiet s t ∧
      (s.cfg.highProducts = .exact → v = value (s.readX (rs1 w)) (s.readX (rs2 w)))

/-- Bits 63 to 32 of an integer as a 64-bit two's-complement value. -/
def high (p : Int) : Word := (BitVec.ofInt 64 p).extractLsb' 32 32

/-- The 14 major opcodes of R111. -/
def majorOpcodes : List (BitVec 7) :=
  [0b0110111#7, 0b0010111#7, 0b1101111#7, 0b1100111#7, 0b1100011#7, 0b0000011#7, 0b0100011#7, 0b0010011#7, 0b0110011#7,
   0b0001111#7, 0b1110011#7, 0b0000111#7, 0b0100111#7, 0b1010011#7]

/-- The three major opcodes of the REFUSED space (R116). -/
def refusedOpcodes : List (BitVec 7) := [0b0000111#7, 0b0100111#7, 0b1010011#7]

/-- The seven classes of illegal words of R114, by opcode, funct3 and funct7. -/
def IllegalClass (w : Word) (op : BitVec 7) (f3 : BitVec 3) (f7 : BitVec 7) : Prop :=
  w.extractLsb' 0 2 ≠ 0b11#2 ∨
  op ∉ majorOpcodes ∨
  (op = 0b1100111#7 ∧ f3 ≠ 0b000#3) ∨
  (op = 0b1100011#7 ∧ f3 ∈ [0b010#3, 0b011#3]) ∨
  (op = 0b0000011#7 ∧ f3 ∈ [0b011#3, 0b110#3, 0b111#3]) ∨
  (op = 0b0100011#7 ∧ f3 ∈ [0b011#3, 0b100#3, 0b101#3, 0b110#3, 0b111#3]) ∨
  (op = 0b0010011#7 ∧ f3 = 0b001#3 ∧ f7 ≠ 0b0000000#7) ∨
  (op = 0b0010011#7 ∧ f3 = 0b101#3 ∧ f7 ∉ [0b0000000#7, 0b0100000#7]) ∨
  (op = 0b0110011#7 ∧ f7 ∉ [0b0000000#7, 0b0100000#7, 0b0000001#7]) ∨
  (op = 0b0110011#7 ∧ f7 = 0b0100000#7 ∧ f3 ∉ [0b000#3, 0b101#3]) ∨
  (op = 0b0001111#7 ∧ f3 ≠ 0b000#3) ∨
  (op = 0b1110011#7 ∧ w ≠ 0x00000073#32 ∧ w ≠ 0x00100073#32)

/-- An instruction that is a load or a store. -/
def LoadOrStore : Instr → Prop
  | .lb _ _ _ | .lh _ _ _ | .lw _ _ _ | .lbu _ _ _ | .lhu _ _ _ | .sb _ _ _ | .sh _ _ _ | .sw _ _ _ => True
  | _ => False

/-- The gate of R80. -/
def GateOpen (s : State) : Prop := s.run = .running ∧ s.mode = .idle ∧ s.bus.req = none ∧ s.bus.rsp = none

/-- What the DMA phase leaves, whatever it does to memory, to its job and to the run (R80 to R84): all of the CPU, the Bus,
the histories and the configuration. -/
structure EngineKept (u t : State) : Prop where
  x       : t.x = u.x
  f       : t.f = u.f
  pc      : t.pc = u.pc
  mode    : t.mode = u.mode
  bus     : t.bus = u.bus
  out     : t.out = u.out
  pevents : t.pevents = u.pevents
  draws   : t.draws = u.draws
  cfg     : t.cfg = u.cfg

/-- `k` enabled ticks of the DMA engine. -/
def engineTicks : Nat → State → State
  | 0, s => s
  | k + 1, s => engineTicks k (dmaPhase s)

/-- The Bus after a service (R62): the request has left its slot and the response stands in the other. -/
def answer (data : Option Word) : Bus := { req := none, rsp := some { data := data } }

/-- The state of R36 after program load, but for memory and the pc, under the configuration of `s`. -/
structure Zeroed (s t : State) : Prop where
  x       : ∀ k : RegIdx, t.readX k = 0#32
  f       : t.f = Vector.replicate 32 0#32
  mode    : t.mode = .idle
  bus     : t.bus = emptyBus
  dma     : t.dma = none
  run     : t.run = .running
  out     : t.out = []
  pevents : t.pevents = []
  cfg     : t.cfg = s.cfg

end Sys2Proof.Claims

open Sys2Proof Sys2Proof.Machine Sys2Proof.Claims

/-! ### Reset, program load, the invariant -/

/-- R36, R301: what reset leaves, of any machine and of the machine the host starts from, and what program load leaves: reset,
then the image, which is a map, so that no address stands in it twice, then the pc. The configuration of `State.reset` is the
model's choice (log 2 to 7). -/
def Obligations.ResetAndLoadGiveZeroState : Prop :=
  (∀ s : State, Zeroed s (hostReset s) ∧ (hostReset s).pc = 0#32 ∧ ∀ a, (hostReset s).mem.read a = none) ∧
  (Zeroed State.reset State.reset ∧ State.reset.pc = 0#32 ∧ ∀ a, State.reset.mem.read a = none) ∧
  ∀ (image : List (Word × Byte)) (start : Word) (s : State), (image.map Prod.fst).Nodup →
    Zeroed s (hostLoad image start s) ∧ (hostLoad image start s).pc = start ∧
    (∀ a b, (a, b) ∈ image → (hostLoad image start s).mem.read a.toNat = some b) ∧
    (∀ a : Nat, (∀ c ∈ image, c.1.toNat ≠ a) → (hostLoad image start s).mem.read a = none)

/-- R300's last sentence: a machine that is reset and ticked without a program stops with `MemoryError(0)`; so does the
machine the host starts from, which has no peripheral and no control word (log 2, log 5). -/
def Obligations.FirstTickAfterResetFindsNoMemory : Prop :=
  (∀ s : State, legalConfig s.cfg = true → ¬ Owned s.cfg 0#32 → ¬ MeetsControl s.cfg 0#32 4 →
    StepStops (hostReset s) (hostReset s) (.memoryError 0#32)) ∧
  StepStops State.reset State.reset (.memoryError 0#32)

/-- R35 holds right after reset and right after a program load, of any image. -/
def Obligations.InvariantAfterResetAndLoad : Prop :=
  State.Inv State.reset ∧ (∀ s, State.Inv (hostReset s)) ∧
  ∀ image start s, State.Inv (hostLoad image start s)

/-- R35: every tick keeps the invariant, from every state that has it. -/
def Obligations.EveryStepKeepsInvariant : Prop :=
  ∀ s t : State, State.Inv s → step s = .next t → State.Inv t

/-- R61, R116: from a state with the invariant and a configuration the spec allows, a tick always has a next state, but for
the fetch of a word of the floating-point space, which is refused. No tick faults: no second request is ever issued. -/
def Obligations.StepFromInvariantNeverFaults : Prop :=
  ∀ s : State, State.Inv s → legalConfig s.cfg = true →
    (∃ t, step s = .next t) ∨
    ∃ w, Ready s w ∧ w.extractLsb' 0 7 ∈ refusedOpcodes ∧ step s = .refused (.floatingPoint w)

/-! ### Encoding and decoding -/

/-- R128: the word of a well-formed instruction is of its row, and decodes to the instruction. -/
def Obligations.DecodeOfEncode : Prop :=
  ∀ i : Instr, i.wf = true → encode i &&& i.row.mask = i.row.pattern ∧ decode (encode i) = .instr i

/-- R110: what decodes to an instruction is the word of that instruction, which is well-formed: no bit is dropped. -/
def Obligations.EncodeOfDecode : Prop :=
  ∀ (w : Word) (i : Instr), decode w = .instr i → i.wf = true ∧ encode i = w

/-- R110: decode finds the row of the table the word matches; a word of no row is refused or illegal by its major opcode. -/
def Obligations.DecodeFollowsTable : Prop :=
  ∀ w : Word,
    (∀ r ∈ opcodeTable, w &&& r.mask = r.pattern → ∃ i, decode w = .instr i ∧ i.row = r ∧ encode i = w) ∧
    ((∀ r ∈ opcodeTable, w &&& r.mask ≠ r.pattern) →
      decode w = if w.extractLsb' 0 7 ∈ refusedOpcodes then .refused w else .illegal w)

/-- R112, words written out from the formats: one of each family. -/
def Obligations.SampleWordsDecode : Prop :=
  decode 0x123452B7#32 = .instr (.lui 5 0x12345000#32) ∧
  decode 0x008000EF#32 = .instr (.jal 1 8#32) ∧
  decode 0xFE029CE3#32 = .instr (.bne 5 0 (-8#32)) ∧
  decode 0x00328303#32 = .instr (.lb 6 5 3#32) ∧
  decode 0x006280A3#32 = .instr (.sb 5 6 1#32) ∧
  decode 0xFFF32293#32 = .instr (.slti 5 6 (-1#32)) ∧
  decode 0x40435293#32 = .instr (.srai 5 6 4) ∧
  decode 0x407302B3#32 = .instr (.sub 5 6 7) ∧
  decode 0x0FF0000F#32 = .instr (.fence 0 15 15 0 0) ∧
  decode 0x00000073#32 = .instr .ecall ∧
  decode 0x027322B3#32 = .instr (.mulhsu 5 6 7)

/-- R114, R272: the illegal words are exactly the seven classes; fetched, one stops the run with `DecodeError(pc, word)` and
changes nothing else; and nothing else raises that error. -/
def Obligations.IllegalWordsRaiseDecodeError : Prop :=
  (∀ w : Word, decode w = .illegal w ↔
    IllegalClass w (w.extractLsb' 0 7) (w.extractLsb' 12 3) (w.extractLsb' 25 7)) ∧
  (∀ (w : Word) (s : State), Ready s w → decode w = .illegal w →
    StepStops s s (.decodeError s.pc w)) ∧
  ∀ (s t : State) (p w : Word), s.run = .running → step s = .next t → t.run = .stopped (.decodeError p w) →
    s.mode = .idle ∧ p = s.pc ∧ fetch s = .ok w ∧ decode w = .illegal w

/-- R116: the words of three major opcodes are refused, and the fetch of one refuses the step; the fused multiply-add
opcodes are illegal. -/
def Obligations.FloatingPointWordsAreRefused : Prop :=
  (∀ w : Word, w.extractLsb' 0 7 ∈ refusedOpcodes → decode w = .refused w) ∧
  (∀ (w : Word) (s : State), Ready s w → w.extractLsb' 0 7 ∈ refusedOpcodes →
    step s = .refused (.floatingPoint w)) ∧
  ∀ w : Word, w.extractLsb' 0 7 ∈ [0b1000011#7, 0b1000111#7, 0b1001011#7, 0b1001111#7] → decode w = .illegal w

/-! ### The tick -/

/-- R141, R146: when the four bytes at the pc decode to an instruction and no fetch check fails, the step runs the
instruction's execution and then the Bus/Memory and DMA phases; `beginTick` only counts the tick (log 12). -/
def Obligations.StepRunsDecodedInstruction : Prop :=
  ∀ (s : State) (bs rest : List Byte) (i : Instr),
    s.run = .running → legalConfig s.cfg = true → s.mode = .idle → fetchFault s = none →
    s.mem.readBytes 4 s.pc = .ok bs → decodeBytes bs = .ok (i, rest) →
    step s = match exec i s.beginTick with
      | .next t => .next (dmaPhase (busPhase t))
      | .fault e => .fault e
      | .refused e => .refused e

/-- R142: a stopped machine does not move. -/
def Obligations.StoppedMachineDoesNotMove : Prop :=
  ∀ (s : State) (r : StopReason), s.run = .stopped r → step s = .next s

/-- R144, and the `MemoryError` of R145: the checks of a fetch in their order; each stop leaves the rest of the state. -/
def Obligations.FetchChecksInOrder : Prop :=
  ∀ s : State, s.run = .running → legalConfig s.cfg = true → s.mode = .idle →
    (Misaligns s.cfg s.pc 4 →
      StepStops s s (.modelFault (.misalignedFetch s.pc))) ∧
    (¬ Misaligns s.cfg s.pc 4 → Owned s.cfg s.pc →
      StepStops s s (.modelFault (.fetchFromPeripheral s.pc))) ∧
    (¬ Misaligns s.cfg s.pc 4 → ¬ Owned s.cfg s.pc → MeetsControl s.cfg s.pc 4 →
      StepStops s s (.modelFault (.dmaCtrlAccess (.fetch s.pc)))) ∧
    (¬ Misaligns s.cfg s.pc 4 → ¬ Owned s.cfg s.pc → ¬ MeetsControl s.cfg s.pc 4 →
      (∀ e, FirstAbsent s.mem s.pc 4 e → StepStops s s (.memoryError e)) ∧
      ∀ b0 b1 b2 b3 : Byte, s.mem.read (at_ s.pc 0).toNat = some b0 → s.mem.read (at_ s.pc 1).toNat = some b1 →
        s.mem.read (at_ s.pc 2).toNat = some b2 → s.mem.read (at_ s.pc 3).toNat = some b3 →
        fetch s = .ok (b3 ++ b2 ++ b1 ++ b0 : BitVec 32))

/-- R147, R152: an instruction that is not a load or store runs in one tick: its execution has a next state, issues nothing
and leaves memory, the Bus, the CPU's mode, the job and the peripheral history; the step ends in that state after the DMA
phase. `beginTick` only counts the tick (log 12). -/
def Obligations.OtherInstructionsTakeOneTick : Prop :=
  ∀ (i : Instr), ¬ LoadOrStore i →
    (∀ s, ∃ t, exec i s = .next t ∧ t.mode = s.mode ∧ t.bus = s.bus ∧ SameMem s t ∧ t.dma = s.dma ∧
      t.pevents = s.pevents ∧ t.f = s.f ∧ t.cfg = s.cfg) ∧
    ∀ (w : Word) (s : State), Ready s w → decode w = .instr i →
      ∃ t, exec i s.beginTick = .next t ∧ step s = .next (dmaPhase t) ∧
        (dmaPhase t).mode = .idle ∧ SameRegs t (dmaPhase t) ∧ (dmaPhase t).pc = t.pc

/-- R149, R150: the CPU phase of a waiting CPU with no response does nothing; with the response it completes: a load writes the
extended data, a store writes no register, the pc moves and the CPU is idle with an empty response slot. -/
def Obligations.CompletionOfTransaction : Prop :=
  (∀ (s : State) (p : Pending), s.mode = .awaitingMemory p → s.bus.rsp = none → cpuPhase s = .next s) ∧
  (∀ (s : State) (r : RegIdx) (n : AccessSize) (signed : Bool) (d : Word), s.run = .running → legalConfig s.cfg = true →
    s.mode = .awaitingMemory (.load r n signed) → s.bus = { req := none, rsp := some { data := some d } } →
    ∃ t, cpuPhase s = .next t ∧ (∃ k, step s = .next (dmaPhase { t with ticks := k })) ∧
      t.mode = .idle ∧ t.bus = emptyBus ∧ t.pc = s.pc + 4#32 ∧
      OnlyReg s t r (lowBits n signed d) ∧
      t.f = s.f ∧ t.mem = s.mem ∧ t.dma = s.dma ∧ t.run = s.run ∧ t.out = s.out ∧ t.pevents = s.pevents ∧
      t.draws = s.draws ∧ t.cfg = s.cfg) ∧
  ∀ s : State, s.run = .running → legalConfig s.cfg = true →
    s.mode = .awaitingMemory .store → s.bus = { req := none, rsp := some { data := none } } →
    ∃ k, step s = .next (dmaPhase { s with ticks := k, pc := s.pc + 4#32, mode := .idle, bus := emptyBus })

/-! ### Integer computational instructions -/

/-- R170, R171. -/
def Obligations.UpperImmediateResults : Prop :=
  Computes 0x00000037#32 0x0000007F#32 (fun w => .lui (rd w) (uImm w)) (fun w _ => w.extractLsb' 12 20 ++ 0#12) ∧
  Computes 0x00000017#32 0x0000007F#32 (fun w => .auipc (rd w) (uImm w)) (fun w s => s.pc + (w.extractLsb' 12 20 ++ 0#12))

/-- R172 to R177. -/
def Obligations.RegisterImmediateResults : Prop :=
  ComputesImm 0x00000013#32 .addi (fun a imm => a + imm) ∧
  ComputesImm 0x00002013#32 .slti (fun a imm => if a.toInt < imm.toInt then 1#32 else 0#32) ∧
  ComputesImm 0x00003013#32 .sltiu (fun a imm => if a.toNat < imm.toNat then 1#32 else 0#32) ∧
  ComputesImm 0x00004013#32 .xori (fun a imm => a ^^^ imm) ∧
  ComputesImm 0x00006013#32 .ori (fun a imm => a ||| imm) ∧
  ComputesImm 0x00007013#32 .andi (fun a imm => a &&& imm)

/-- R178 to R180. -/
def Obligations.ConstantShiftResults : Prop :=
  ComputesShamt 0x00001013#32 .slli (fun a n => a <<< n) ∧
  ComputesShamt 0x00005013#32 .srli (fun a n => a >>> n) ∧
  ComputesShamt 0x40005013#32 .srai (fun a n => BitVec.ofInt 32 (a.toInt / 2 ^ n))

/-- R181, R182, R184 to R186, R189, R190. -/
def Obligations.RegisterRegisterResults : Prop :=
  ComputesReg 0x00000033#32 .add (fun a b => a + b) ∧
  ComputesReg 0x40000033#32 .sub (fun a b => a - b) ∧
  ComputesReg 0x00002033#32 .slt (fun a b => if a.toInt < b.toInt then 1#32 else 0#32) ∧
  ComputesReg 0x00003033#32 .sltu (fun a b => if a.toNat < b.toNat then 1#32 else 0#32) ∧
  ComputesReg 0x00004033#32 .xor (fun a b => a ^^^ b) ∧
  ComputesReg 0x00006033#32 .or (fun a b => a ||| b) ∧
  ComputesReg 0x00007033#32 .and (fun a b => a &&& b)

/-- R183, R187, R188: only the low five bits of `x[rs2]` count. -/
def Obligations.RegisterShiftResults : Prop :=
  ComputesReg 0x00001033#32 .sll (fun a b => a <<< (b.extractLsb' 0 5).toNat) ∧
  ComputesReg 0x00005033#32 .srl (fun a b => a >>> (b.extractLsb' 0 5).toNat) ∧
  ComputesReg 0x40005033#32 .sra (fun a b => BitVec.ofInt 32 (a.toInt / 2 ^ (b.extractLsb' 0 5).toNat))

/-- R178 to R180, R183, R187, R188, bit by bit: zeros enter from the right, zeros from the left, copies of bit 31 from the
left. -/
def Obligations.ShiftsBitByBit : Prop :=
  ∀ (a : Word) (n i : Nat), n < 32 → i < 32 →
    (shiftLeft a n).getLsbD i = (decide (n ≤ i) && a.getLsbD (i - n)) ∧
    (shiftRightLogical a n).getLsbD i = (decide (i + n < 32) && a.getLsbD (i + n)) ∧
    (shiftRightArithmetic a n).getLsbD i = (if i + n < 32 then a.getLsbD (i + n) else a.getLsbD 31)

/-- R21: `x0` reads 0 in every state and its writes are discarded; a computation, a jump and a load with destination 0 run
in full, and only the write is dropped; DOC's test: after `addi x0, x1, 5`, `x0` still reads 0,
and the instruction has otherwise run. -/
def Obligations.ZeroRegisterIsHardWired : Prop :=
  (∀ s : State, s.readX 0#5 = 0#32) ∧
  (∀ (s : State) (v : Word), s.writeX 0#5 v = s) ∧
  (∀ (s : State) (i : RegIdx) (v : Word), OnlyReg s (s.writeX i v) i v) ∧
  (∀ (s : State) (v : Word), retire 0#5 v s = .next { s with pc := s.pc + 4#32 }) ∧
  (∀ (s : State) (target : Word), jump 0#5 target s = .next { s with pc := target }) ∧
  (∀ (s : State) (n : AccessSize) (signed : Bool) (d : Word),
    complete (.load 0#5 n signed) { data := some d } s = complete .store { data := none } s) ∧
  ∀ s : State, exec (.addi 0#5 1#5 5#32) s = .next { s with pc := s.pc + 4#32 }

/-! ### Control transfer -/

/-- R201, R202. -/
def Obligations.JumpResults : Prop :=
  (∀ (w : Word) (s : State), w &&& 0x0000007F#32 = 0x0000006F#32 →
    decode w = .instr (.jal (rd w) (jImm w)) ∧
    ∃ t, exec (.jal (rd w) (jImm w)) s = .next t ∧ OnlyReg s t (rd w) (s.pc + 4#32) ∧ t.pc = s.pc + jImm w ∧ Quiet s t) ∧
  ∀ (w : Word) (s : State), w &&& 0x0000707F#32 = 0x00000067#32 →
    decode w = .instr (.jalr (rd w) (rs1 w) (iImm w)) ∧
    ∃ t, exec (.jalr (rd w) (rs1 w) (iImm w)) s = .next t ∧ OnlyReg s t (rd w) (s.pc + 4#32) ∧
      t.pc = (s.readX (rs1 w) + iImm w) &&& 0xFFFFFFFE#32 ∧ Quiet s t

/-- R203 to R208. -/
def Obligations.BranchResults : Prop :=
  Branches 0x00000063#32 .beq (fun a b => a = b) ∧
  Branches 0x00001063#32 .bne (fun a b => a ≠ b) ∧
  Branches 0x00004063#32 .blt (fun a b => a.toInt < b.toInt) ∧
  Branches 0x00005063#32 .bge (fun a b => a.toInt ≥ b.toInt) ∧
  Branches 0x00006063#32 .bltu (fun a b => a.toNat < b.toNat) ∧
  Branches 0x00007063#32 .bgeu (fun a b => a.toNat ≥ b.toNat)

/-! ### Memory, loads and stores -/

/-- R54: `MemRead` gives the bytes in little-endian order, and `MemoryError`'s address is the lowest-indexed absent byte. -/
def Obligations.MemReadIsLittleEndian : Prop :=
  ∀ (m : Memory) (a : Word),
    (∀ b0, m.read (at_ a 0).toNat = some b0 → m.memRead a 1 = .ok ((b0 : Byte).setWidth 32)) ∧
    (∀ b0 b1, m.read (at_ a 0).toNat = some b0 → m.read (at_ a 1).toNat = some b1 →
      m.memRead a 2 = .ok ((b1 ++ b0 : BitVec 16).setWidth 32)) ∧
    (∀ b0 b1 b2 b3, m.read (at_ a 0).toNat = some b0 → m.read (at_ a 1).toNat = some b1 →
      m.read (at_ a 2).toNat = some b2 → m.read (at_ a 3).toNat = some b3 →
      m.memRead a 4 = .ok (b3 ++ b2 ++ b1 ++ b0 : BitVec 32)) ∧
    ∀ n, n ∈ [1, 2, 4] → ∀ e, m.memRead a n = .error e ↔ FirstAbsent m a n e

/-- R55: `MemWrite` puts byte `i` of the value at `a + i`, changes no other cell, and keeps the canonical form. -/
def Obligations.MemWriteStoresBytes : Prop :=
  ∀ (m : Memory) (a v : Word) (n : Nat), n ∈ [1, 2, 4] →
    (∀ i < n, (m.memWrite a n v).read (at_ a i).toNat = some (v.extractLsb' (8 * i) 8)) ∧
    (∀ c : Nat, (∀ i < n, c ≠ (at_ a i).toNat) → (m.memWrite a n v).read c = m.read c) ∧
    (Memory.wf m → Memory.wf (m.memWrite a n v))

/-- R148: the issue of each load and store, and where it stops. -/
def Obligations.LoadsAndStoresIssueRequest : Prop :=
  IssuesLoad 0x00000003#32 .lb .byte true ∧
  IssuesLoad 0x00001003#32 .lh .half true ∧
  IssuesLoad 0x00002003#32 .lw .word true ∧
  IssuesLoad 0x00004003#32 .lbu .byte false ∧
  IssuesLoad 0x00005003#32 .lhu .half false ∧
  IssuesStore 0x00000023#32 .sb .byte ∧
  IssuesStore 0x00001023#32 .sh .half ∧
  IssuesStore 0x00002023#32 .sw .word

/-- R220 to R225: the two ticks of each load, and its stops. -/
def Obligations.LoadsWriteBackInTwoTicks : Prop :=
  Loads 0x00000003#32 .byte true (fun b => (b 0).signExtend 32) ∧
  Loads 0x00001003#32 .half true (fun b => (b 1 ++ b 0 : BitVec 16).signExtend 32) ∧
  Loads 0x00002003#32 .word true (fun b => b 3 ++ b 2 ++ b 1 ++ b 0) ∧
  Loads 0x00004003#32 .byte false (fun b => (b 0).setWidth 32) ∧
  Loads 0x00005003#32 .half false (fun b => (b 1 ++ b 0 : BitVec 16).setWidth 32)

/-- R226 to R229: the two ticks of each store, and its stops. -/
def Obligations.StoresWriteMemoryInTwoTicks : Prop :=
  Stores 0x00000023#32 .byte ∧ Stores 0x00001023#32 .half ∧ Stores 0x00002023#32 .word

/-! ### Routing, peripherals, the DMA control word -/

/-- R66 to R68: the first device in the list that owns the address of a request receives it, before any other test: a read
is answered by a free value, whose low `8n` bits are kept, a write passes the low `8n` bits of its value; the access is
recorded, under a tick number the rule leaves open, and nothing else changes. -/
def Obligations.PeripheralReceivesRequest : Prop :=
  ∀ (s : State) (d : Nat) (n : AccessSize) (a v : Word), s.run = .running → FirstOwner s.cfg d a →
    (s.bus = { req := some (.read n a), rsp := none } →
      ∃ k, busPhase s =
        { s with
          bus := answer (some (lowBits n false (Config.freeWord s.draws))),
          draws := s.draws + 1,
          pevents := s.pevents ++
            [⟨k, d, .read, n, a, lowBits n false (Config.freeWord s.draws)⟩] }) ∧
    (s.bus = { req := some (.write n a v), rsp := none } →
      ∃ k, busPhase s =
        { s with
          bus := answer none,
          pevents := s.pevents ++ [⟨k, d, .write, n, a, lowBits n false v⟩] })

/-- R72, R73: a word write to the control word arms the engine, memory unchanged, or stops the run while a job exists. -/
def Obligations.ControlWriteArmsEngine : Prop :=
  ∀ (s : State) (D v : Word), s.run = .running → s.cfg.dmaCtrlAddr = some D → ¬ Owned s.cfg D →
    s.bus = { req := some (.write .word D v), rsp := none } →
    (s.dma = none →
      busPhase s = { s with
        bus := answer none,
        dma := some ⟨(unpackDma s.cfg v).1, (unpackDma s.cfg v).2.1, (unpackDma s.cfg v).2.2, 0#32⟩ }) ∧
    (∀ j, s.dma = some j → busPhase s = stoppedWith s (.modelFault (.dmaRearm v)))

/-- R74: any other request that touches the control word stops the run and changes nothing else. -/
def Obligations.OtherControlAccessStops : Prop :=
  ∀ (s : State) (r : Request), s.run = .running → s.bus = { req := some r, rsp := none } → ¬ Owned s.cfg r.address →
    MeetsControl s.cfg r.address r.size.bytes →
    (∀ D v, s.cfg.dmaCtrlAddr = some D → r ≠ .write .word D v) →
    busPhase s = stoppedWith s (.modelFault (.dmaCtrlAccess (.request r)))

/-! ### The DMA engine -/

/-- R80: the DMA phase acts exactly when the gate is open and there is a job, in every state whose job has not copied more
than its length (R31); otherwise it does nothing. -/
def Obligations.EngineActsExactlyWhenEnabled : Prop :=
  (∀ s : State, (¬ GateOpen s ∨ s.dma = none) → dmaPhase s = s) ∧
  ∀ (s : State) (j : Job), s.dma = some j → j.progress.toNat ≤ j.length.toNat → GateOpen s → dmaPhase s ≠ s

/-- R81 to R84: one enabled tick of a job: an absent source byte stops the run; otherwise one byte is copied; when the job is
then finished, or is empty, it is destroyed and the callback stops the run if the configuration says so. -/
def Obligations.EngineCopiesOneByte : Prop :=
  ∀ (s : State) (j : Job), GateOpen s → s.dma = some j →
    (j.progress.toNat < j.length.toNat → s.mem.read (j.src + j.progress).toNat = none →
      dmaPhase s = stoppedWith s (.memoryError (j.src + j.progress))) ∧
    (∀ b, j.progress.toNat < j.length.toNat → s.mem.read (j.src + j.progress).toNat = some b →
      ∀ t, dmaPhase s = t →
        t.mem.read (j.dst + j.progress).toNat = some b ∧
        (∀ a, a ≠ (j.dst + j.progress).toNat → t.mem.read a = s.mem.read a) ∧
        SameRegs s t ∧ t.f = s.f ∧ t.pc = s.pc ∧ t.mode = s.mode ∧ t.bus = s.bus ∧ t.out = s.out ∧
        t.pevents = s.pevents ∧ t.draws = s.draws ∧ t.cfg = s.cfg ∧
        (j.progress + 1#32 ≠ j.length → t.dma = some { j with progress := j.progress + 1#32 } ∧ t.run = .running) ∧
        (j.progress + 1#32 = j.length →
          t.dma = none ∧ t.run = if s.cfg.dmaCompletionHalts then .stopped .dmaComplete else .running)) ∧
    (j.progress = j.length →
      dmaPhase s =
        { s with dma := none, run := if s.cfg.dmaCompletionHalts then .stopped .dmaComplete else .running })

/-- R85, R86: an armed job of length `L > 0` completes in its `L`-th enabled tick and not before; where no source byte is a
destination byte the destination then holds the source's bytes; no other byte of memory changes. -/
def Obligations.JobCopiesItsRegion : Prop :=
  ∀ (s : State) (src dst length : Word) (b : Nat → Byte), GateOpen s →
    s.dma = some ⟨src, dst, length, 0#32⟩ → length ≠ 0#32 →
    (∀ i < length.toNat, s.mem.read (at_ src i).toNat = some (b i)) →
    (∀ i < length.toNat, ∀ k < length.toNat, at_ dst i ≠ at_ src k) →
    (∀ k < length.toNat, (engineTicks k s).run = .running ∧
      (engineTicks k s).dma = some ⟨src, dst, length, BitVec.ofNat 32 k⟩) ∧
    (engineTicks length.toNat s).dma = none ∧
    (engineTicks length.toNat s).run = (if s.cfg.dmaCompletionHalts then .stopped .dmaComplete else .running) ∧
    (∀ i < length.toNat, (engineTicks length.toNat s).mem.read (at_ dst i).toNat = some (b i)) ∧
    (∀ a, (∀ i < length.toNat, a ≠ (at_ dst i).toNat) → (engineTicks length.toNat s).mem.read a = s.mem.read a) ∧
    SameRegs s (engineTicks length.toNat s) ∧ (engineTicks length.toNat s).pc = s.pc

/-- R85's overlap: with `dst = src + 1` every destination byte becomes `mem[src]`, whatever stood between. -/
def Obligations.OverlappingJobReplicates : Prop :=
  ∀ (s : State) (src length : Word) (b : Byte), GateOpen s →
    s.dma = some ⟨src, src + 1#32, length, 0#32⟩ → length ≠ 0#32 → s.mem.read src.toNat = some b →
    (engineTicks length.toNat s).dma = none ∧
    ∀ i < length.toNat, (engineTicks length.toNat s).mem.read (at_ (src + 1#32) i).toNat = some b

/-- R89: no copy step falls between the issue and the completion of a load or store: a tick that ends with the CPU waiting
leaves a job as it was, and changes memory only by the CPU's own store. -/
def Obligations.NoCopyWhileCpuWaits : Prop :=
  ∀ s t : State, State.Inv s → s.run = .running → step s = .next t → t.mode ≠ .idle →
    (∀ j, s.dma = some j → t.dma = some j) ∧
    (s.dma = none → t.dma = none ∨ ∃ src dst length, t.dma = some ⟨src, dst, length, 0#32⟩) ∧
    (t.mem = s.mem ∨ ∃ w i n a v, fetch s = .ok w ∧ decode w = .instr i ∧ 
        exec i s.beginTick = .next (issued s.beginTick (.write n a v) .store) ∧
      t.mem = s.mem.memWrite a n.bytes v)

/-- R20, R275: the register file, the pc and the CPU's mode are the CPU's own: neither the Memory nor the DMA engine changes
them, nor the output, nor the floating-point registers. -/
def Obligations.OnlyCpuChangesRegisters : Prop :=
  ∀ s : State,
    (busPhase s).x = s.x ∧ (busPhase s).pc = s.pc ∧ (busPhase s).mode = s.mode ∧ (busPhase s).f = s.f ∧
    (busPhase s).out = s.out ∧
    (dmaPhase s).x = s.x ∧ (dmaPhase s).pc = s.pc ∧ (dmaPhase s).mode = s.mode ∧ (dmaPhase s).f = s.f ∧
    (dmaPhase s).out = s.out

/-! ### FENCE, ECALL, EBREAK -/

/-- R240: every FENCE word is a no-op that advances the pc. -/
def Obligations.FenceOnlyAdvancesPc : Prop :=
  ∀ (w : Word) (s : State), w &&& 0x0000707F#32 = 0x0000000F#32 →
    ∃ i, decode w = .instr i ∧
      i = .fence (w.extractLsb' 28 4) (w.extractLsb' 24 4) (w.extractLsb' 20 4) (rs1 w) (rd w) ∧
      exec i s = .next { s with pc := s.pc + 4#32 }

/-- R241, R243: print_int completes; the decimal of the signed `x10` is emitted, no register changes, the pc moves. -/
def Obligations.PrintIntEmitsDecimal : Prop :=
  decode 0x00000073#32 = .instr .ecall ∧
  ∀ s : State, DistinctServices s.cfg → s.readX s.cfg.syscallReg = s.cfg.sysPrintInt →
    ∃ t bs, exec .ecall s = .next t ∧ Decimal (s.readX 10#5).toInt bs ∧ t.out = s.out ++ bs ∧
      SameRegs s t ∧ t.pc = s.pc + 4#32 ∧ t.draws = s.draws ∧ Frame s t

/-- R244: print_string emits the bytes up to the first NUL and completes; an absent byte before it stops the run, and so do
2^32 present bytes without one, with nothing emitted. -/
def Obligations.PrintStringEmitsBytes : Prop :=
  ∀ s : State, DistinctServices s.cfg → s.readX s.cfg.syscallReg = s.cfg.sysPrintString →
    (∀ bs : List Byte, bs.length < 2 ^ 32 → 0#8 ∉ bs →
      (∀ i < bs.length, s.mem.read (at_ (s.readX 10#5) i).toNat = bs[i]?) →
      s.mem.read (at_ (s.readX 10#5) bs.length).toNat = some 0#8 →
      ∃ t, exec .ecall s = .next t ∧ t.out = s.out ++ bs ∧
        SameRegs s t ∧ t.pc = s.pc + 4#32 ∧ t.draws = s.draws ∧ Frame s t) ∧
    (∀ k < 2 ^ 32, (∀ i < k, ∃ b : Byte, b ≠ 0#8 ∧ s.mem.read (at_ (s.readX 10#5) i).toNat = some b) →
      s.mem.read (at_ (s.readX 10#5) k).toNat = none →
      exec .ecall s = .next (stoppedWith s (.memoryError (at_ (s.readX 10#5) k)))) ∧
    ((∀ i < 2 ^ 32, ∃ b : Byte, b ≠ 0#8 ∧ s.mem.read (at_ (s.readX 10#5) i).toNat = some b) →
      exec .ecall s = .next (stoppedWith s (.modelFault (.unterminatedString (s.readX 10#5)))))

/-- R246: write emits `u(x12)` bytes from `x11` and completes, leaving a free value in `x10` (log 6); a descriptor other than
1, or an absent byte, stops the run with nothing emitted. -/
def Obligations.WriteEmitsBuffer : Prop :=
  ∀ s : State, DistinctServices s.cfg → s.readX s.cfg.syscallReg = s.cfg.sysWrite →
    (s.readX 10#5 ≠ 1#32 →
      exec .ecall s = .next (stoppedWith s (.modelFault (.unsupportedFd (s.readX 10#5))))) ∧
    (s.readX 10#5 = 1#32 → ∀ bs : List Byte, bs.length = (s.readX 12#5).toNat →
      (∀ i < bs.length, s.mem.read (at_ (s.readX 11#5) i).toNat = bs[i]?) →
      ∃ t, exec .ecall s = .next t ∧ t.out = s.out ++ bs ∧ OnlyReg s t 10#5 (Config.freeWord s.draws) ∧
        t.draws = s.draws + 1 ∧ t.pc = s.pc + 4#32 ∧ Frame s t) ∧
    (s.readX 10#5 = 1#32 → ∀ e, FirstAbsent s.mem (s.readX 11#5) (s.readX 12#5).toNat e →
      exec .ecall s = .next (stoppedWith s (.memoryError e)))

/-- R245, R247: exit stops the run with `Exit` and changes nothing else, and its tick ends there; so does a number outside the table, with the model
fault. -/
def Obligations.ExitAndUnknownServiceStop : Prop :=
  ∀ s : State, DistinctServices s.cfg →
    (s.readX s.cfg.syscallReg = s.cfg.sysExit → exec .ecall s = .next (stoppedWith s .exit) ∧
      (Ready s 0x00000073#32 → StepStops s s .exit)) ∧
    (s.readX s.cfg.syscallReg ∉ [s.cfg.sysPrintInt, s.cfg.sysPrintString, s.cfg.sysExit, s.cfg.sysWrite] →
      exec .ecall s = .next (stoppedWith s (.modelFault (.unknownService (s.readX s.cfg.syscallReg)))))

/-- R248: EBREAK stops the run, the pc staying at it; a tick that runs it changes nothing else. -/
def Obligations.EbreakStopsTheRun : Prop :=
  decode 0x00100073#32 = .instr .ebreak ∧
  (∀ s : State, exec .ebreak s = .next (stoppedWith s .ebreak)) ∧
  ∀ s : State, Ready s 0x00100073#32 →
    StepStops s s .ebreak

/-! ### Multiplication and division -/

/-- R251 to R254, under the default numerics for the three high halves (log 7). -/
def Obligations.MultiplicationResults : Prop :=
  ComputesReg 0x02000033#32 .mul (fun a b => BitVec.ofInt 32 (a.toInt * b.toInt)) ∧
  HighProduct 0x02001033#32 .mulh (fun a b => high (a.toInt * b.toInt)) ∧
  HighProduct 0x02002033#32 .mulhsu (fun a b => high (a.toInt * b.toNat)) ∧
  HighProduct 0x02003033#32 .mulhu (fun a b => high (a.toNat * b.toNat))

/-- R255 to R258: the spec's results, the corners being those of the default configuration (log 7). -/
def Obligations.DivisionResults : Prop :=
  Divides 0x02004033#32 .div (fun a b => b = 0#32 ∨ Overflows a b)
    (fun a b => BitVec.ofInt 32 (a.toInt.tdiv b.toInt))
    (fun a b => if b = 0#32 then 0xFFFFFFFF#32
      else if a = 0x80000000#32 ∧ b = 0xFFFFFFFF#32 then 0x80000000#32 else BitVec.ofInt 32 (a.toInt.tdiv b.toInt)) ∧
  Divides 0x02005033#32 .divu (fun _ b => b = 0#32) (fun a b => a / b)
    (fun a b => if b = 0#32 then 0xFFFFFFFF#32 else a / b) ∧
  Divides 0x02006033#32 .rem (fun a b => b = 0#32 ∨ Overflows a b)
    (fun a b => BitVec.ofInt 32 (a.toInt - b.toInt * a.toInt.tdiv b.toInt))
    (fun a b => if b = 0#32 then a
      else if a = 0x80000000#32 ∧ b = 0xFFFFFFFF#32 then 0#32
      else BitVec.ofInt 32 (a.toInt - b.toInt * a.toInt.tdiv b.toInt)) ∧
  Divides 0x02007033#32 .remu (fun _ b => b = 0#32) (fun a b => a % b)
    (fun a b => if b = 0#32 then a else a % b)

/-- 45_muldiv.md section 3: for `b ≠ 0` and no overflow `a = b * DIV + REM` exactly in the integers, the remainder is smaller
than the divisor and has the sign of the dividend; the same unsigned. -/
def Obligations.QuotientAndRemainderRebuildDividend : Prop :=
  ∀ (c : Config) (a b : Word), b ≠ 0#32 →
    (¬ Overflows a b →
      a.toInt = b.toInt * (quotientSigned c a b).toInt + (remainderSigned c a b).toInt ∧
      (remainderSigned c a b).toInt.natAbs < b.toInt.natAbs ∧
      (0 ≤ a.toInt → 0 ≤ (remainderSigned c a b).toInt) ∧ (a.toInt ≤ 0 → (remainderSigned c a b).toInt ≤ 0)) ∧
    a.toNat = b.toNat * (quotientUnsigned c a b).toNat + (remainderUnsigned c a b).toNat ∧
    (remainderUnsigned c a b).toNat < b.toNat

/-- R251 to R254: the high half and the low half together are the exact 64-bit product, in each reading of the operands. -/
def Obligations.ProductHalvesRebuildProduct : Prop :=
  ∀ (c : Config) (a b : Word), c.highProducts = .exact →
    (productHigh c .mulh a b ++ productLow a b : BitVec 64).toInt = a.toInt * b.toInt ∧
    (productHigh c .mulhsu a b ++ productLow a b : BitVec 64).toInt = a.toInt * b.toNat ∧
    (productHigh c .mulhu a b ++ productLow a b : BitVec 64).toNat = a.toNat * b.toNat

/-! ### Whole-machine rules -/

/-- R280, R281: a tick that stops the run. A stop in the CPU phase changes nothing but `run`; a stop in the Bus/Memory phase
leaves besides only the request and the waiting CPU that the issue of the fetched instruction set; in both the pc is the
instruction's. A stop in the DMA phase falls after a completed CPU phase that left the CPU idle, and is the absent source byte
of a job, which changes nothing but `run`, or the completion of a job, which destroys it: memory is then as that CPU phase left
it, but for the job's last byte where one was left to copy. -/
def Obligations.StopsArePrecise : Prop :=
  ∀ (s t : State) (r : StopReason), State.Inv s → s.run = .running → step s = .next t → t.run = .stopped r →
    StoppedFrom s t r ∨
    (s.mode = .idle ∧ ∃ w i q p, fetch s = .ok w ∧ decode w = .instr i ∧
      exec i s.beginTick = .next (issued s.beginTick q p) ∧ StoppedFrom (issued s q p) t r) ∨
    ∃ u j, cpuPhase s.beginTick = .next u ∧ u.run = .running ∧ u.mode = .idle ∧ u.bus = emptyBus ∧ u.dma = some j ∧
      ((r = .memoryError (j.src + j.progress) ∧ j.progress.toNat < j.length.toNat ∧
          u.mem.read (j.src + j.progress).toNat = none ∧ t = stoppedWith u r) ∨
        (r = .dmaComplete ∧ s.cfg.dmaCompletionHalts = true ∧ t.dma = none ∧ EngineKept u t ∧
          ((j.progress = j.length ∧ SameMem u t) ∨
            (j.progress + 1#32 = j.length ∧ ∃ b, u.mem.read (j.src + j.progress).toNat = some b ∧
              t.mem.read (j.dst + j.progress).toNat = some b ∧
              ∀ a, a ≠ (j.dst + j.progress).toNat → t.mem.read a = u.mem.read a))))

/-- R33: a cell that holds a byte never becomes absent again by a tick. -/
def Obligations.PresentCellsStayPresent : Prop :=
  ∀ (s t : State) (a : Nat), step s = .next t → (s.mem.read a).isSome → (t.mem.read a).isSome

/-- R34: the histories only grow, and no rule reads them: with other histories the same tick adds the same entries and does
the same to the rest of the state. -/
def Obligations.HistoriesGrowAndAreNotRead : Prop :=
  ∀ s t : State, step s = .next t →
    ∃ eo ep, t.out = s.out ++ eo ∧ t.pevents = s.pevents ++ ep ∧
      ∀ o p, step { s with out := o, pevents := p } = .next { t with out := o ++ eo, pevents := p ++ ep }

/-- R27: the floating-point registers are zero after reset and after program load, no tick writes them, and no tick reads
them. No tick writes the configuration (R37). -/
def Obligations.FloatRegistersAreStorageOnly : Prop :=
  (∀ (s : State) (image : List (Word × Byte)) (start : Word) (i : Nat) (h : i < 32),
    (hostReset s).f[i] = 0#32 ∧ (hostLoad image start s).f[i] = 0#32) ∧
  ∀ s t : State, step s = .next t →
    t.f = s.f ∧ t.cfg = s.cfg ∧ ∀ g, step { s with f := g } = .next { t with f := g }

/-- R154: the class of each stop reason. -/
def Obligations.StopReasonsAreClassed : Prop :=
  ∀ r : StopReason,
    (r.stopClass = .normalEnd ↔ r = .exit ∨ r = .dmaComplete) ∧
    (r.stopClass = .fault ↔ r = .ebreak ∨ (∃ p w, r = .decodeError p w) ∨ ∃ a, r = .memoryError a) ∧
    (r.stopClass = .modelFault ↔ ∃ f, r = .modelFault f)
end

