-- ==== Sys2Proof/Laws/Decode.lean ====
section
/-! SUPPORT. The laws of the encodings: each field and immediate of an encoded word is the one put in, a word is the encoding
of its own fields, every decoded immediate is one its format holds, and what matching a row's mask says about the fields. -/

namespace Sys2Proof

/-! ### Fields of an encoded word -/

@[simp] theorem opcodeOf_encodeR (f7 : BitVec 7) (rs2 rs1 : BitVec 5) (f3 : BitVec 3) (rd : RegIdx) (op : BitVec 7) :
    opcodeOf (encodeR f7 rs2 rs1 f3 rd op) = op := by
  unfold opcodeOf encodeR
  ext i hi
  simp only [BitVec.getElem_extractLsb', BitVec.getLsbD_append]
  interval_cases i <;> simp [BitVec.getLsbD_eq_getElem]

@[simp] theorem rdOf_encodeR (f7 : BitVec 7) (rs2 rs1 : BitVec 5) (f3 : BitVec 3) (rd : RegIdx) (op : BitVec 7) :
    rdOf (encodeR f7 rs2 rs1 f3 rd op) = rd := by
  unfold rdOf encodeR
  ext i hi
  simp only [BitVec.getElem_extractLsb', BitVec.getLsbD_append]
  interval_cases i <;> simp [BitVec.getLsbD_eq_getElem]

@[simp] theorem funct3Of_encodeR (f7 : BitVec 7) (rs2 rs1 : BitVec 5) (f3 : BitVec 3) (rd : RegIdx) (op : BitVec 7) :
    funct3Of (encodeR f7 rs2 rs1 f3 rd op) = f3 := by
  unfold funct3Of encodeR
  ext i hi
  simp only [BitVec.getElem_extractLsb', BitVec.getLsbD_append]
  interval_cases i <;> simp [BitVec.getLsbD_eq_getElem]

@[simp] theorem rs1Of_encodeR (f7 : BitVec 7) (rs2 rs1 : BitVec 5) (f3 : BitVec 3) (rd : RegIdx) (op : BitVec 7) :
    rs1Of (encodeR f7 rs2 rs1 f3 rd op) = rs1 := by
  unfold rs1Of encodeR
  ext i hi
  simp only [BitVec.getElem_extractLsb', BitVec.getLsbD_append]
  interval_cases i <;> simp [BitVec.getLsbD_eq_getElem]

@[simp] theorem rs2Of_encodeR (f7 : BitVec 7) (rs2 rs1 : BitVec 5) (f3 : BitVec 3) (rd : RegIdx) (op : BitVec 7) :
    rs2Of (encodeR f7 rs2 rs1 f3 rd op) = rs2 := by
  unfold rs2Of encodeR
  ext i hi
  simp only [BitVec.getElem_extractLsb', BitVec.getLsbD_append]
  interval_cases i <;> simp [BitVec.getLsbD_eq_getElem]

@[simp] theorem funct7Of_encodeR (f7 : BitVec 7) (rs2 rs1 : BitVec 5) (f3 : BitVec 3) (rd : RegIdx) (op : BitVec 7) :
    funct7Of (encodeR f7 rs2 rs1 f3 rd op) = f7 := by
  unfold funct7Of encodeR
  ext i hi
  simp only [BitVec.getElem_extractLsb', BitVec.getLsbD_append]
  interval_cases i <;> simp [BitVec.getLsbD_eq_getElem]

@[simp] theorem opcodeOf_encodeI (imm : Word) (rs1 : RegIdx) (f3 : BitVec 3) (rd : RegIdx) (op : BitVec 7) :
    opcodeOf (encodeI imm rs1 f3 rd op) = op := by
  unfold opcodeOf encodeI
  ext i hi
  simp only [BitVec.getElem_extractLsb', BitVec.getLsbD_append]
  interval_cases i <;> simp [BitVec.getLsbD_eq_getElem]

@[simp] theorem rdOf_encodeI (imm : Word) (rs1 : RegIdx) (f3 : BitVec 3) (rd : RegIdx) (op : BitVec 7) :
    rdOf (encodeI imm rs1 f3 rd op) = rd := by
  unfold rdOf encodeI
  ext i hi
  simp only [BitVec.getElem_extractLsb', BitVec.getLsbD_append]
  interval_cases i <;> simp [BitVec.getLsbD_eq_getElem]

@[simp] theorem funct3Of_encodeI (imm : Word) (rs1 : RegIdx) (f3 : BitVec 3) (rd : RegIdx) (op : BitVec 7) :
    funct3Of (encodeI imm rs1 f3 rd op) = f3 := by
  unfold funct3Of encodeI
  ext i hi
  simp only [BitVec.getElem_extractLsb', BitVec.getLsbD_append]
  interval_cases i <;> simp [BitVec.getLsbD_eq_getElem]

@[simp] theorem rs1Of_encodeI (imm : Word) (rs1 : RegIdx) (f3 : BitVec 3) (rd : RegIdx) (op : BitVec 7) :
    rs1Of (encodeI imm rs1 f3 rd op) = rs1 := by
  unfold rs1Of encodeI
  ext i hi
  simp only [BitVec.getElem_extractLsb', BitVec.getLsbD_append]
  interval_cases i <;> simp [BitVec.getLsbD_eq_getElem]

@[simp] theorem opcodeOf_encodeS (imm : Word) (rs2 rs1 : RegIdx) (f3 : BitVec 3) (op : BitVec 7) :
    opcodeOf (encodeS imm rs2 rs1 f3 op) = op := by
  unfold opcodeOf encodeS
  ext i hi
  simp only [BitVec.getElem_extractLsb', BitVec.getLsbD_append]
  interval_cases i <;> simp [BitVec.getLsbD_eq_getElem]

@[simp] theorem funct3Of_encodeS (imm : Word) (rs2 rs1 : RegIdx) (f3 : BitVec 3) (op : BitVec 7) :
    funct3Of (encodeS imm rs2 rs1 f3 op) = f3 := by
  unfold funct3Of encodeS
  ext i hi
  simp only [BitVec.getElem_extractLsb', BitVec.getLsbD_append]
  interval_cases i <;> simp [BitVec.getLsbD_eq_getElem]

@[simp] theorem rs1Of_encodeS (imm : Word) (rs2 rs1 : RegIdx) (f3 : BitVec 3) (op : BitVec 7) :
    rs1Of (encodeS imm rs2 rs1 f3 op) = rs1 := by
  unfold rs1Of encodeS
  ext i hi
  simp only [BitVec.getElem_extractLsb', BitVec.getLsbD_append]
  interval_cases i <;> simp [BitVec.getLsbD_eq_getElem]

@[simp] theorem rs2Of_encodeS (imm : Word) (rs2 rs1 : RegIdx) (f3 : BitVec 3) (op : BitVec 7) :
    rs2Of (encodeS imm rs2 rs1 f3 op) = rs2 := by
  unfold rs2Of encodeS
  ext i hi
  simp only [BitVec.getElem_extractLsb', BitVec.getLsbD_append]
  interval_cases i <;> simp [BitVec.getLsbD_eq_getElem]

@[simp] theorem opcodeOf_encodeB (imm : Word) (rs2 rs1 : RegIdx) (f3 : BitVec 3) (op : BitVec 7) :
    opcodeOf (encodeB imm rs2 rs1 f3 op) = op := by
  unfold opcodeOf encodeB
  ext i hi
  simp only [BitVec.getElem_extractLsb', BitVec.getLsbD_append]
  interval_cases i <;> simp [BitVec.getLsbD_eq_getElem]

@[simp] theorem funct3Of_encodeB (imm : Word) (rs2 rs1 : RegIdx) (f3 : BitVec 3) (op : BitVec 7) :
    funct3Of (encodeB imm rs2 rs1 f3 op) = f3 := by
  unfold funct3Of encodeB
  ext i hi
  simp only [BitVec.getElem_extractLsb', BitVec.getLsbD_append]
  interval_cases i <;> simp [BitVec.getLsbD_eq_getElem]

@[simp] theorem rs1Of_encodeB (imm : Word) (rs2 rs1 : RegIdx) (f3 : BitVec 3) (op : BitVec 7) :
    rs1Of (encodeB imm rs2 rs1 f3 op) = rs1 := by
  unfold rs1Of encodeB
  ext i hi
  simp only [BitVec.getElem_extractLsb', BitVec.getLsbD_append]
  interval_cases i <;> simp [BitVec.getLsbD_eq_getElem]

@[simp] theorem rs2Of_encodeB (imm : Word) (rs2 rs1 : RegIdx) (f3 : BitVec 3) (op : BitVec 7) :
    rs2Of (encodeB imm rs2 rs1 f3 op) = rs2 := by
  unfold rs2Of encodeB
  ext i hi
  simp only [BitVec.getElem_extractLsb', BitVec.getLsbD_append]
  interval_cases i <;> simp [BitVec.getLsbD_eq_getElem]

@[simp] theorem opcodeOf_encodeU (imm : Word) (rd : RegIdx) (op : BitVec 7) :
    opcodeOf (encodeU imm rd op) = op := by
  unfold opcodeOf encodeU
  ext i hi
  simp only [BitVec.getElem_extractLsb', BitVec.getLsbD_append]
  interval_cases i <;> simp [BitVec.getLsbD_eq_getElem]

@[simp] theorem rdOf_encodeU (imm : Word) (rd : RegIdx) (op : BitVec 7) :
    rdOf (encodeU imm rd op) = rd := by
  unfold rdOf encodeU
  ext i hi
  simp only [BitVec.getElem_extractLsb', BitVec.getLsbD_append]
  interval_cases i <;> simp [BitVec.getLsbD_eq_getElem]

@[simp] theorem opcodeOf_encodeJ (imm : Word) (rd : RegIdx) (op : BitVec 7) :
    opcodeOf (encodeJ imm rd op) = op := by
  unfold opcodeOf encodeJ
  ext i hi
  simp only [BitVec.getElem_extractLsb', BitVec.getLsbD_append]
  interval_cases i <;> simp [BitVec.getLsbD_eq_getElem]

@[simp] theorem rdOf_encodeJ (imm : Word) (rd : RegIdx) (op : BitVec 7) :
    rdOf (encodeJ imm rd op) = rd := by
  unfold rdOf encodeJ
  ext i hi
  simp only [BitVec.getElem_extractLsb', BitVec.getLsbD_append]
  interval_cases i <;> simp [BitVec.getLsbD_eq_getElem]

/-! ### Immediates of an encoded word -/

theorem immI_encodeI (imm : Word) (rs1 : RegIdx) (f3 : BitVec 3) (rd : RegIdx) (op : BitVec 7) (h : immFitsIS imm) :
    immI (encodeI imm rs1 f3 rd op) = imm := by
  rw [immFitsIS, beq_iff_eq] at h
  have e : ((encodeI imm rs1 f3 rd op).extractLsb' 20 12 : BitVec 12) =
      imm.setWidth 12 := by
    unfold encodeI
    ext i hi
    simp only [BitVec.getElem_extractLsb', BitVec.getLsbD_append]
    interval_cases i <;> simp [BitVec.getLsbD_eq_getElem]
  unfold immI
  rw [e]
  exact h.symm

theorem immS_encodeS (imm : Word) (rs2 rs1 : RegIdx) (f3 : BitVec 3) (op : BitVec 7) (h : immFitsIS imm) :
    immS (encodeS imm rs2 rs1 f3 op) = imm := by
  rw [immFitsIS, beq_iff_eq] at h
  have e : ((encodeS imm rs2 rs1 f3 op).extractLsb' 25 7 ++ (encodeS imm rs2 rs1 f3 op).extractLsb' 7 5 : BitVec 12) =
      imm.setWidth 12 := by
    unfold encodeS
    ext i hi
    simp only [BitVec.getElem_append, BitVec.getElem_extractLsb', BitVec.getLsbD_append]
    interval_cases i <;> simp [BitVec.getLsbD_eq_getElem]
  unfold immS
  rw [e]
  exact h.symm

theorem immB_encodeB (imm : Word) (rs2 rs1 : RegIdx) (f3 : BitVec 3) (op : BitVec 7) (h : immFitsB imm) :
    immB (encodeB imm rs2 rs1 f3 op) = imm := by
  simp only [immFitsB, Bool.and_eq_true, beq_iff_eq, Bool.not_eq_true'] at h
  obtain ⟨h, h0⟩ := h
  have h0' : imm[0] = false := by simpa [BitVec.getLsbD_eq_getElem] using h0
  have e : ((encodeB imm rs2 rs1 f3 op).extractLsb' 31 1 ++ (encodeB imm rs2 rs1 f3 op).extractLsb' 7 1 ++ (encodeB imm rs2 rs1 f3 op).extractLsb' 25 6 ++ (encodeB imm rs2 rs1 f3 op).extractLsb' 8 4 ++ 0#1 : BitVec 13) =
      imm.setWidth 13 := by
    unfold encodeB
    ext i hi
    simp only [BitVec.getElem_append, BitVec.getElem_extractLsb', BitVec.getLsbD_append]
    interval_cases i <;> simp [BitVec.getLsbD_eq_getElem, h0']
  unfold immB
  rw [e]
  exact h.symm

theorem immJ_encodeJ (imm : Word) (rd : RegIdx) (op : BitVec 7) (h : immFitsJ imm) :
    immJ (encodeJ imm rd op) = imm := by
  simp only [immFitsJ, Bool.and_eq_true, beq_iff_eq, Bool.not_eq_true'] at h
  obtain ⟨h, h0⟩ := h
  have h0' : imm[0] = false := by simpa [BitVec.getLsbD_eq_getElem] using h0
  have e : ((encodeJ imm rd op).extractLsb' 31 1 ++ (encodeJ imm rd op).extractLsb' 12 8 ++ (encodeJ imm rd op).extractLsb' 20 1 ++ (encodeJ imm rd op).extractLsb' 21 10 ++ 0#1 : BitVec 21) =
      imm.setWidth 21 := by
    unfold encodeJ
    ext i hi
    simp only [BitVec.getElem_append, BitVec.getElem_extractLsb', BitVec.getLsbD_append]
    interval_cases i <;> simp [BitVec.getLsbD_eq_getElem, h0']
  unfold immJ
  rw [e]
  exact h.symm

theorem immU_encodeU (imm : Word) (rd : RegIdx) (op : BitVec 7) (h : immFitsU imm) : immU (encodeU imm rd op) = imm := by
  rw [immFitsU, beq_iff_eq] at h
  have low (i : Nat) (hi : i < 12) : imm.getLsbD i = false := by
    have := congrArg (fun v => v.getLsbD i) h
    simpa [hi] using this
  unfold immU encodeU
  ext i hi
  simp only [BitVec.getElem_append, BitVec.getElem_extractLsb', BitVec.getLsbD_append]
  by_cases h12 : i < 12
  · have := low i h12
    rw [BitVec.getLsbD_eq_getElem (by omega)] at this
    simp [h12, this]
  · interval_cases i <;> simp [BitVec.getLsbD_eq_getElem] at h12 ⊢

/-! ### A word is the encoding of its fields -/

theorem encodeR_fields (w : Word) : encodeR (funct7Of w) (rs2Of w) (rs1Of w) (funct3Of w) (rdOf w) (opcodeOf w) = w := by
  unfold encodeR funct7Of rs2Of rs1Of funct3Of rdOf opcodeOf
  ext i hi
  simp only [BitVec.getElem_append, BitVec.getElem_extractLsb']
  interval_cases i <;> simp [BitVec.getLsbD_eq_getElem]

theorem encodeI_fields (w : Word) : encodeI (immI w) (rs1Of w) (funct3Of w) (rdOf w) (opcodeOf w) = w := by
  unfold encodeI immI rs1Of funct3Of rdOf opcodeOf
  ext i hi
  simp only [BitVec.getElem_append, BitVec.getElem_extractLsb', BitVec.getLsbD_signExtend,
    BitVec.getLsbD_extractLsb']
  interval_cases i <;> simp [BitVec.getLsbD_eq_getElem]

theorem encodeS_fields (w : Word) : encodeS (immS w) (rs2Of w) (rs1Of w) (funct3Of w) (opcodeOf w) = w := by
  unfold encodeS immS rs2Of rs1Of funct3Of opcodeOf
  ext i hi
  simp only [BitVec.getElem_append, BitVec.getElem_extractLsb', BitVec.getLsbD_append, BitVec.getLsbD_signExtend,
    BitVec.getLsbD_extractLsb']
  interval_cases i <;> simp [BitVec.getLsbD_eq_getElem]

theorem encodeB_fields (w : Word) : encodeB (immB w) (rs2Of w) (rs1Of w) (funct3Of w) (opcodeOf w) = w := by
  unfold encodeB immB rs2Of rs1Of funct3Of opcodeOf
  ext i hi
  simp only [BitVec.getElem_append, BitVec.getElem_extractLsb', BitVec.getLsbD_append, BitVec.getLsbD_signExtend,
    BitVec.getLsbD_extractLsb']
  interval_cases i <;> simp [BitVec.getLsbD_eq_getElem]

theorem encodeU_fields (w : Word) : encodeU (immU w) (rdOf w) (opcodeOf w) = w := by
  unfold encodeU immU rdOf opcodeOf
  ext i hi
  simp only [BitVec.getElem_append, BitVec.getElem_extractLsb', BitVec.getLsbD_append,
    BitVec.getLsbD_extractLsb']
  interval_cases i <;> simp [BitVec.getLsbD_eq_getElem]

theorem encodeJ_fields (w : Word) : encodeJ (immJ w) (rdOf w) (opcodeOf w) = w := by
  unfold encodeJ immJ rdOf opcodeOf
  ext i hi
  simp only [BitVec.getElem_append, BitVec.getElem_extractLsb', BitVec.getLsbD_append, BitVec.getLsbD_signExtend,
    BitVec.getLsbD_extractLsb']
  interval_cases i <;> simp [BitVec.getLsbD_eq_getElem]

/-! ### Every decoded immediate is one its format holds -/

theorem setWidth_signExtend (n : Nat) (h : n ≤ 32) (v : BitVec n) : (v.signExtend 32).setWidth n = v := by
  ext i hi
  have : i < 32 := by omega
  simp [BitVec.getLsbD_eq_getElem, this, BitVec.getElem_signExtend, hi]

theorem immFitsIS_signExtend (v : BitVec 12) : immFitsIS (v.signExtend 32) := by
  rw [immFitsIS, beq_iff_eq, setWidth_signExtend 12 (by omega)]

@[simp] theorem immFitsIS_immI (w : Word) : immFitsIS (immI w) := immFitsIS_signExtend _

@[simp] theorem immFitsIS_immS (w : Word) : immFitsIS (immS w) := immFitsIS_signExtend _

@[simp] theorem immFitsB_immB (w : Word) : immFitsB (immB w) := by
  have h (v : BitVec 12) : immFitsB ((v ++ 0#1 : BitVec 13).signExtend 32) := by
    simp only [immFitsB, Bool.and_eq_true, beq_iff_eq, Bool.not_eq_true', BitVec.getLsbD_signExtend,
      BitVec.getLsbD_append]
    exact ⟨by rw [setWidth_signExtend 13 (by omega)], by simp⟩
  exact h _

@[simp] theorem immFitsJ_immJ (w : Word) : immFitsJ (immJ w) := by
  have h (v : BitVec 20) : immFitsJ ((v ++ 0#1 : BitVec 21).signExtend 32) := by
    simp only [immFitsJ, Bool.and_eq_true, beq_iff_eq, Bool.not_eq_true', BitVec.getLsbD_signExtend,
      BitVec.getLsbD_append]
    exact ⟨by rw [setWidth_signExtend 21 (by omega)], by simp⟩
  exact h _

@[simp] theorem immFitsU_immU (w : Word) : immFitsU (immU w) := by
  rw [immFitsU, beq_iff_eq]
  ext i hi
  have e : immU w = (w.extractLsb' 12 20 ++ 0#12 : BitVec (20 + 12)) := rfl
  rw [BitVec.getElem_setWidth, e, BitVec.getLsbD_append]
  simp [hi]

/-! ### What matching a row says about the fields (R8, R112) -/

/-- A word that matches under the mask of the U and J rows has the pattern's opcode. -/
theorem opcode_of_match {w p : Word} (h : w &&& 0x0000007F#32 = p) : opcodeOf w = opcodeOf p := by
  subst h
  unfold opcodeOf
  ext i hi
  interval_cases i <;> simp [BitVec.getLsbD_eq_getElem]

/-- A word that matches under the mask of the I, S and B rows has the pattern's opcode and funct3. -/
theorem funct3_of_match {w p : Word} (h : w &&& 0x0000707F#32 = p) :
    opcodeOf w = opcodeOf p ∧ funct3Of w = funct3Of p := by
  subst h
  refine ⟨?_, ?_⟩
  · unfold opcodeOf; ext i hi; interval_cases i <;> simp [BitVec.getLsbD_eq_getElem]
  · unfold funct3Of; ext i hi; interval_cases i <;> simp [BitVec.getLsbD_eq_getElem]

/-- A word that matches under the mask of the R and I-shamt rows has the pattern's opcode, funct3 and funct7. -/
theorem funct7_of_match {w p : Word} (h : w &&& 0xFE00707F#32 = p) :
    opcodeOf w = opcodeOf p ∧ funct3Of w = funct3Of p ∧ funct7Of w = funct7Of p := by
  subst h
  refine ⟨?_, ?_, ?_⟩
  · unfold opcodeOf; ext i hi; interval_cases i <;> simp [BitVec.getLsbD_eq_getElem]
  · unfold funct3Of; ext i hi; interval_cases i <;> simp [BitVec.getLsbD_eq_getElem]
  · unfold funct7Of; ext i hi; interval_cases i <;> simp [BitVec.getLsbD_eq_getElem]

/-- A word that matches under the full mask is the pattern (ECALL, EBREAK). -/
theorem eq_of_match {w p : Word} (h : w &&& 0xFFFFFFFF#32 = p) : w = p := by
  rw [← h]; exact (BitVec.and_allOnes (x := w)).symm

/-! ### Bytes and words (R52) -/

/-- Four bytes of a word, put together again, are the word. -/
theorem wordOfBytes_bytesOfWord_four (w : Word) : wordOfBytes (bytesOfWord 4 w) = w := by
  ext i hi
  simp only [bytesOfWord, wordOfBytes, List.range, List.range.loop, List.map]
  interval_cases i <;> simp [BitVec.getLsbD_eq_getElem]

/-- Two bytes of a word, put together again, are its low half zero-extended. -/
theorem wordOfBytes_bytesOfWord_two (w : Word) :
    wordOfBytes (bytesOfWord 2 w) = (w.extractLsb' 0 16).setWidth 32 := by
  ext i hi
  simp only [bytesOfWord, wordOfBytes, List.range, List.range.loop, List.map]
  interval_cases i <;> simp [BitVec.getLsbD_eq_getElem]

/-- One byte of a word is its low byte zero-extended. -/
theorem wordOfBytes_bytesOfWord_one (w : Word) :
    wordOfBytes (bytesOfWord 1 w) = (w.extractLsb' 0 8).setWidth 32 := by
  ext i hi
  simp only [bytesOfWord, wordOfBytes, List.range, List.range.loop, List.map]
  interval_cases i <;> simp [BitVec.getLsbD_eq_getElem]

/-! ### The decoder, by major opcode -/

/-- A word with a row decodes to that row's instruction (R110). -/
theorem decode_of_row {w : Word} {i : Instr} (h : decodeRow w = some i) : decode w = .instr i := by
  simp [decode, h]

/-- Only a row gives an instruction (R110). -/
theorem decodeRow_of_decode {w : Word} {i : Instr} (h : decode w = .instr i) : decodeRow w = some i := by
  unfold decode at h
  split at h
  · next j hj => cases h; exact hj
  · split at h <;> cases h

end Sys2Proof
end

