-- ==== Sys2Proof/Laws/Memory.lean ====
section
/-! SUPPORT. The laws of memory: read after write, the canonical form, and what reads and writes of several bytes do. -/

namespace Sys2Proof.Machine

/-! ### One cell -/

/-- A read after a write: the cell written reads the value, every other cell reads as before (R55). -/
theorem Memory.read_write (m : Memory) (a b : Nat) (v : Byte) :
    (Memory.write m a v).read b = if a = b then some v else Memory.read m b := by
  induction m with
  | nil => simp [Memory.write, Memory.read]
  | cons c m ih =>
    obtain ⟨k, w⟩ := c
    simp only [Memory.write]
    split
    · simp [Memory.read]
    · split
      · next h => subst h; by_cases hb : a = b <;> simp [Memory.read, hb]
      · next h1 h2 =>
        simp only [Memory.read, ih]
        by_cases hk : k = b
        · have : a ≠ b := by omega
          simp [hk, this]
        · simp [hk]

@[simp] theorem Memory.read_write_self (m : Memory) (a : Nat) (v : Byte) : (Memory.write m a v).read a = some v := by
  simp [Memory.read_write]

theorem Memory.read_write_other (m : Memory) {a b : Nat} (v : Byte) (h : a ≠ b) :
    (Memory.write m a v).read b = Memory.read m b := by
  simp [Memory.read_write, h]

/-- The cells of a memory after a write are the one written and old ones. -/
theorem Memory.mem_write {m : Memory} {a : Nat} {v : Byte} {c : Host.Cell} (h : c ∈ Memory.write m a v) :
    c = (a, v) ∨ c ∈ m := by
  induction m with
  | nil => simpa [Memory.write] using h
  | cons d m ih =>
    obtain ⟨k, w⟩ := d
    simp only [Memory.write] at h
    split at h
    · simpa using h
    · split at h
      · next h' => subst h'; simp only [List.mem_cons] at h ⊢; tauto
      · simp only [List.mem_cons] at h ⊢
        rcases h with h | h
        · tauto
        · rcases ih h with h | h <;> tauto

/-- A write keeps the canonical form. -/
theorem Memory.wf_write {m : Memory} (h : Memory.wf m) {a : Nat} (ha : a < 2 ^ 32) (v : Byte) :
    Memory.wf (Memory.write m a v) := by
  refine ⟨?_, ?_⟩
  · obtain ⟨hs, -⟩ := h
    induction m with
    | nil => simp [Memory.write]
    | cons d m ih =>
      obtain ⟨k, w⟩ := d
      simp only [List.map_cons, List.pairwise_cons] at hs
      simp only [Memory.write]
      split
      · next hk =>
        simp only [List.map_cons, List.pairwise_cons, List.mem_cons]
        refine ⟨?_, hs⟩
        rintro x (rfl | hx)
        · exact hk
        · exact lt_trans hk (hs.1 x hx)
      · split
        · next h' => subst h'; simpa only [List.map_cons, List.pairwise_cons] using hs
        · next h1 h2 =>
          simp only [List.map_cons, List.pairwise_cons]
          refine ⟨?_, ih hs.2⟩
          intro x hx
          obtain ⟨c, hc, rfl⟩ := List.mem_map.1 hx
          rcases Memory.mem_write hc with rfl | hc
          · simp only; omega
          · exact hs.1 _ (List.mem_map.2 ⟨c, hc, rfl⟩)
  · intro c hc
    rcases Memory.mem_write hc with rfl | hc
    · exact ha
    · exact h.2 c hc

/-! ### Several cells -/

/-- Writing bytes keeps the canonical form. -/
theorem Memory.wf_writeBytes {m : Memory} (h : Memory.wf m) (a : Word) (bs : List Byte) :
    Memory.wf (Memory.writeBytes m a bs) := by
  induction bs generalizing m a with
  | nil => exact h
  | cons b bs ih => exact ih (Memory.wf_write h a.isLt b) _

/-- `MemWrite` keeps the canonical form. -/
theorem Memory.wf_memWrite {m : Memory} (h : Memory.wf m) (a : Word) (n : Nat) (v : Word) :
    Memory.wf (Memory.memWrite m a n v) :=
  Memory.wf_writeBytes h a _

/-- An image installed over a canonical memory is canonical. -/
theorem wf_installImage {m : Memory} (h : Memory.wf m) (image : List (Word × Byte)) :
    Memory.wf (installImage m image) := by
  induction image generalizing m with
  | nil => exact h
  | cons c rest ih => exact ih (Memory.wf_write h c.1.isLt c.2)

/-- A write of bytes leaves every cell outside them alone (R55). -/
theorem Memory.read_writeBytes_outside (m : Memory) (a : Word) (bs : List Byte) (b : Nat)
    (h : ∀ i < bs.length, b ≠ (a + BitVec.ofNat 32 i).toNat) :
    (Memory.writeBytes m a bs).read b = Memory.read m b := by
  induction bs generalizing m a with
  | nil => rfl
  | cons c bs ih =>
    have h0 : a.toNat ≠ b := by have := h 0 (by simp); simpa using this.symm
    rw [Memory.writeBytes, ih, Memory.read_write_other _ _ h0]
    intro i hi
    have := h (i + 1) (by simpa using hi)
    rwa [show a + 1#32 + BitVec.ofNat 32 i = a + BitVec.ofNat 32 (i + 1) by
      rw [BitVec.add_assoc, ← BitVec.ofNat_add, Nat.add_comm]]

/-- The bytes written are the bytes read, as long as they do not run over themselves (R55). -/
theorem Memory.read_writeBytes_inside (m : Memory) (a : Word) (bs : List Byte) (hl : bs.length ≤ 2 ^ 32)
    (i : Nat) (hi : i < bs.length) :
    (Memory.writeBytes m a bs).read (a + BitVec.ofNat 32 i).toNat = some bs[i] := by
  induction bs generalizing m a i with
  | nil => simp at hi
  | cons c bs ih =>
    simp only [List.length_cons] at hl hi
    rw [Memory.writeBytes]
    cases i with
    | zero =>
      rw [Memory.read_writeBytes_outside]
      · simp
      · intro j hj
        have : a + 1#32 + BitVec.ofNat 32 j = a + BitVec.ofNat 32 (j + 1) := by
          rw [BitVec.add_assoc, ← BitVec.ofNat_add, Nat.add_comm]
        rw [this]
        intro h
        have h' : a + BitVec.ofNat 32 0 = a + BitVec.ofNat 32 (j + 1) := BitVec.eq_of_toNat_eq h
        have h'' := (BitVec.add_right_inj _).1 h'
        have := congrArg BitVec.toNat h''
        simp only [BitVec.toNat_ofNat] at this
        omega
    | succ i =>
      have : a + BitVec.ofNat 32 (i + 1) = a + 1#32 + BitVec.ofNat 32 i := by
        rw [BitVec.add_assoc, ← BitVec.ofNat_add, Nat.add_comm]
      rw [this, ih _ _ (by omega) _ (by omega)]
      simp

@[simp] theorem bytesOfWord_length (n : Nat) (v : Word) : (bytesOfWord n v).length = n := by
  simp [bytesOfWord]

/-- `MemWrite` leaves every cell outside its bytes alone (R55). -/
theorem Memory.read_memWrite_outside (m : Memory) (a : Word) (n : Nat) (v : Word) (b : Nat)
    (h : ∀ i < n, b ≠ (a + BitVec.ofNat 32 i).toNat) :
    (Memory.memWrite m a n v).read b = Memory.read m b :=
  Memory.read_writeBytes_outside m a _ b (by simpa using h)

/-- `MemWrite` puts bits `8i+7` to `8i` of the value into cell `a + i` (R55). -/
theorem Memory.read_memWrite_inside (m : Memory) (a : Word) (n : Nat) (v : Word) (hn : n ≤ 2 ^ 32) (i : Nat)
    (hi : i < n) :
    (Memory.memWrite m a n v).read (a + BitVec.ofNat 32 i).toNat = some (v.extractLsb' (8 * i) 8) := by
  rw [Memory.memWrite, Memory.read_writeBytes_inside m a _ (by simpa using hn) i (by simpa using hi)]
  simp [bytesOfWord]

/-- No write makes a present cell absent (R33). -/
theorem Memory.read_write_isSome {m : Memory} {a b : Nat} {v : Byte} (h : (Memory.read m b).isSome) :
    ((Memory.write m a v).read b).isSome := by
  rw [Memory.read_write]; split <;> simp_all

theorem Memory.read_writeBytes_isSome {m : Memory} {b : Nat} (a : Word) (bs : List Byte)
    (h : (Memory.read m b).isSome) : ((Memory.writeBytes m a bs).read b).isSome := by
  induction bs generalizing m a with
  | nil => exact h
  | cons c bs ih => exact ih _ (Memory.read_write_isSome h)

/-! ### Reading several bytes -/

/-- Reading bytes succeeds with a list exactly when the cells hold it, one after another (R54). -/
theorem Memory.readBytes_eq_ok {m : Memory} {n : Nat} {a : Word} {bs : List Byte} :
    Memory.readBytes m n a = .ok bs ↔
      bs.length = n ∧ ∀ i (h : i < bs.length), m.read (a + BitVec.ofNat 32 i).toNat = some bs[i] := by
  induction n generalizing a bs with
  | zero =>
    constructor
    · intro h; cases h; simp
    · rintro ⟨h, -⟩; rw [List.length_eq_zero_iff.1 h]; rfl
  | succ n ih =>
    have step (i : Nat) : a + BitVec.ofNat 32 (i + 1) = a + 1#32 + BitVec.ofNat 32 i := by
      rw [BitVec.add_assoc, ← BitVec.ofNat_add, Nat.add_comm]
    rw [Memory.readBytes]
    constructor
    · intro h
      split at h
      · cases h
      · next b hb =>
        split at h
        · cases h
        · next bs' hbs =>
          cases h
          obtain ⟨hl, hr⟩ := ih.1 hbs
          refine ⟨by simp [hl], ?_⟩
          rintro (_ | i) hi
          · simpa using hb
          · rw [step]; exact hr i (by simpa using hi)
    · rintro ⟨hl, hr⟩
      cases bs with
      | nil => simp at hl
      | cons b bs =>
        have h0 := hr 0 (by simp)
        have hrest : Memory.readBytes m n (a + 1#32) = .ok bs := ih.2
          ⟨by simpa using hl, fun i hi => by have := hr (i + 1) (by simpa using hi); rwa [step] at this⟩
        simp at h0
        simp [h0, hrest]

/-- Reading bytes fails with an address exactly when it is the first absent one (R54). -/
theorem Memory.readBytes_eq_error {m : Memory} {n : Nat} {a e : Word} :
    Memory.readBytes m n a = .error e ↔
      ∃ k < n, e = a + BitVec.ofNat 32 k ∧ m.read e.toNat = none ∧
        ∀ i < k, (m.read (a + BitVec.ofNat 32 i).toNat).isSome := by
  induction n generalizing a with
  | zero => simp [Memory.readBytes]
  | succ n ih =>
    have step (i : Nat) : a + BitVec.ofNat 32 (i + 1) = a + 1#32 + BitVec.ofNat 32 i := by
      rw [BitVec.add_assoc, ← BitVec.ofNat_add, Nat.add_comm]
    rw [Memory.readBytes]
    cases hb : m.read a.toNat with
    | none =>
      constructor
      · intro h; cases h
        exact ⟨0, by omega, by simp, hb, by simp⟩
      · rintro ⟨k, hk, rfl, hn, hp⟩
        cases k with
        | zero => simp
        | succ k => have := hp 0 (by omega); simp [hb] at this
    | some b =>
      have key : (match Memory.readBytes m n (a + 1#32) with
          | .error e => Except.error e
          | .ok bs => Except.ok (b :: bs)) = Except.error e ↔ Memory.readBytes m n (a + 1#32) = .error e := by
        cases Memory.readBytes m n (a + 1#32) <;> simp
      refine key.trans ?_
      rw [ih]
      constructor
      · rintro ⟨k, hk, rfl, hn, hp⟩
        refine ⟨k + 1, by omega, (step k).symm, hn, ?_⟩
        rintro (_ | i) hi
        · simp [hb]
        · rw [step]; exact hp i (by omega)
      · rintro ⟨k, hk, rfl, hn, hp⟩
        cases k with
        | zero => simp [hb] at hn
        | succ k =>
          refine ⟨k, by omega, step k, hn, fun i hi => ?_⟩
          have := hp (i + 1) (by omega)
          rwa [step] at this

end Sys2Proof.Machine
end

