-- ==== Sys2Proof/Laws/State.lean ====
section
/-! SUPPORT. One lemma per field per update of the state, so that no later proof unfolds a record update. -/

namespace Sys2Proof.Machine

/-! ### setPc -/

@[simp] theorem State.setPc_x (s : State) (t : Word) : (s.setPc t).x = s.x := rfl
@[simp] theorem State.setPc_f (s : State) (t : Word) : (s.setPc t).f = s.f := rfl
@[simp] theorem State.setPc_pc (s : State) (t : Word) : (s.setPc t).pc = t := rfl
@[simp] theorem State.setPc_mode (s : State) (t : Word) : (s.setPc t).mode = s.mode := rfl
@[simp] theorem State.setPc_bus (s : State) (t : Word) : (s.setPc t).bus = s.bus := rfl
@[simp] theorem State.setPc_mem (s : State) (t : Word) : (s.setPc t).mem = s.mem := rfl
@[simp] theorem State.setPc_dma (s : State) (t : Word) : (s.setPc t).dma = s.dma := rfl
@[simp] theorem State.setPc_run (s : State) (t : Word) : (s.setPc t).run = s.run := rfl
@[simp] theorem State.setPc_out (s : State) (t : Word) : (s.setPc t).out = s.out := rfl
@[simp] theorem State.setPc_pevents (s : State) (t : Word) : (s.setPc t).pevents = s.pevents := rfl
@[simp] theorem State.setPc_ticks (s : State) (t : Word) : (s.setPc t).ticks = s.ticks := rfl
@[simp] theorem State.setPc_draws (s : State) (t : Word) : (s.setPc t).draws = s.draws := rfl
@[simp] theorem State.setPc_cfg (s : State) (t : Word) : (s.setPc t).cfg = s.cfg := rfl
@[simp] theorem State.setPc_readX (s : State) (t : Word) (i : RegIdx) : (s.setPc t).readX i = s.readX i := rfl

/-! ### advance -/

@[simp] theorem State.advance_x (s : State) : s.advance.x = s.x := rfl
@[simp] theorem State.advance_f (s : State) : s.advance.f = s.f := rfl
@[simp] theorem State.advance_pc (s : State) : s.advance.pc = s.pc + 4#32 := rfl
@[simp] theorem State.advance_mode (s : State) : s.advance.mode = s.mode := rfl
@[simp] theorem State.advance_bus (s : State) : s.advance.bus = s.bus := rfl
@[simp] theorem State.advance_mem (s : State) : s.advance.mem = s.mem := rfl
@[simp] theorem State.advance_dma (s : State) : s.advance.dma = s.dma := rfl
@[simp] theorem State.advance_run (s : State) : s.advance.run = s.run := rfl
@[simp] theorem State.advance_out (s : State) : s.advance.out = s.out := rfl
@[simp] theorem State.advance_pevents (s : State) : s.advance.pevents = s.pevents := rfl
@[simp] theorem State.advance_ticks (s : State) : s.advance.ticks = s.ticks := rfl
@[simp] theorem State.advance_draws (s : State) : s.advance.draws = s.draws := rfl
@[simp] theorem State.advance_cfg (s : State) : s.advance.cfg = s.cfg := rfl
@[simp] theorem State.advance_readX (s : State) (i : RegIdx) : s.advance.readX i = s.readX i := rfl

/-! ### stop -/

@[simp] theorem State.stop_x (s : State) (r : StopReason) : (s.stop r).x = s.x := rfl
@[simp] theorem State.stop_f (s : State) (r : StopReason) : (s.stop r).f = s.f := rfl
@[simp] theorem State.stop_pc (s : State) (r : StopReason) : (s.stop r).pc = s.pc := rfl
@[simp] theorem State.stop_mode (s : State) (r : StopReason) : (s.stop r).mode = s.mode := rfl
@[simp] theorem State.stop_bus (s : State) (r : StopReason) : (s.stop r).bus = s.bus := rfl
@[simp] theorem State.stop_mem (s : State) (r : StopReason) : (s.stop r).mem = s.mem := rfl
@[simp] theorem State.stop_dma (s : State) (r : StopReason) : (s.stop r).dma = s.dma := rfl
@[simp] theorem State.stop_run (s : State) (r : StopReason) : (s.stop r).run = .stopped r := rfl
@[simp] theorem State.stop_out (s : State) (r : StopReason) : (s.stop r).out = s.out := rfl
@[simp] theorem State.stop_pevents (s : State) (r : StopReason) : (s.stop r).pevents = s.pevents := rfl
@[simp] theorem State.stop_ticks (s : State) (r : StopReason) : (s.stop r).ticks = s.ticks := rfl
@[simp] theorem State.stop_draws (s : State) (r : StopReason) : (s.stop r).draws = s.draws := rfl
@[simp] theorem State.stop_cfg (s : State) (r : StopReason) : (s.stop r).cfg = s.cfg := rfl
@[simp] theorem State.stop_readX (s : State) (r : StopReason) (i : RegIdx) : (s.stop r).readX i = s.readX i := rfl

/-! ### emit -/

@[simp] theorem State.emit_x (s : State) (bs : List Byte) : (s.emit bs).x = s.x := rfl
@[simp] theorem State.emit_f (s : State) (bs : List Byte) : (s.emit bs).f = s.f := rfl
@[simp] theorem State.emit_pc (s : State) (bs : List Byte) : (s.emit bs).pc = s.pc := rfl
@[simp] theorem State.emit_mode (s : State) (bs : List Byte) : (s.emit bs).mode = s.mode := rfl
@[simp] theorem State.emit_bus (s : State) (bs : List Byte) : (s.emit bs).bus = s.bus := rfl
@[simp] theorem State.emit_mem (s : State) (bs : List Byte) : (s.emit bs).mem = s.mem := rfl
@[simp] theorem State.emit_dma (s : State) (bs : List Byte) : (s.emit bs).dma = s.dma := rfl
@[simp] theorem State.emit_run (s : State) (bs : List Byte) : (s.emit bs).run = s.run := rfl
@[simp] theorem State.emit_out (s : State) (bs : List Byte) : (s.emit bs).out = s.out ++ bs := rfl
@[simp] theorem State.emit_pevents (s : State) (bs : List Byte) : (s.emit bs).pevents = s.pevents := rfl
@[simp] theorem State.emit_ticks (s : State) (bs : List Byte) : (s.emit bs).ticks = s.ticks := rfl
@[simp] theorem State.emit_draws (s : State) (bs : List Byte) : (s.emit bs).draws = s.draws := rfl
@[simp] theorem State.emit_cfg (s : State) (bs : List Byte) : (s.emit bs).cfg = s.cfg := rfl
@[simp] theorem State.emit_readX (s : State) (bs : List Byte) (i : RegIdx) : (s.emit bs).readX i = s.readX i := rfl

/-! ### afterDraw -/

@[simp] theorem State.afterDraw_x (s : State) : s.afterDraw.x = s.x := rfl
@[simp] theorem State.afterDraw_f (s : State) : s.afterDraw.f = s.f := rfl
@[simp] theorem State.afterDraw_pc (s : State) : s.afterDraw.pc = s.pc := rfl
@[simp] theorem State.afterDraw_mode (s : State) : s.afterDraw.mode = s.mode := rfl
@[simp] theorem State.afterDraw_bus (s : State) : s.afterDraw.bus = s.bus := rfl
@[simp] theorem State.afterDraw_mem (s : State) : s.afterDraw.mem = s.mem := rfl
@[simp] theorem State.afterDraw_dma (s : State) : s.afterDraw.dma = s.dma := rfl
@[simp] theorem State.afterDraw_run (s : State) : s.afterDraw.run = s.run := rfl
@[simp] theorem State.afterDraw_out (s : State) : s.afterDraw.out = s.out := rfl
@[simp] theorem State.afterDraw_pevents (s : State) : s.afterDraw.pevents = s.pevents := rfl
@[simp] theorem State.afterDraw_ticks (s : State) : s.afterDraw.ticks = s.ticks := rfl
@[simp] theorem State.afterDraw_draws (s : State) : s.afterDraw.draws = s.draws + 1 := rfl
@[simp] theorem State.afterDraw_cfg (s : State) : s.afterDraw.cfg = s.cfg := rfl
@[simp] theorem State.afterDraw_readX (s : State) (i : RegIdx) : s.afterDraw.readX i = s.readX i := rfl

/-! ### record -/

@[simp] theorem State.record_x (s : State) (d : Nat) (k : Direction) (n : AccessSize) (a v : Word) : (s.record d k n a v).x = s.x := rfl
@[simp] theorem State.record_f (s : State) (d : Nat) (k : Direction) (n : AccessSize) (a v : Word) : (s.record d k n a v).f = s.f := rfl
@[simp] theorem State.record_pc (s : State) (d : Nat) (k : Direction) (n : AccessSize) (a v : Word) : (s.record d k n a v).pc = s.pc := rfl
@[simp] theorem State.record_mode (s : State) (d : Nat) (k : Direction) (n : AccessSize) (a v : Word) : (s.record d k n a v).mode = s.mode := rfl
@[simp] theorem State.record_bus (s : State) (d : Nat) (k : Direction) (n : AccessSize) (a v : Word) : (s.record d k n a v).bus = s.bus := rfl
@[simp] theorem State.record_mem (s : State) (d : Nat) (k : Direction) (n : AccessSize) (a v : Word) : (s.record d k n a v).mem = s.mem := rfl
@[simp] theorem State.record_dma (s : State) (d : Nat) (k : Direction) (n : AccessSize) (a v : Word) : (s.record d k n a v).dma = s.dma := rfl
@[simp] theorem State.record_run (s : State) (d : Nat) (k : Direction) (n : AccessSize) (a v : Word) : (s.record d k n a v).run = s.run := rfl
@[simp] theorem State.record_out (s : State) (d : Nat) (k : Direction) (n : AccessSize) (a v : Word) : (s.record d k n a v).out = s.out := rfl
@[simp] theorem State.record_pevents (s : State) (d : Nat) (k : Direction) (n : AccessSize) (a v : Word) : (s.record d k n a v).pevents = s.pevents ++ [⟨s.ticks, d, k, n, a, v⟩] := rfl
@[simp] theorem State.record_ticks (s : State) (d : Nat) (k : Direction) (n : AccessSize) (a v : Word) : (s.record d k n a v).ticks = s.ticks := rfl
@[simp] theorem State.record_draws (s : State) (d : Nat) (k : Direction) (n : AccessSize) (a v : Word) : (s.record d k n a v).draws = s.draws := rfl
@[simp] theorem State.record_cfg (s : State) (d : Nat) (k : Direction) (n : AccessSize) (a v : Word) : (s.record d k n a v).cfg = s.cfg := rfl
@[simp] theorem State.record_readX (s : State) (d : Nat) (k : Direction) (n : AccessSize) (a v : Word) (i : RegIdx) : (s.record d k n a v).readX i = s.readX i := rfl

/-! ### beginTick -/

@[simp] theorem State.beginTick_x (s : State) : s.beginTick.x = s.x := rfl
@[simp] theorem State.beginTick_f (s : State) : s.beginTick.f = s.f := rfl
@[simp] theorem State.beginTick_pc (s : State) : s.beginTick.pc = s.pc := rfl
@[simp] theorem State.beginTick_mode (s : State) : s.beginTick.mode = s.mode := rfl
@[simp] theorem State.beginTick_bus (s : State) : s.beginTick.bus = s.bus := rfl
@[simp] theorem State.beginTick_mem (s : State) : s.beginTick.mem = s.mem := rfl
@[simp] theorem State.beginTick_dma (s : State) : s.beginTick.dma = s.dma := rfl
@[simp] theorem State.beginTick_run (s : State) : s.beginTick.run = s.run := rfl
@[simp] theorem State.beginTick_out (s : State) : s.beginTick.out = s.out := rfl
@[simp] theorem State.beginTick_pevents (s : State) : s.beginTick.pevents = s.pevents := rfl
@[simp] theorem State.beginTick_ticks (s : State) : s.beginTick.ticks = s.ticks + 1 := rfl
@[simp] theorem State.beginTick_draws (s : State) : s.beginTick.draws = s.draws := rfl
@[simp] theorem State.beginTick_cfg (s : State) : s.beginTick.cfg = s.cfg := rfl
@[simp] theorem State.beginTick_readX (s : State) (i : RegIdx) : s.beginTick.readX i = s.readX i := rfl

/-! ### respond -/

@[simp] theorem respond_x (d : Option Word) (s : State) : (respond d s).x = s.x := rfl
@[simp] theorem respond_f (d : Option Word) (s : State) : (respond d s).f = s.f := rfl
@[simp] theorem respond_pc (d : Option Word) (s : State) : (respond d s).pc = s.pc := rfl
@[simp] theorem respond_mode (d : Option Word) (s : State) : (respond d s).mode = s.mode := rfl
@[simp] theorem respond_bus (d : Option Word) (s : State) : (respond d s).bus = { req := none, rsp := some { data := d } } := rfl
@[simp] theorem respond_mem (d : Option Word) (s : State) : (respond d s).mem = s.mem := rfl
@[simp] theorem respond_dma (d : Option Word) (s : State) : (respond d s).dma = s.dma := rfl
@[simp] theorem respond_run (d : Option Word) (s : State) : (respond d s).run = s.run := rfl
@[simp] theorem respond_out (d : Option Word) (s : State) : (respond d s).out = s.out := rfl
@[simp] theorem respond_pevents (d : Option Word) (s : State) : (respond d s).pevents = s.pevents := rfl
@[simp] theorem respond_ticks (d : Option Word) (s : State) : (respond d s).ticks = s.ticks := rfl
@[simp] theorem respond_draws (d : Option Word) (s : State) : (respond d s).draws = s.draws := rfl
@[simp] theorem respond_cfg (d : Option Word) (s : State) : (respond d s).cfg = s.cfg := rfl
@[simp] theorem respond_readX (d : Option Word) (s : State) (i : RegIdx) : (respond d s).readX i = s.readX i := rfl

/-! ### resume -/

@[simp] theorem State.resume_x (s : State) : (s.resume).x = s.x := rfl
@[simp] theorem State.resume_f (s : State) : (s.resume).f = s.f := rfl
@[simp] theorem State.resume_pc (s : State) : (s.resume).pc = s.pc := rfl
@[simp] theorem State.resume_mode (s : State) : (s.resume).mode = .idle := rfl
@[simp] theorem State.resume_bus (s : State) : (s.resume).bus = { req := s.bus.req, rsp := none } := rfl
@[simp] theorem State.resume_mem (s : State) : (s.resume).mem = s.mem := rfl
@[simp] theorem State.resume_dma (s : State) : (s.resume).dma = s.dma := rfl
@[simp] theorem State.resume_run (s : State) : (s.resume).run = s.run := rfl
@[simp] theorem State.resume_out (s : State) : (s.resume).out = s.out := rfl
@[simp] theorem State.resume_pevents (s : State) : (s.resume).pevents = s.pevents := rfl
@[simp] theorem State.resume_ticks (s : State) : (s.resume).ticks = s.ticks := rfl
@[simp] theorem State.resume_draws (s : State) : (s.resume).draws = s.draws := rfl
@[simp] theorem State.resume_cfg (s : State) : (s.resume).cfg = s.cfg := rfl
@[simp] theorem State.resume_readX (s : State) (i : RegIdx) : (s.resume).readX i = s.readX i := rfl

/-! ### await -/

@[simp] theorem State.await_x (s : State) (r : Request) (p : Pending) : (s.await r p).x = s.x := rfl
@[simp] theorem State.await_f (s : State) (r : Request) (p : Pending) : (s.await r p).f = s.f := rfl
@[simp] theorem State.await_pc (s : State) (r : Request) (p : Pending) : (s.await r p).pc = s.pc := rfl
@[simp] theorem State.await_mode (s : State) (r : Request) (p : Pending) : (s.await r p).mode = .awaitingMemory p := rfl
@[simp] theorem State.await_bus (s : State) (r : Request) (p : Pending) : (s.await r p).bus = { req := some r, rsp := none } := rfl
@[simp] theorem State.await_mem (s : State) (r : Request) (p : Pending) : (s.await r p).mem = s.mem := rfl
@[simp] theorem State.await_dma (s : State) (r : Request) (p : Pending) : (s.await r p).dma = s.dma := rfl
@[simp] theorem State.await_run (s : State) (r : Request) (p : Pending) : (s.await r p).run = s.run := rfl
@[simp] theorem State.await_out (s : State) (r : Request) (p : Pending) : (s.await r p).out = s.out := rfl
@[simp] theorem State.await_pevents (s : State) (r : Request) (p : Pending) : (s.await r p).pevents = s.pevents := rfl
@[simp] theorem State.await_ticks (s : State) (r : Request) (p : Pending) : (s.await r p).ticks = s.ticks := rfl
@[simp] theorem State.await_draws (s : State) (r : Request) (p : Pending) : (s.await r p).draws = s.draws := rfl
@[simp] theorem State.await_cfg (s : State) (r : Request) (p : Pending) : (s.await r p).cfg = s.cfg := rfl
@[simp] theorem State.await_readX (s : State) (r : Request) (p : Pending) (i : RegIdx) : (s.await r p).readX i = s.readX i := rfl

/-! ### writeX -/

@[simp] theorem State.writeX_f (s : State) (i : RegIdx) (v : Word) : (s.writeX i v).f = s.f := by
  unfold State.writeX; split <;> rfl
@[simp] theorem State.writeX_pc (s : State) (i : RegIdx) (v : Word) : (s.writeX i v).pc = s.pc := by
  unfold State.writeX; split <;> rfl
@[simp] theorem State.writeX_mode (s : State) (i : RegIdx) (v : Word) : (s.writeX i v).mode = s.mode := by
  unfold State.writeX; split <;> rfl
@[simp] theorem State.writeX_bus (s : State) (i : RegIdx) (v : Word) : (s.writeX i v).bus = s.bus := by
  unfold State.writeX; split <;> rfl
@[simp] theorem State.writeX_mem (s : State) (i : RegIdx) (v : Word) : (s.writeX i v).mem = s.mem := by
  unfold State.writeX; split <;> rfl
@[simp] theorem State.writeX_dma (s : State) (i : RegIdx) (v : Word) : (s.writeX i v).dma = s.dma := by
  unfold State.writeX; split <;> rfl
@[simp] theorem State.writeX_run (s : State) (i : RegIdx) (v : Word) : (s.writeX i v).run = s.run := by
  unfold State.writeX; split <;> rfl
@[simp] theorem State.writeX_out (s : State) (i : RegIdx) (v : Word) : (s.writeX i v).out = s.out := by
  unfold State.writeX; split <;> rfl
@[simp] theorem State.writeX_pevents (s : State) (i : RegIdx) (v : Word) : (s.writeX i v).pevents = s.pevents := by
  unfold State.writeX; split <;> rfl
@[simp] theorem State.writeX_ticks (s : State) (i : RegIdx) (v : Word) : (s.writeX i v).ticks = s.ticks := by
  unfold State.writeX; split <;> rfl
@[simp] theorem State.writeX_draws (s : State) (i : RegIdx) (v : Word) : (s.writeX i v).draws = s.draws := by
  unfold State.writeX; split <;> rfl
@[simp] theorem State.writeX_cfg (s : State) (i : RegIdx) (v : Word) : (s.writeX i v).cfg = s.cfg := by
  unfold State.writeX; split <;> rfl

/-- Register 0 reads 0 in every state (R21). -/
@[simp] theorem State.readX_zero (s : State) : s.readX 0#5 = 0#32 := rfl

/-- The cell of `x0` is never written (R21). -/
@[simp] theorem State.writeX_x_zero (s : State) (i : RegIdx) (v : Word) : (s.writeX i v).x[0] = s.x[0] := by
  unfold State.writeX
  split
  · rfl
  · next h =>
    have : i.toNat ≠ 0 := fun h' => h (BitVec.eq_of_toNat_eq (by simpa using h'))
    simp [this]

/-- A write to register 0 is discarded (R21). -/
@[simp] theorem State.writeX_zero (s : State) (v : Word) : s.writeX 0#5 v = s := rfl

/-- A register read after a register write (R20, R21). -/
theorem State.readX_writeX (s : State) (i j : RegIdx) (v : Word) :
    (s.writeX i v).readX j = if j ≠ 0#5 ∧ j = i then v else s.readX j := by
  by_cases hj : j = 0#5
  · subst hj; simp
  by_cases hi : i = 0#5
  · subst hi; simp [hj]
  have h (a b : RegIdx) : a.toNat = b.toNat ↔ a = b := BitVec.toNat_inj
  simp only [State.readX, State.writeX, hi, hj, if_false, Vector.getElem_set, h, eq_comm (a := i), ne_eq,
    not_false_eq_true, true_and]

/-- Register reads depend on the register file alone. -/
theorem State.readX_congr {s t : State} (h : t.x = s.x) (i : RegIdx) : t.readX i = s.readX i := by
  simp [State.readX, h]

end Sys2Proof.Machine
end

