-- ==== Sys2Proof/Laws/Exec.lean ====
section
/-! SUPPORT. What each shared operation of the CPU can do, and what `exec` can do, said once: the lemmas later proofs cite
instead of unfolding a meaning. -/

namespace Sys2Proof.Machine

/-- The reads of the register file after a completed computation (R147). -/
theorem retire_eq (rd : RegIdx) (v : Word) (s : State) : retire rd v s = .next (s.writeX rd v).advance := rfl

/-- What a branch does (R203). -/
theorem branch_eq (c : Bool) (imm : Word) (s : State) :
    branch c imm s = .next (s.setPc (if c then s.pc + imm else s.pc + 4#32)) := by
  cases c <;> rfl

/-- What an issue does: it stops on a misaligned address, faults on a full slot, and otherwise places the request (R148). -/
theorem issue_cases (r : Request) (p : Pending) (s : State) :
    (isMisaligned s.cfg r.address r.size = true ∧
      issue r p s = .next (s.stop (.modelFault (.misalignedAccess r.address r.size)))) ∨
    (isMisaligned s.cfg r.address r.size = false ∧ (s.bus.req.isSome || s.bus.rsp.isSome) = true ∧
      issue r p s = .fault .busOccupied) ∨
    (isMisaligned s.cfg r.address r.size = false ∧ s.bus = { req := none, rsp := none } ∧
      issue r p s = .next (s.await r p)) := by
  unfold issue
  cases hm : isMisaligned s.cfg r.address r.size
  · cases hb : s.bus.req.isSome || s.bus.rsp.isSome
    · refine .inr (.inr ⟨rfl, ?_, by simp⟩)
      generalize s.bus = bus at hb
      cases bus
      simpa using hb
    · exact .inr (.inl ⟨rfl, rfl, by simp⟩)
  · exact .inl ⟨rfl, by simp [raise]⟩

/-- An issue into an empty Bus at an aligned address (R148). -/
theorem issue_eq {r : Request} {p : Pending} {s : State} (hm : isMisaligned s.cfg r.address r.size = false)
    (hb : s.bus = { req := none, rsp := none }) :
    issue r p s = .next (s.await r p) := by
  simp [issue, hm, hb]

/-- What is kept by an execution that issues nothing: everything but the
registers other than `x0`, the pc, the output, the draws and the run. -/
structure CpuOnly (s t : State) : Prop where
  zero    : t.x[0] = s.x[0]
  f       : t.f = s.f
  mode    : t.mode = s.mode
  bus     : t.bus = s.bus
  mem     : t.mem = s.mem
  dma     : t.dma = s.dma
  pevents : t.pevents = s.pevents
  ticks   : t.ticks = s.ticks
  cfg     : t.cfg = s.cfg
  out     : ∃ l, t.out = s.out ++ l
  run     : t.run = s.run ∨ ∃ r, t = s.stop r

theorem cpuOnly_retire (rd : RegIdx) (v : Word) (s : State) : CpuOnly s (s.writeX rd v).advance :=
  ⟨by simp, by simp, by simp, by simp, by simp, by simp, by simp, by simp, by simp, ⟨[], by simp⟩, .inl (by simp)⟩

theorem cpuOnly_setPc (t : Word) (s : State) : CpuOnly s (s.setPc t) :=
  ⟨rfl, rfl, rfl, rfl, rfl, rfl, rfl, rfl, rfl, ⟨[], by simp⟩, .inl rfl⟩

theorem cpuOnly_jump (rd : RegIdx) (v t : Word) (s : State) : CpuOnly s ((s.writeX rd v).setPc t) :=
  ⟨by simp, by simp, by simp, by simp, by simp, by simp, by simp, by simp, by simp, ⟨[], by simp⟩, .inl (by simp)⟩

theorem cpuOnly_stop (r : StopReason) (s : State) : CpuOnly s (s.stop r) :=
  ⟨rfl, rfl, rfl, rfl, rfl, rfl, rfl, rfl, rfl, ⟨[], by simp⟩, .inr ⟨r, rfl⟩⟩

theorem cpuOnly_emit (bs : List Byte) (s : State) : CpuOnly s (s.emit bs).advance :=
  ⟨rfl, rfl, rfl, rfl, rfl, rfl, rfl, rfl, rfl, ⟨bs, rfl⟩, .inl rfl⟩

theorem cpuOnly_write (bs : List Byte) (s : State) :
    CpuOnly s ((s.emit bs).writeX 10#5 s.drawn).afterDraw.advance :=
  ⟨by simp, by simp, by simp, by simp, by simp, by simp, by simp, by simp, by simp, ⟨bs, by simp⟩, .inl (by simp)⟩

/-- ECALL always has a next state, and it issues nothing (R241). -/
theorem ecall_next (s : State) : ∃ t, execEcall s = .next t ∧ CpuOnly s t := by
  unfold execEcall
  split
  · exact ⟨_, rfl, cpuOnly_emit _ s⟩
  split
  · unfold servicePrintString
    split
    · exact ⟨_, rfl, cpuOnly_stop _ s⟩
    · exact ⟨_, rfl, cpuOnly_emit _ s⟩
  split
  · exact ⟨_, rfl, cpuOnly_stop _ s⟩
  split
  · unfold serviceWrite
    split
    · exact ⟨_, rfl, cpuOnly_stop _ s⟩
    · split
      · exact ⟨_, rfl, cpuOnly_stop _ s⟩
      · exact ⟨_, rfl, cpuOnly_write _ s⟩
  · exact ⟨_, rfl, cpuOnly_stop _ s⟩

/-- An instruction is a load or a store. -/
def isMemory : Instr → Bool
  | .lb _ _ _ | .lh _ _ _ | .lw _ _ _ | .lbu _ _ _ | .lhu _ _ _ | .sb _ _ _ | .sh _ _ _ | .sw _ _ _ => true
  | _ => false

/-- A load or store is one issue, of a request that is the one the CPU waits for. -/
theorem exec_memory {i : Instr} (hi : isMemory i = true) (s : State) :
    ∃ r p, Request.asks r p = true ∧ exec i s = issue r p s := by
  cases i with
  | lb rd rs1 imm => exact ⟨_, _, rfl, rfl⟩
  | lh rd rs1 imm => exact ⟨_, _, rfl, rfl⟩
  | lw rd rs1 imm => exact ⟨_, _, rfl, rfl⟩
  | lbu rd rs1 imm => exact ⟨_, _, rfl, rfl⟩
  | lhu rd rs1 imm => exact ⟨_, _, rfl, rfl⟩
  | sb rs1 rs2 imm => exact ⟨_, _, rfl, rfl⟩
  | sh rs1 rs2 imm => exact ⟨_, _, rfl, rfl⟩
  | sw rs1 rs2 imm => exact ⟨_, _, rfl, rfl⟩
  | _ => cases hi

/-- Every other instruction has a next state and issues nothing (R147). -/
theorem exec_not_memory {i : Instr} (hi : isMemory i = false) (s : State) :
    ∃ t, exec i s = .next t ∧ CpuOnly s t := by
  cases i with
  | lb rd rs1 imm => cases hi
  | lh rd rs1 imm => cases hi
  | lw rd rs1 imm => cases hi
  | lbu rd rs1 imm => cases hi
  | lhu rd rs1 imm => cases hi
  | sb rs1 rs2 imm => cases hi
  | sh rs1 rs2 imm => cases hi
  | sw rs1 rs2 imm => cases hi
  | jal rd imm => exact ⟨_, rfl, cpuOnly_jump _ _ _ s⟩
  | jalr rd rs1 imm => exact ⟨_, rfl, cpuOnly_jump _ _ _ s⟩
  | beq rs1 rs2 imm => exact ⟨_, branch_eq _ _ _, cpuOnly_setPc _ s⟩
  | bne rs1 rs2 imm => exact ⟨_, branch_eq _ _ _, cpuOnly_setPc _ s⟩
  | blt rs1 rs2 imm => exact ⟨_, branch_eq _ _ _, cpuOnly_setPc _ s⟩
  | bge rs1 rs2 imm => exact ⟨_, branch_eq _ _ _, cpuOnly_setPc _ s⟩
  | bltu rs1 rs2 imm => exact ⟨_, branch_eq _ _ _, cpuOnly_setPc _ s⟩
  | bgeu rs1 rs2 imm => exact ⟨_, branch_eq _ _ _, cpuOnly_setPc _ s⟩
  | fence fm pred succ rs1 rd => exact ⟨_, rfl, cpuOnly_setPc _ s⟩
  | ecall => exact ecall_next s
  | ebreak => exact ⟨_, rfl, cpuOnly_stop _ s⟩
  | _ => exact ⟨_, rfl, cpuOnly_retire _ _ s⟩

/-- What `exec` can answer as a next state: an issue into an empty Bus, or a change of the CPU's own state only. -/
theorem exec_next {i : Instr} {s t : State} (h : exec i s = .next t) :
    CpuOnly s t ∨
    ∃ r p, Request.asks r p = true ∧ s.bus = { req := none, rsp := none } ∧
      t = s.await r p := by
  cases hi : isMemory i
  · obtain ⟨u, hu, hc⟩ := exec_not_memory hi s
    rw [h] at hu; cases hu; exact .inl hc
  · obtain ⟨r, p, hm, he⟩ := exec_memory hi s
    rw [he] at h
    rcases issue_cases r p s with ⟨-, h'⟩ | ⟨-, -, h'⟩ | ⟨-, hb, h'⟩
    · rw [h] at h'; cases h'; exact .inl (cpuOnly_stop _ s)
    · rw [h] at h'; cases h'
    · rw [h] at h'; cases h'; exact .inr ⟨r, p, hm, hb, rfl⟩

/-- `exec` refuses nothing: every instruction has its meaning. -/
theorem exec_not_refused (i : Instr) (s : State) (e : Refusal) : exec i s ≠ .refused e := by
  intro h
  cases hi : isMemory i
  · obtain ⟨u, hu, -⟩ := exec_not_memory hi s
    rw [h] at hu; cases hu
  · obtain ⟨r, p, -, he⟩ := exec_memory hi s
    rw [he] at h
    rcases issue_cases r p s with ⟨-, h'⟩ | ⟨-, -, h'⟩ | ⟨-, -, h'⟩ <;> rw [h] at h' <;> cases h'

/-- `exec` faults only by an issue while a Bus slot is full (R61). -/
theorem exec_fault {i : Instr} {s : State} {e : Fault} (h : exec i s = .fault e) :
    e = .busOccupied ∧ s.bus ≠ { req := none, rsp := none } := by
  cases hi : isMemory i
  · obtain ⟨u, hu, -⟩ := exec_not_memory hi s
    rw [h] at hu; cases hu
  · obtain ⟨r, p, -, he⟩ := exec_memory hi s
    rw [he] at h
    rcases issue_cases r p s with ⟨-, h'⟩ | ⟨-, hb, h'⟩ | ⟨-, -, h'⟩
    · rw [h] at h'; cases h'
    · rw [h] at h'; cases h'
      refine ⟨rfl, fun hbus => ?_⟩
      simp [hbus] at hb
    · rw [h] at h'; cases h'

end Sys2Proof.Machine
end

