-- ==== Sys2Proof/Laws/PerInstr.lean ====
section
/-! SUPPORT. Statements about all instructions, one lemma for each constructor. The family RowWord: the word of an
instruction matches its own row of the opcode table (R112, R128). -/

namespace Sys2Proof.Laws

/-! ### What a row's mask keeps of a word -/

theorem and_opcodeMask (w : Word) : w &&& 0x0000007F#32 = (opcodeOf w).setWidth 32 := by
  unfold opcodeOf
  ext i hi
  interval_cases i <;> simp [BitVec.getLsbD_eq_getElem]

theorem and_funct3Mask (w : Word) :
    w &&& 0x0000707F#32 = (funct3Of w).setWidth 32 <<< 12 ||| (opcodeOf w).setWidth 32 := by
  unfold opcodeOf funct3Of
  ext i hi
  interval_cases i <;> simp [BitVec.getLsbD_eq_getElem]

theorem and_funct7Mask (w : Word) :
    w &&& 0xFE00707F#32 =
      (funct7Of w).setWidth 32 <<< 25 ||| (funct3Of w).setWidth 32 <<< 12 ||| (opcodeOf w).setWidth 32 := by
  unfold opcodeOf funct3Of funct7Of
  ext i hi
  interval_cases i <;> simp [BitVec.getLsbD_eq_getElem]

namespace RowWord

/-- The word of the instruction matches the row of the instruction. -/
def Statement (i : Instr) : Prop := encode i &&& i.row.mask = i.row.pattern

theorem lui (rd : RegIdx) (imm : Word) : Statement (.lui rd imm) := by
  simp [Statement, encode, Instr.row, and_opcodeMask]

theorem auipc (rd : RegIdx) (imm : Word) : Statement (.auipc rd imm) := by
  simp [Statement, encode, Instr.row, and_opcodeMask]

theorem jal (rd : RegIdx) (imm : Word) : Statement (.jal rd imm) := by
  simp [Statement, encode, Instr.row, and_opcodeMask]

theorem jalr (rd rs1 : RegIdx) (imm : Word) : Statement (.jalr rd rs1 imm) := by
  simp [Statement, encode, Instr.row, and_funct3Mask]

theorem beq (rs1 rs2 : RegIdx) (imm : Word) : Statement (.beq rs1 rs2 imm) := by
  simp [Statement, encode, Instr.row, and_funct3Mask]

theorem bne (rs1 rs2 : RegIdx) (imm : Word) : Statement (.bne rs1 rs2 imm) := by
  simp [Statement, encode, Instr.row, and_funct3Mask]

theorem blt (rs1 rs2 : RegIdx) (imm : Word) : Statement (.blt rs1 rs2 imm) := by
  simp [Statement, encode, Instr.row, and_funct3Mask]

theorem bge (rs1 rs2 : RegIdx) (imm : Word) : Statement (.bge rs1 rs2 imm) := by
  simp [Statement, encode, Instr.row, and_funct3Mask]

theorem bltu (rs1 rs2 : RegIdx) (imm : Word) : Statement (.bltu rs1 rs2 imm) := by
  simp [Statement, encode, Instr.row, and_funct3Mask]

theorem bgeu (rs1 rs2 : RegIdx) (imm : Word) : Statement (.bgeu rs1 rs2 imm) := by
  simp [Statement, encode, Instr.row, and_funct3Mask]

theorem lb (rd rs1 : RegIdx) (imm : Word) : Statement (.lb rd rs1 imm) := by
  simp [Statement, encode, Instr.row, and_funct3Mask]

theorem lh (rd rs1 : RegIdx) (imm : Word) : Statement (.lh rd rs1 imm) := by
  simp [Statement, encode, Instr.row, and_funct3Mask]

theorem lw (rd rs1 : RegIdx) (imm : Word) : Statement (.lw rd rs1 imm) := by
  simp [Statement, encode, Instr.row, and_funct3Mask]

theorem lbu (rd rs1 : RegIdx) (imm : Word) : Statement (.lbu rd rs1 imm) := by
  simp [Statement, encode, Instr.row, and_funct3Mask]

theorem lhu (rd rs1 : RegIdx) (imm : Word) : Statement (.lhu rd rs1 imm) := by
  simp [Statement, encode, Instr.row, and_funct3Mask]

theorem sb (rs1 rs2 : RegIdx) (imm : Word) : Statement (.sb rs1 rs2 imm) := by
  simp [Statement, encode, Instr.row, and_funct3Mask]

theorem sh (rs1 rs2 : RegIdx) (imm : Word) : Statement (.sh rs1 rs2 imm) := by
  simp [Statement, encode, Instr.row, and_funct3Mask]

theorem sw (rs1 rs2 : RegIdx) (imm : Word) : Statement (.sw rs1 rs2 imm) := by
  simp [Statement, encode, Instr.row, and_funct3Mask]

theorem addi (rd rs1 : RegIdx) (imm : Word) : Statement (.addi rd rs1 imm) := by
  simp [Statement, encode, Instr.row, and_funct3Mask]

theorem slti (rd rs1 : RegIdx) (imm : Word) : Statement (.slti rd rs1 imm) := by
  simp [Statement, encode, Instr.row, and_funct3Mask]

theorem sltiu (rd rs1 : RegIdx) (imm : Word) : Statement (.sltiu rd rs1 imm) := by
  simp [Statement, encode, Instr.row, and_funct3Mask]

theorem xori (rd rs1 : RegIdx) (imm : Word) : Statement (.xori rd rs1 imm) := by
  simp [Statement, encode, Instr.row, and_funct3Mask]

theorem ori (rd rs1 : RegIdx) (imm : Word) : Statement (.ori rd rs1 imm) := by
  simp [Statement, encode, Instr.row, and_funct3Mask]

theorem andi (rd rs1 : RegIdx) (imm : Word) : Statement (.andi rd rs1 imm) := by
  simp [Statement, encode, Instr.row, and_funct3Mask]

theorem slli (rd rs1 : RegIdx) (shamt : BitVec 5) : Statement (.slli rd rs1 shamt) := by
  simp [Statement, encode, Instr.row, and_funct7Mask]

theorem srli (rd rs1 : RegIdx) (shamt : BitVec 5) : Statement (.srli rd rs1 shamt) := by
  simp [Statement, encode, Instr.row, and_funct7Mask]

theorem srai (rd rs1 : RegIdx) (shamt : BitVec 5) : Statement (.srai rd rs1 shamt) := by
  simp [Statement, encode, Instr.row, and_funct7Mask]

theorem add (rd rs1 rs2 : RegIdx) : Statement (.add rd rs1 rs2) := by
  simp [Statement, encode, Instr.row, and_funct7Mask]

theorem sub (rd rs1 rs2 : RegIdx) : Statement (.sub rd rs1 rs2) := by
  simp [Statement, encode, Instr.row, and_funct7Mask]

theorem sll (rd rs1 rs2 : RegIdx) : Statement (.sll rd rs1 rs2) := by
  simp [Statement, encode, Instr.row, and_funct7Mask]

theorem slt (rd rs1 rs2 : RegIdx) : Statement (.slt rd rs1 rs2) := by
  simp [Statement, encode, Instr.row, and_funct7Mask]

theorem sltu (rd rs1 rs2 : RegIdx) : Statement (.sltu rd rs1 rs2) := by
  simp [Statement, encode, Instr.row, and_funct7Mask]

theorem xor (rd rs1 rs2 : RegIdx) : Statement (.xor rd rs1 rs2) := by
  simp [Statement, encode, Instr.row, and_funct7Mask]

theorem srl (rd rs1 rs2 : RegIdx) : Statement (.srl rd rs1 rs2) := by
  simp [Statement, encode, Instr.row, and_funct7Mask]

theorem sra (rd rs1 rs2 : RegIdx) : Statement (.sra rd rs1 rs2) := by
  simp [Statement, encode, Instr.row, and_funct7Mask]

theorem or (rd rs1 rs2 : RegIdx) : Statement (.or rd rs1 rs2) := by
  simp [Statement, encode, Instr.row, and_funct7Mask]

theorem and (rd rs1 rs2 : RegIdx) : Statement (.and rd rs1 rs2) := by
  simp [Statement, encode, Instr.row, and_funct7Mask]

theorem fence (fm pred succ : BitVec 4) (rs1 rd : RegIdx) : Statement (.fence fm pred succ rs1 rd) := by
  unfold Statement encode Instr.row
  ext i hi
  simp only [BitVec.getElem_and, BitVec.getElem_append]
  interval_cases i <;> simp

theorem ecall : Statement .ecall := rfl

theorem ebreak : Statement .ebreak := rfl

theorem mul (rd rs1 rs2 : RegIdx) : Statement (.mul rd rs1 rs2) := by
  simp [Statement, encode, Instr.row, and_funct7Mask]

theorem mulh (rd rs1 rs2 : RegIdx) : Statement (.mulh rd rs1 rs2) := by
  simp [Statement, encode, Instr.row, and_funct7Mask]

theorem mulhsu (rd rs1 rs2 : RegIdx) : Statement (.mulhsu rd rs1 rs2) := by
  simp [Statement, encode, Instr.row, and_funct7Mask]

theorem mulhu (rd rs1 rs2 : RegIdx) : Statement (.mulhu rd rs1 rs2) := by
  simp [Statement, encode, Instr.row, and_funct7Mask]

theorem div (rd rs1 rs2 : RegIdx) : Statement (.div rd rs1 rs2) := by
  simp [Statement, encode, Instr.row, and_funct7Mask]

theorem divu (rd rs1 rs2 : RegIdx) : Statement (.divu rd rs1 rs2) := by
  simp [Statement, encode, Instr.row, and_funct7Mask]

theorem rem (rd rs1 rs2 : RegIdx) : Statement (.rem rd rs1 rs2) := by
  simp [Statement, encode, Instr.row, and_funct7Mask]

theorem remu (rd rs1 rs2 : RegIdx) : Statement (.remu rd rs1 rs2) := by
  simp [Statement, encode, Instr.row, and_funct7Mask]

end RowWord

/-- The word of every instruction matches its row. -/
theorem rowWord (i : Instr) : RowWord.Statement i := by
  cases i with
  | lui a b => exact RowWord.lui a b
  | auipc a b => exact RowWord.auipc a b
  | jal a b => exact RowWord.jal a b
  | jalr a b c => exact RowWord.jalr a b c
  | beq a b c => exact RowWord.beq a b c
  | bne a b c => exact RowWord.bne a b c
  | blt a b c => exact RowWord.blt a b c
  | bge a b c => exact RowWord.bge a b c
  | bltu a b c => exact RowWord.bltu a b c
  | bgeu a b c => exact RowWord.bgeu a b c
  | lb a b c => exact RowWord.lb a b c
  | lh a b c => exact RowWord.lh a b c
  | lw a b c => exact RowWord.lw a b c
  | lbu a b c => exact RowWord.lbu a b c
  | lhu a b c => exact RowWord.lhu a b c
  | sb a b c => exact RowWord.sb a b c
  | sh a b c => exact RowWord.sh a b c
  | sw a b c => exact RowWord.sw a b c
  | addi a b c => exact RowWord.addi a b c
  | slti a b c => exact RowWord.slti a b c
  | sltiu a b c => exact RowWord.sltiu a b c
  | xori a b c => exact RowWord.xori a b c
  | ori a b c => exact RowWord.ori a b c
  | andi a b c => exact RowWord.andi a b c
  | slli a b c => exact RowWord.slli a b c
  | srli a b c => exact RowWord.srli a b c
  | srai a b c => exact RowWord.srai a b c
  | add a b c => exact RowWord.add a b c
  | sub a b c => exact RowWord.sub a b c
  | sll a b c => exact RowWord.sll a b c
  | slt a b c => exact RowWord.slt a b c
  | sltu a b c => exact RowWord.sltu a b c
  | xor a b c => exact RowWord.xor a b c
  | srl a b c => exact RowWord.srl a b c
  | sra a b c => exact RowWord.sra a b c
  | or a b c => exact RowWord.or a b c
  | and a b c => exact RowWord.and a b c
  | fence a b c d e => exact RowWord.fence a b c d e
  | ecall => exact RowWord.ecall
  | ebreak => exact RowWord.ebreak
  | mul a b c => exact RowWord.mul a b c
  | mulh a b c => exact RowWord.mulh a b c
  | mulhsu a b c => exact RowWord.mulhsu a b c
  | mulhu a b c => exact RowWord.mulhu a b c
  | div a b c => exact RowWord.div a b c
  | divu a b c => exact RowWord.divu a b c
  | rem a b c => exact RowWord.rem a b c
  | remu a b c => exact RowWord.remu a b c

end Sys2Proof.Laws
end

