-- ==== Sys2Proof/Laws/Phases.lean ====
section
/-! SUPPORT. What the Bus/Memory phase, the DMA phase, a completion and a tick can do, said once (R62, R80, R150, R141). -/

namespace Sys2Proof.Machine

/-! ### The Bus/Memory phase -/

/-- What the Bus/Memory and DMA phases never touch: the CPU's registers, pc and state machine, the output, the
configuration (R20, R38). -/
structure CpuKept (s t : State) : Prop where
  x     : t.x = s.x
  f     : t.f = s.f
  pc    : t.pc = s.pc
  mode  : t.mode = s.mode
  out   : t.out = s.out
  ticks : t.ticks = s.ticks
  cfg   : t.cfg = s.cfg

theorem CpuKept.refl (s : State) : CpuKept s s := ⟨rfl, rfl, rfl, rfl, rfl, rfl, rfl⟩

theorem CpuKept.trans {s t u : State} (h : CpuKept s t) (k : CpuKept t u) : CpuKept s u :=
  ⟨k.x.trans h.x, k.f.trans h.f, k.pc.trans h.pc, k.mode.trans h.mode, k.out.trans h.out, k.ticks.trans h.ticks,
    k.cfg.trans h.cfg⟩

/-- A completed service (R62): the response answers the request, memory is kept or written once, and the job is kept or, by
a word write, armed afresh. -/
structure Served (r : Request) (s t : State) : Prop where
  kept    : CpuKept s t
  bus     : ∃ d, t.bus = { req := none, rsp := some d } ∧ ∀ p, Request.asks r p = true → Response.answers d p = true
  run     : t.run = s.run
  mem     : t.mem = s.mem ∨ ∃ n a v, r = .write n a v ∧ t.mem = s.mem.memWrite a n.bytes v
  dma     : t.dma = s.dma ∨
    (s.dma = none ∧ ∃ a v src dst length, r = .write .word a v ∧ t.dma = some ⟨src, dst, length, 0#32⟩)
  pevents : ∃ l, t.pevents = s.pevents ++ l

theorem answers_of_read {n : AccessSize} {a v : Word} :
    ∀ p, Request.asks (.read n a) p = true → Response.answers ⟨some v⟩ p = true := by
  intro p; cases p <;> simp [Request.asks, Response.answers]

theorem answers_of_write {n : AccessSize} {a v : Word} :
    ∀ p, Request.asks (.write n a v) p = true → Response.answers ⟨none⟩ p = true := by
  intro p; cases p <;> simp [Request.asks, Response.answers]

/-- What a service does: it stops the run and changes nothing else, or it serves the request (R62). -/
theorem service_cases (r : Request) (s : State) : (∃ e, service r s = s.stop e) ∨ Served r s (service r s) := by
  unfold service
  split
  · cases r with
    | read n a =>
      exact .inr ⟨⟨rfl, rfl, rfl, rfl, rfl, rfl, rfl⟩, ⟨_, rfl, answers_of_read⟩, rfl, .inl rfl, .inl rfl, ⟨_, rfl⟩⟩
    | write n a v =>
      exact .inr ⟨⟨rfl, rfl, rfl, rfl, rfl, rfl, rfl⟩, ⟨_, rfl, answers_of_write⟩, rfl, .inl rfl, .inl rfl, ⟨_, rfl⟩⟩
  · split
    · unfold dmaCtrlRequest
      split
      · split
        · unfold armDma
          split
          · exact .inl ⟨_, rfl⟩
          · next h =>
            exact .inr ⟨⟨rfl, rfl, rfl, rfl, rfl, rfl, rfl⟩, ⟨_, rfl, answers_of_write⟩, rfl, .inl rfl,
              .inr ⟨h, _, _, _, _, _, rfl, rfl⟩, ⟨[], by simp⟩⟩
        · exact .inl ⟨_, rfl⟩
      · exact .inl ⟨_, rfl⟩
    · cases r with
      | read n a =>
        unfold flatAccess
        dsimp only
        split
        · exact .inl ⟨_, rfl⟩
        · exact .inr ⟨⟨rfl, rfl, rfl, rfl, rfl, rfl, rfl⟩, ⟨_, rfl, answers_of_read⟩, rfl, .inl rfl, .inl rfl,
            ⟨[], by simp⟩⟩
      | write n a v =>
        exact .inr ⟨⟨rfl, rfl, rfl, rfl, rfl, rfl, rfl⟩, ⟨_, rfl, answers_of_write⟩, rfl, .inr ⟨n, a, v, rfl, rfl⟩,
          .inl rfl, ⟨[], (List.append_nil _).symm⟩⟩

/-- What the Bus/Memory phase does: nothing, a stop, or the service of the request that stands in the slot. -/
theorem busPhase_cases (s : State) :
    busPhase s = s ∨
    ∃ r, s.run = .running ∧ s.bus = { req := some r, rsp := none } ∧ busPhase s = service r s ∧
      ((∃ e, busPhase s = s.stop e) ∨ Served r s (busPhase s)) := by
  unfold busPhase
  split
  · next hrun =>
    split
    · next r h1 h2 =>
      refine .inr ⟨r, hrun, ?_, rfl, service_cases r s⟩
      generalize s.bus = b at h1 h2
      cases b; simp_all
    · exact .inl rfl
  · exact .inl rfl

/-- A Bus without a request keeps the Bus/Memory phase idle (R62). -/
theorem busPhase_of_no_request {s : State} (h : s.bus.req = none) : busPhase s = s := by
  unfold busPhase; split <;> simp [h]

/-- A machine that does not run keeps the Bus/Memory phase idle (R151). -/
theorem busPhase_of_stopped {s : State} (h : s.run ≠ .running) : busPhase s = s := by
  simp [busPhase, h]

/-- A running machine with a request and no response has the request served (R62). -/
theorem busPhase_of_request {s : State} {r : Request} (h : s.run = .running)
    (hb : s.bus = { req := some r, rsp := none }) : busPhase s = service r s := by
  simp [busPhase, h, hb]

theorem busPhase_cpuKept (s : State) : CpuKept s (busPhase s) := by
  rcases busPhase_cases s with h | ⟨r, -, -, -, ⟨e, h⟩ | h⟩
  · rw [h]; exact .refl s
  · rw [h]; exact ⟨rfl, rfl, rfl, rfl, rfl, rfl, rfl⟩
  · exact h.kept

/-! ### The DMA phase -/

/-- The gate of R80, spelled out. -/
theorem dmaEnabled_iff (s : State) :
    dmaEnabled s = true ↔ s.run = .running ∧ s.mode = .idle ∧ s.bus = { req := none, rsp := none } := by
  unfold dmaEnabled
  generalize s.bus = b
  cases b
  simp [and_assoc]

/-- What completion does (R83). -/
theorem dmaComplete_eq (s : State) :
    dmaComplete s = { s with dma := none, run := if s.cfg.dmaCompletionHalts then .stopped .dmaComplete else s.run } := by
  unfold dmaComplete State.stop
  split <;> rfl

/-- What a job does in an enabled tick (R81 to R84). -/
theorem dmaStep_cases (j : Job) (s : State) :
    (j.progress < j.length ∧ s.mem.read (j.src + j.progress).toNat = none ∧
      dmaStep j s = s.stop (.memoryError (j.src + j.progress))) ∨
    (∃ b, j.progress < j.length ∧ s.mem.read (j.src + j.progress).toNat = some b ∧
      dmaStep j s = dmaFinish { j with progress := j.progress + 1#32 }
        { s with mem := s.mem.write (j.dst + j.progress).toNat b, dma := some { j with progress := j.progress + 1#32 } }) ∨
    (¬ j.progress < j.length ∧ dmaStep j s = dmaFinish j s) := by
  unfold dmaStep
  split
  · next h =>
    split
    · next hn => exact .inl ⟨h, hn, rfl⟩
    · next b hb => exact .inr (.inl ⟨b, h, hb, rfl⟩)
  · next h => exact .inr (.inr ⟨h, rfl⟩)

/-- What the DMA phase does: nothing, or one enabled tick of the job. -/
theorem dmaPhase_cases (s : State) :
    dmaPhase s = s ∨
    ∃ j, dmaEnabled s = true ∧ s.dma = some j ∧ dmaPhase s = dmaStep j s := by
  unfold dmaPhase
  split
  · next he =>
    split
    · next j hj => exact .inr ⟨j, he, hj, rfl⟩
    · exact .inl rfl
  · exact .inl rfl

/-- The one way the end of an enabled tick stops the run (R83). -/
theorem dmaFinish_stops {j : Job} {s : State} {r : StopReason} (hs : s.run = .running)
    (h : (dmaFinish j s).run = .stopped r) :
    j.progress = j.length ∧ r = .dmaComplete ∧ s.cfg.dmaCompletionHalts = true ∧
    dmaFinish j s = { s with dma := none, run := .stopped .dmaComplete } := by
  unfold dmaFinish at *
  split at h
  · next he =>
    rw [dmaComplete_eq] at h
    cases hc : s.cfg.dmaCompletionHalts <;> simp [hc, hs] at h
    refine ⟨he, h.symm, rfl, ?_⟩
    rw [if_pos he, dmaComplete_eq, if_pos hc]
  · rw [hs] at h; cases h

/-- The two ways the DMA phase stops the run: an absent source byte, and the completion of a job, with its last byte copied
where one was left (R82, R83). -/
theorem dmaPhase_stops {s : State} {r : StopReason} (hr : s.run = .running) (h : (dmaPhase s).run = .stopped r) :
    ∃ j, dmaEnabled s = true ∧ s.dma = some j ∧
      ((r = .memoryError (j.src + j.progress) ∧ j.progress < j.length ∧ s.mem.read (j.src + j.progress).toNat = none ∧
          dmaPhase s = s.stop r) ∨
        (r = .dmaComplete ∧ s.cfg.dmaCompletionHalts = true ∧
          ((j.progress = j.length ∧ dmaPhase s = { s with dma := none, run := .stopped .dmaComplete }) ∨
            (j.progress + 1#32 = j.length ∧ ∃ b, s.mem.read (j.src + j.progress).toNat = some b ∧
              dmaPhase s = { s with mem := s.mem.write (j.dst + j.progress).toNat b, dma := none,
                                    run := .stopped .dmaComplete })))) := by
  rcases dmaPhase_cases s with h' | ⟨j, he, hj, h'⟩
  · rw [h', hr] at h; cases h
  refine ⟨j, he, hj, ?_⟩
  rw [h'] at h ⊢
  rcases dmaStep_cases j s with ⟨h1, h2, h3⟩ | ⟨b, -, h2, h3⟩ | ⟨-, h3⟩
  · rw [h3] at h ⊢
    cases h
    exact .inl ⟨rfl, h1, h2, rfl⟩
  · rw [h3] at h ⊢
    obtain ⟨k1, k2, k3, k4⟩ := dmaFinish_stops (by exact hr) h
    exact .inr ⟨k2, k3, .inr ⟨k1, b, h2, k4⟩⟩
  · rw [h3] at h ⊢
    obtain ⟨k1, k2, k3, k4⟩ := dmaFinish_stops hr h
    exact .inr ⟨k2, k3, .inl ⟨k1, k4⟩⟩

/-- A job that stands at the end of an enabled tick still has bytes to copy, where the job before had not copied more than
its length (R83, R84; R35 item 5). -/
theorem dmaPhase_job_left {s : State} {j k : Job} (he : dmaEnabled s = true) (hj : s.dma = some j)
    (hl : j.progress ≤ j.length) (hk : (dmaPhase s).dma = some k) : k.progress < k.length := by
  have left : ∀ {i : Job} {t : State}, i.progress ≤ i.length → t.dma = some i → (dmaFinish i t).dma = some k →
      k.progress < k.length := by
    intro i t hi ht h
    unfold dmaFinish at h
    split at h
    · rw [dmaComplete_eq] at h; cases h
    · next hne => cases ht.symm.trans h; exact BitVec.lt_of_le_ne hi hne
  simp only [dmaPhase, he, if_true, hj] at hk
  rcases dmaStep_cases j s with ⟨h1, -, h3⟩ | ⟨b, h1, -, h3⟩ | ⟨-, h3⟩ <;> rw [h3] at hk
  · cases hj.symm.trans hk; exact h1
  · exact left (by bv_omega) rfl hk
  · exact left hl hj hk

/-- A shut gate keeps the DMA phase idle (R80). -/
theorem dmaPhase_of_not_enabled {s : State} (h : dmaEnabled s = false) : dmaPhase s = s := by
  simp [dmaPhase, h]

/-- What a job's enabled tick keeps (R82): the CPU, the Bus, the histories and the free values. -/
structure EngineOnly (s t : State) : Prop where
  kept    : CpuKept s t
  bus     : t.bus = s.bus
  pevents : t.pevents = s.pevents
  draws   : t.draws = s.draws
  mem     : t.mem = s.mem ∨ ∃ a b, a < 2 ^ 32 ∧ t.mem = s.mem.write a b

theorem EngineOnly.refl (s : State) : EngineOnly s s := ⟨.refl s, rfl, rfl, rfl, .inl rfl⟩

theorem engineOnly_finish (j : Job) {s t : State} (h : EngineOnly s t) : EngineOnly s (dmaFinish j t) := by
  unfold dmaFinish
  split
  · rw [dmaComplete_eq]
    exact ⟨⟨h.kept.x, h.kept.f, h.kept.pc, h.kept.mode, h.kept.out, h.kept.ticks, h.kept.cfg⟩, h.bus, h.pevents,
      h.draws, h.mem⟩
  · exact h

theorem dmaPhase_engineOnly (s : State) : EngineOnly s (dmaPhase s) := by
  rcases dmaPhase_cases s with h | ⟨j, -, -, h⟩
  · rw [h]; exact .refl s
  · rw [h]
    rcases dmaStep_cases j s with ⟨-, -, h⟩ | ⟨b, -, -, h⟩ | ⟨-, h⟩ <;> rw [h]
    · exact ⟨⟨rfl, rfl, rfl, rfl, rfl, rfl, rfl⟩, rfl, rfl, rfl, .inl rfl⟩
    · refine engineOnly_finish _ ⟨⟨rfl, rfl, rfl, rfl, rfl, rfl, rfl⟩, rfl, rfl, rfl, .inr ⟨_, b, ?_, rfl⟩⟩
      exact (j.dst + j.progress).isLt
    · exact engineOnly_finish _ (.refl s)

/-! ### Completion, and the tick -/

/-- What a completion does where the response answers what the CPU waits for (R150). -/
theorem complete_next {p : Pending} {r : Response} (s : State) (h : Response.answers r p = true) :
    ∃ t, complete p r s = .next t.resume ∧
      (t = s.advance ∨ ∃ rd n sg d, p = .load rd n sg ∧ r.data = some d ∧
        t = (s.writeX rd (extended n sg d)).advance) := by
  cases p with
  | store => exact ⟨_, rfl, .inl rfl⟩
  | load rd n sg =>
    cases hd : r.data with
    | none => simp [Response.answers, hd] at h
    | some d =>
      refine ⟨(s.writeX rd (extended n sg d)).advance, ?_, .inr ⟨rd, n, sg, d, rfl, rfl, rfl⟩⟩
      simp [complete, hd]

/-- A tick of a running machine under a legal configuration (R141). -/
theorem step_running {s : State} (h : s.run = .running) (hc : legalConfig s.cfg = true) :
    step s = afterCpu (cpuPhase s.beginTick) := by
  simp [step, tick, h, hc]

/-- A tick of a stopped machine (R142). -/
theorem step_stopped {s : State} (h : s.run ≠ .running) : step s = .next s := by
  simp [step, tick, h]

/-- What a tick with a next state is: no move of a stopped machine, or the three phases (R141). -/
theorem step_next {s t : State} (h : step s = .next t) :
    (s.run ≠ .running ∧ t = s) ∨
    (s.run = .running ∧ legalConfig s.cfg = true ∧
      ∃ u, cpuPhase s.beginTick = .next u ∧ t = dmaPhase (busPhase u)) := by
  by_cases hr : s.run = .running
  · refine .inr ⟨hr, ?_⟩
    cases hc : legalConfig s.cfg
    · simp [step, tick, hr, hc] at h
    · rw [step_running hr hc] at h
      refine ⟨rfl, ?_⟩
      cases hu : cpuPhase s.beginTick with
      | next u => rw [hu] at h; cases h; exact ⟨u, rfl, rfl⟩
      | fault e => rw [hu] at h; cases h
      | refused e => rw [hu] at h; cases h
  · rw [step_stopped hr] at h; cases h; exact .inl ⟨hr, rfl⟩

/-- What the CPU phase does with a next state (R143): a stop, an execution, a stall, or a completion. -/
theorem cpuPhase_next {s t : State} (h : cpuPhase s = .next t) :
    (s.mode = .idle ∧ ∃ e, t = s.stop e) ∨
    (s.mode = .idle ∧ ∃ w i, fetch s = .ok w ∧ decode w = .instr i ∧ exec i s = .next t) ∨
    (∃ p, s.mode = .awaitingMemory p ∧ s.bus.rsp = none ∧ t = s) ∨
    (∃ p r, s.mode = .awaitingMemory p ∧ s.bus.rsp = some r ∧ complete p r s = .next t) := by
  unfold cpuPhase at h
  split at h
  · next hm =>
    split at h
    · next r hf => cases h; exact .inl ⟨hm, r, rfl⟩
    · next w hf =>
      unfold decodeExecute at h
      split at h
      · next i hd => exact .inr (.inl ⟨hm, w, i, hf, hd, h⟩)
      · cases h
      · cases h; exact .inl ⟨hm, _, rfl⟩
  · next p hm =>
    split at h
    · next hr => cases h; exact .inr (.inr (.inl ⟨p, hm, hr, rfl⟩))
    · next r hr => exact .inr (.inr (.inr ⟨p, r, hm, hr, h⟩))

/-- The three phases of a tick on a fetched word: decode, execution, and the two phases after it (R141, R146). -/
theorem step_of_fetch {s : State} {w : Word} (hr : s.run = .running) (hc : legalConfig s.cfg = true)
    (hm : s.mode = .idle) (hf : fetch s.beginTick = .ok w) : step s = afterCpu (decodeExecute w s.beginTick) := by
  rw [step_running hr hc, cpuPhase]
  simp [hm, hf]

/-- Fetch does not look at the tick's number. -/
@[simp] theorem fetch_beginTick (s : State) : fetch s.beginTick = fetch s := rfl

end Sys2Proof.Machine
end

