-- ==== Sys2Proof/Laws/Platform.lean ====
section
/-! SUPPORT. Routing, said once: which device owns an address (R66), which accesses meet the DMA control word (R62, R144), and
what alignment asks (R56). -/

namespace Sys2Proof.Machine

theorem AddrRange.holds_iff (r : AddrRange) (a : Word) :
    AddrRange.holds r a = true ↔ r.base.toNat ≤ a.toNat ∧ a.toNat < r.base.toNat + r.size := by
  simp [AddrRange.holds]

theorem Peripheral.owns_iff (p : Peripheral) (a : Word) :
    Peripheral.owns p a = true ↔ ∃ r ∈ p.ranges, r.base.toNat ≤ a.toNat ∧ a.toNat < r.base.toNat + r.size := by
  simp [Peripheral.owns, AddrRange.holds_iff]

/-- No device owns the address. -/
theorem ownerOf_eq_none (c : Config) (a : Word) :
    ownerOf c a = none ↔ ∀ p ∈ c.peripherals, Peripheral.owns p a = false := by
  simp [ownerOf]

/-- The owner is the first device in the list that owns the address. -/
theorem ownerOf_eq_some (c : Config) (a : Word) (d : Nat) :
    ownerOf c a = some d ↔
      (∃ p, c.peripherals[d]? = some p ∧ Peripheral.owns p a = true) ∧
      ∀ k < d, ∀ p, c.peripherals[k]? = some p → Peripheral.owns p a = false := by
  unfold ownerOf
  rw [List.findIdx?_eq_some_iff_getElem]
  constructor
  · rintro ⟨h, ho, hn⟩
    refine ⟨⟨c.peripherals[d], by simp [h], ho⟩, fun k hk p hp => ?_⟩
    obtain ⟨hk', rfl⟩ := List.getElem?_eq_some_iff.mp hp
    simpa using hn k hk
  · rintro ⟨⟨p, hp, ho⟩, hn⟩
    obtain ⟨h, rfl⟩ := List.getElem?_eq_some_iff.mp hp
    refine ⟨h, ho, fun k hk => ?_⟩
    simp [hn k hk _ (List.getElem?_eq_getElem (by omega))]

/-- An access meets the control word where one of its bytes is one of the word's four. -/
theorem meetsDmaCtrl_iff (c : Config) (a : Word) (n : Nat) :
    meetsDmaCtrl c a n = true ↔
      ∃ d, c.dmaCtrlAddr = some d ∧ ∃ i < n, ∃ j < 4, a + BitVec.ofNat 32 i = d + BitVec.ofNat 32 j := by
  unfold meetsDmaCtrl
  cases c.dmaCtrlAddr with
  | none => simp
  | some d =>
    simp only [List.any_eq_true, List.mem_range, decide_eq_true_eq, Option.some.injEq, exists_eq_left']
    constructor
    · rintro ⟨i, hi, h⟩
      refine ⟨i, hi, (a + BitVec.ofNat 32 i - d).toNat, h, ?_⟩
      rw [BitVec.ofNat_toNat, BitVec.setWidth_eq, BitVec.add_comm d, BitVec.sub_add_cancel]
    · rintro ⟨i, hi, j, hj, h⟩
      refine ⟨i, hi, ?_⟩
      rw [h, BitVec.add_comm d, BitVec.add_sub_cancel, BitVec.toNat_ofNat]
      omega

/-- A misaligned access under `MISALIGNED = Fault` (R56). -/
theorem isMisaligned_iff (c : Config) (a : Word) (n : AccessSize) :
    isMisaligned c a n = true ↔ c.misaligned = .fault ∧ a.toNat % n.bytes ≠ 0 := by
  simp [isMisaligned]

end Sys2Proof.Machine
end

