-- ==== Sys2Proof/Tests/Slice0.lean ====
section
/-! SUPPORT. Tests of the model and witnesses of the statements. Every expected value is the spec's: its worked examples
(files 41 to 45) and its vectors (95_test_vectors.md, entries E and V, named in the comments). Where a test needs a DMA
control word it uses that file's test-only configuration T-CFG, which is no part of the model. -/

namespace Sys2Proof.Tests

open Sys2Proof.Machine Sys2Proof.Claims

/-! ### Helpers -/

/-- Registers written into a state. -/
def withRegs (s : State) : List (RegIdx × Word) → State
  | [] => s
  | (r, v) :: rest => withRegs (s.writeX r v) rest

/-- Bytes written into memory from an address up. -/
def withBytes (s : State) (a : Word) (bs : List Byte) : State := { s with mem := s.mem.writeBytes a bs }

/-- A machine at `pc` about to fetch the word `w`, with these registers. -/
def at_pc (pc w : Word) (regs : List (RegIdx × Word)) : State :=
  withRegs (placeWord (hostLoad [] pc State.reset) w) regs

/-- The same at `TEXT_BASE`. -/
def machine (w : Word) (regs : List (RegIdx × Word)) : State := at_pc Config.textBase w regs

/-- The state after `k` ticks, if every one has a next state. -/
def ticks : Nat → State → Option State
  | 0, s => some s
  | k + 1, s =>
    match step s with
    | .next t => ticks k t
    | .fault _ => none
    | .refused _ => none

/-- Why the next tick is refused, if it is. -/
def refusal (s : State) : Option Refusal :=
  match step s with
  | .next _ => none
  | .fault _ => none
  | .refused e => some e

/-- A register and the pc after `k` ticks. -/
def regPc (k : Nat) (s : State) (r : RegIdx) : Option (Word × Word) := (ticks k s).map fun t => (t.readX r, t.pc)

/-- The run field and the pc after one tick. -/
def runPc (s : State) : Option (Run × Word) := (ticks 1 s).map fun t => (t.run, t.pc)

/-- The output and the pc after one tick. -/
def outPc (s : State) : Option (List Byte × Word) := (ticks 1 s).map fun t => (t.out, t.pc)

/-- Four bytes of memory after `k` ticks. -/
def bytesAt (k : Nat) (s : State) (a : Nat) : Option (List (Option Byte)) :=
  (ticks k s).map fun t => [t.mem.read a, t.mem.read (a + 1), t.mem.read (a + 2), t.mem.read (a + 3)]

/-- The two operands of the register-register vectors, in `x6` and `x7`. -/
def ab (w a b : Word) : State := machine w [(6, a), (7, b)]

/-- The data of V7: `x5 = 0x10010000`, bytes `DD CC BB AA` there. -/
def dataMachine (w x6 : Word) : State :=
  withBytes (machine w [(5, 0x10010000#32), (6, x6)]) 0x10010000#32 [0xDD#8, 0xCC#8, 0xBB#8, 0xAA#8]

/-- T-CFG of 95_test_vectors.md. -/
def tcfg : Config :=
  { defaultConfig with
    dmaCtrlAddr := some 0xFFFF0000#32
    dmaUnpack := .layout ⟨0x10010000#32, 20, 12, 0⟩ ⟨0x10010000#32, 8, 12, 0⟩ ⟨0#32, 0, 8, 0⟩ }

/-- A configuration with one device, at `0xF0000000` to `0xF00000FF`. -/
def pcfg : Config := { defaultConfig with peripherals := [⟨[⟨0xF0000000#32, 256⟩]⟩] }

/-- The same machine under another configuration. -/
def under (c : Config) (s : State) : State := { s with cfg := c }

/-! ### WellFormed: one ill-formed term for each check -/

theorem test_wf_i_too_big : Instr.wf (.addi 1 0 2048#32) = false := by decide          -- E2: 2048 fails
theorem test_wf_i_too_small : Instr.wf (.addi 1 0 (-2049#32)) = false := by decide     -- E2: -2049 fails
theorem test_wf_i_bounds : Instr.wf (.addi 1 0 2047#32) = true ∧ Instr.wf (.addi 1 0 (-2048#32)) = true := by decide
theorem test_wf_s_too_big : Instr.wf (.sw 2 6 2048#32) = false := by decide
theorem test_wf_b_odd : Instr.wf (.beq 0 0 1#32) = false := by decide                  -- E2: offset 1 fails
theorem test_wf_b_too_big : Instr.wf (.beq 1 2 4096#32) = false := by decide           -- R106: up to 4094
theorem test_wf_b_bounds : Instr.wf (.beq 1 2 4094#32) = true ∧ Instr.wf (.beq 1 2 (-4096#32)) = true := by decide
theorem test_wf_u_low_bits : Instr.wf (.lui 5 0x12345001#32) = false := by decide      -- R107: low 12 bits zero
theorem test_wf_j_odd : Instr.wf (.jal 1 3#32) = false := by decide
theorem test_wf_j_too_big : Instr.wf (.jal 1 1048576#32) = false := by decide          -- R108: up to 1048574
theorem test_wf_j_bounds : Instr.wf (.jal 1 1048574#32) = true ∧ Instr.wf (.jal 1 (-1048576#32)) = true := by decide

/-! ### Decode: every constructor, by the spec's word for it; then the boundaries of E1, E2 and E9 -/

theorem test_decode_upper_and_jumps :
    decode 0x123452B7#32 = .instr (.lui 5 0x12345000#32) ∧
    decode 0x00001297#32 = .instr (.auipc 5 0x1000#32) ∧
    decode 0x008000EF#32 = .instr (.jal 1 8#32) ∧
    decode 0x004280E7#32 = .instr (.jalr 1 5 4#32) := by decide

theorem test_decode_branches :
    decode 0x00730463#32 = .instr (.beq 6 7 8#32) ∧
    decode 0xFE029CE3#32 = .instr (.bne 5 0 (-8#32)) ∧
    decode 0x00734463#32 = .instr (.blt 6 7 8#32) ∧
    decode 0x00735463#32 = .instr (.bge 6 7 8#32) ∧
    decode 0x00736463#32 = .instr (.bltu 6 7 8#32) ∧
    decode 0x00737463#32 = .instr (.bgeu 6 7 8#32) := by decide

theorem test_decode_loads_and_stores :
    decode 0x00328303#32 = .instr (.lb 6 5 3#32) ∧
    decode 0x00229303#32 = .instr (.lh 6 5 2#32) ∧
    decode 0x0002A303#32 = .instr (.lw 6 5 0#32) ∧
    decode 0x0032C303#32 = .instr (.lbu 6 5 3#32) ∧
    decode 0x0022D303#32 = .instr (.lhu 6 5 2#32) ∧
    decode 0x006280A3#32 = .instr (.sb 5 6 1#32) ∧
    decode 0x00629123#32 = .instr (.sh 5 6 2#32) ∧
    decode 0x0062A023#32 = .instr (.sw 5 6 0#32) := by decide

theorem test_decode_register_immediate :
    decode 0x00500093#32 = .instr (.addi 1 0 5#32) ∧
    decode 0xFFF32293#32 = .instr (.slti 5 6 (-1#32)) ∧
    decode 0x00133293#32 = .instr (.sltiu 5 6 1#32) ∧
    decode 0xFFF34293#32 = .instr (.xori 5 6 (-1#32)) ∧
    decode 0x0F036293#32 = .instr (.ori 5 6 0xF0#32) ∧
    decode 0x0FF37293#32 = .instr (.andi 5 6 255#32) ∧
    decode 0x00431293#32 = .instr (.slli 5 6 4) ∧
    decode 0x00435293#32 = .instr (.srli 5 6 4) ∧
    decode 0x40435293#32 = .instr (.srai 5 6 4) := by decide

theorem test_decode_register_register :
    decode 0x002081B3#32 = .instr (.add 3 1 2) ∧
    decode 0x407302B3#32 = .instr (.sub 5 6 7) ∧
    decode 0x007312B3#32 = .instr (.sll 5 6 7) ∧
    decode 0x007322B3#32 = .instr (.slt 5 6 7) ∧
    decode 0x007332B3#32 = .instr (.sltu 5 6 7) ∧
    decode 0x007342B3#32 = .instr (.xor 5 6 7) ∧
    decode 0x007352B3#32 = .instr (.srl 5 6 7) ∧
    decode 0x407352B3#32 = .instr (.sra 5 6 7) ∧
    decode 0x007362B3#32 = .instr (.or 5 6 7) ∧
    decode 0x007372B3#32 = .instr (.and 5 6 7) := by decide

theorem test_decode_system :
    decode 0x0FF0000F#32 = .instr (.fence 0 15 15 0 0) ∧
    decode 0x8330000F#32 = .instr (.fence 8 3 3 0 0) ∧
    decode 0x00000073#32 = .instr .ecall ∧
    decode 0x00100073#32 = .instr .ebreak := by decide

theorem test_decode_muldiv :
    decode 0x027302B3#32 = .instr (.mul 5 6 7) ∧
    decode 0x027312B3#32 = .instr (.mulh 5 6 7) ∧
    decode 0x027322B3#32 = .instr (.mulhsu 5 6 7) ∧
    decode 0x027332B3#32 = .instr (.mulhu 5 6 7) ∧
    decode 0x027342B3#32 = .instr (.div 5 6 7) ∧
    decode 0x027352B3#32 = .instr (.divu 5 6 7) ∧
    decode 0x027362B3#32 = .instr (.rem 5 6 7) ∧
    decode 0x027372B3#32 = .instr (.remu 5 6 7) := by decide

theorem test_decode_boundaries :
    decode 0x80000093#32 = .instr (.addi 1 0 (-2048#32)) ∧
    decode 0x7FF00093#32 = .instr (.addi 1 0 2047#32) ∧
    decode 0x8002A303#32 = .instr (.lw 6 5 (-2048#32)) ∧
    decode 0x41F35293#32 = .instr (.srai 5 6 31) ∧
    decode 0xFE612E23#32 = .instr (.sw 2 6 (-4#32)) ∧
    decode 0x7E208FE3#32 = .instr (.beq 1 2 4094#32) ∧
    decode 0x80208063#32 = .instr (.beq 1 2 (-4096#32)) ∧
    decode 0xFFFFF2B7#32 = .instr (.lui 5 0xFFFFF000#32) ∧
    decode 0x7FFFF0EF#32 = .instr (.jal 1 1048574#32) ∧
    decode 0x800000EF#32 = .instr (.jal 1 (-1048576#32)) ∧
    decode 0xFF1FF06F#32 = .instr (.jal 0 (-16#32)) := by decide

-- V9 and V8
theorem test_decode_illegal :
    ([0x00000000, 0xFFFFFFFF, 0x00000001, 0x40001033, 0x04000033, 0x02029293, 0x40001013, 0x00003003, 0x00006003,
      0x00003023, 0x00002063, 0x00001067, 0x0000001B, 0x0000202F, 0x0000000B, 0x00000043, 0x0000100F, 0x30200073,
      0x10500073, 0x30529073, 0x000000F3, 0x00008073] : List Word).all (fun w => decode w == .illegal w) = true := by
  decide

theorem test_decode_refused :
    ([0x0002A007, 0x0002A027, 0x00000053] : List Word).all (fun w => decode w == .refused w) = true := by decide

theorem test_opcode_table_has_48_rows : opcodeTable.length = 48 ∧ (opcodeTable.map (·.mnemonic)).Nodup := by decide

theorem test_table_word : decodeTableWord 32 0x002081B3 = some (.add 3 1 2) ∧ decodeTableWord 32 0 = none := by decide

/-! ### Integer computational instructions (files 41 and 45; V1 to V5) -/

theorem test_lui : regPc 1 (machine 0x123452B7#32 [(5, 7#32)]) 5 = some (0x12345000#32, 0x00400004#32) := by decide
theorem test_auipc : regPc 1 (machine 0x00001297#32 []) 5 = some (0x00401000#32, 0x00400004#32) := by decide
theorem test_auipc_wraps : regPc 1 (machine 0xFFFFF297#32 []) 5 = some (0x003FF000#32, 0x00400004#32) := by decide
theorem test_addi : regPc 1 (machine 0x00500093#32 []) 1 = some (5#32, 0x00400004#32) := by decide
-- E5
theorem test_addi_x0 : regPc 1 (machine 0x00508013#32 [(1, 7#32)]) 0 = some (0#32, 0x00400004#32) := by decide
theorem test_slti : regPc 1 (ab 0xFFF32293#32 0xFFFFFFFE#32 0) 5 = some (1#32, 0x00400004#32) := by decide
theorem test_slti_false : regPc 1 (ab 0xFFF32293#32 0#32 0) 5 = some (0#32, 0x00400004#32) := by decide
theorem test_sltiu : regPc 1 (ab 0x00133293#32 0#32 0) 5 = some (1#32, 0x00400004#32) := by decide
-- R174: sltiu x5, x6, -1 compares against 0xFFFFFFFF
theorem test_sltiu_negative : regPc 1 (ab 0xFFF33293#32 0x80000000#32 0) 5 = some (1#32, 0x00400004#32) := by decide
theorem test_xori : regPc 1 (ab 0xFFF34293#32 0x12345678#32 0) 5 = some (0xEDCBA987#32, 0x00400004#32) := by decide
theorem test_ori : regPc 1 (ab 0x0F036293#32 0x12345608#32 0) 5 = some (0x123456F8#32, 0x00400004#32) := by decide
theorem test_andi : regPc 1 (ab 0x0FF37293#32 0x12345678#32 0) 5 = some (0x00000078#32, 0x00400004#32) := by decide
theorem test_slli : regPc 1 (ab 0x00431293#32 0x12345678#32 0) 5 = some (0x23456780#32, 0x00400004#32) := by decide
theorem test_srli : regPc 1 (ab 0x00435293#32 0x87654321#32 0) 5 = some (0x08765432#32, 0x00400004#32) := by decide
theorem test_srai : regPc 1 (ab 0x40435293#32 0x87654321#32 0) 5 = some (0xF8765432#32, 0x00400004#32) := by decide
theorem test_add : regPc 1 (machine 0x002081B3#32 [(1, 5#32), (2, 10#32)]) 3 = some (15#32, 0x00400004#32) := by decide
theorem test_sub : regPc 1 (ab 0x407302B3#32 5#32 0xFFFFFFFD#32) 5 = some (8#32, 0x00400004#32) := by decide
theorem test_sll : regPc 1 (ab 0x007312B3#32 0x12345678#32 0x9ABCDEF0#32) 5 = some (0x56780000#32, 0x00400004#32) := by
  decide
-- V1 row 9: an amount of 32 shifts by 0
theorem test_sll_by_32 : regPc 1 (ab 0x007312B3#32 0x80000000#32 0x20#32) 5 = some (0x80000000#32, 0x00400004#32) := by
  decide
theorem test_slt : regPc 1 (ab 0x007322B3#32 0xFFFFFFFF#32 1#32) 5 = some (1#32, 0x00400004#32) := by decide
theorem test_sltu : regPc 1 (ab 0x007332B3#32 5#32 0xFFFFFFFD#32) 5 = some (1#32, 0x00400004#32) := by decide
theorem test_sltu_false : regPc 1 (ab 0x007332B3#32 0xFFFFFFFF#32 1#32) 5 = some (0#32, 0x00400004#32) := by decide
theorem test_xor : regPc 1 (ab 0x007342B3#32 0x12345678#32 0x9ABCDEF0#32) 5 = some (0x88888888#32, 0x00400004#32) := by
  decide
theorem test_srl : regPc 1 (ab 0x007352B3#32 0x80000000#32 33#32) 5 = some (0x40000000#32, 0x00400004#32) := by decide
theorem test_sra : regPc 1 (ab 0x407352B3#32 0xF0000000#32 36#32) 5 = some (0xFF000000#32, 0x00400004#32) := by decide
theorem test_or : regPc 1 (ab 0x007362B3#32 0x12345678#32 0x9ABCDEF0#32) 5 = some (0x9ABCDEF8#32, 0x00400004#32) := by
  decide
theorem test_and : regPc 1 (ab 0x007372B3#32 0x12345678#32 0x9ABCDEF0#32) 5 = some (0x12345670#32, 0x00400004#32) := by
  decide
theorem test_mul : regPc 1 (ab 0x027302B3#32 0x12345678#32 0x9ABCDEF0#32) 5 = some (0x242D2080#32, 0x00400004#32) := by
  decide
theorem test_mulh : regPc 1 (ab 0x027312B3#32 0x12345678#32 0x9ABCDEF0#32) 5 = some (0xF8CC93D6#32, 0x00400004#32) := by
  decide
theorem test_mulhsu : regPc 1 (ab 0x027322B3#32 0xFFFFFFF9#32 0xFFFFFFFD#32) 5 = some (0xFFFFFFF9#32, 0x00400004#32) := by
  decide
theorem test_mulhu : regPc 1 (ab 0x027332B3#32 0xFFFFFFFF#32 0xFFFFFFFF#32) 5 = some (0xFFFFFFFE#32, 0x00400004#32) := by
  decide
theorem test_div : regPc 1 (ab 0x027342B3#32 0xFFFFFFF9#32 3#32) 5 = some (0xFFFFFFFE#32, 0x00400004#32) := by decide
-- V5 row 6: the signed overflow
theorem test_div_overflow : regPc 1 (ab 0x027342B3#32 0x80000000#32 0xFFFFFFFF#32) 5 =
    some (0x80000000#32, 0x00400004#32) := by decide
theorem test_divu : regPc 1 (ab 0x027352B3#32 0xFFFFFFF9#32 3#32) 5 = some (0x55555553#32, 0x00400004#32) := by decide
theorem test_divu_by_zero : regPc 1 (ab 0x027352B3#32 5#32 0#32) 5 = some (0xFFFFFFFF#32, 0x00400004#32) := by decide
theorem test_rem : regPc 1 (ab 0x027362B3#32 0xFFFFFFF9#32 3#32) 5 = some (0xFFFFFFFF#32, 0x00400004#32) := by decide
theorem test_rem_by_zero : regPc 1 (ab 0x027362B3#32 0x80000000#32 0#32) 5 = some (0x80000000#32, 0x00400004#32) := by
  decide
theorem test_remu : regPc 1 (ab 0x027372B3#32 7#32 3#32) 5 = some (1#32, 0x00400004#32) := by decide
theorem test_remu_large : regPc 1 (ab 0x027372B3#32 7#32 0xFFFFFFFD#32) 5 = some (7#32, 0x00400004#32) := by decide

/-! ### Control transfer (file 42; V6) -/

theorem test_jal : regPc 1 (machine 0x008000EF#32 []) 1 = some (0x00400004#32, 0x00400008#32) := by decide
theorem test_jal_back : regPc 1 (at_pc 0x00400020#32 0xFF1FF06F#32 []) 0 = some (0#32, 0x00400010#32) := by decide
theorem test_jalr : regPc 1 (at_pc 0x00400010#32 0x004280E7#32 [(5, 0x00400100#32)]) 1 =
    some (0x00400014#32, 0x00400104#32) := by decide
-- the same register as base and link, an odd sum
theorem test_jalr_same_register : regPc 1 (machine 0xFFE282E7#32 [(5, 0x00400103#32)]) 5 =
    some (0x00400004#32, 0x00400100#32) := by decide
theorem test_beq_taken : regPc 1 (ab 0x00730463#32 3#32 3#32) 0 = some (0#32, 0x00400008#32) := by decide
theorem test_beq_not_taken : regPc 1 (ab 0x00730463#32 3#32 4#32) 0 = some (0#32, 0x00400004#32) := by decide
theorem test_bne_taken : regPc 1 (at_pc 0x00400010#32 0xFE029CE3#32 [(5, 2#32)]) 0 = some (0#32, 0x00400008#32) := by
  decide
theorem test_bne_not_taken : regPc 1 (at_pc 0x00400010#32 0xFE029CE3#32 []) 0 = some (0#32, 0x00400014#32) := by decide
theorem test_blt_taken : regPc 1 (ab 0x00734463#32 0xFFFFFFFF#32 1#32) 0 = some (0#32, 0x00400008#32) := by decide
theorem test_bge_not_taken : regPc 1 (ab 0x00735463#32 0xFFFFFFFF#32 1#32) 0 = some (0#32, 0x00400004#32) := by decide
theorem test_bge_equal : regPc 1 (ab 0x00735463#32 0x80000000#32 0x80000000#32) 0 = some (0#32, 0x00400008#32) := by
  decide
theorem test_bltu_not_taken : regPc 1 (ab 0x00736463#32 0xFFFFFFFF#32 1#32) 0 = some (0#32, 0x00400004#32) := by decide
theorem test_bgeu_taken : regPc 1 (ab 0x00737463#32 0xFFFFFFFF#32 1#32) 0 = some (0#32, 0x00400008#32) := by decide

/-! ### Loads and stores (file 43; V7) -/

theorem test_lb : regPc 2 (dataMachine 0x00328303#32 0) 6 = some (0xFFFFFFAA#32, 0x00400004#32) := by decide
theorem test_lh : regPc 2 (dataMachine 0x00229303#32 0) 6 = some (0xFFFFAABB#32, 0x00400004#32) := by decide
theorem test_lw : regPc 2 (dataMachine 0x0002A303#32 0) 6 = some (0xAABBCCDD#32, 0x00400004#32) := by decide
theorem test_lbu : regPc 2 (dataMachine 0x0032C303#32 0) 6 = some (0x000000AA#32, 0x00400004#32) := by decide
theorem test_lhu : regPc 2 (dataMachine 0x0022D303#32 0) 6 = some (0x0000AABB#32, 0x00400004#32) := by decide
-- E6: after the first tick the CPU waits, the register and the pc are as before
theorem test_lw_first_tick : (ticks 1 (dataMachine 0x0002A303#32 7#32)).map (fun t => (t.mode, t.bus, t.readX 6, t.pc)) =
    some (.awaitingMemory (.load 6 .word true), { req := none, rsp := some { data := some 0xAABBCCDD#32 } },
      7#32, 0x00400000#32) := by decide
theorem test_sb : bytesAt 2 (dataMachine 0x006280A3#32 0x123456EE#32) 0x10010000 =
    some [some 0xDD#8, some 0xEE#8, some 0xBB#8, some 0xAA#8] := by decide
theorem test_sh : bytesAt 2 (dataMachine 0x00629123#32 0x1234BEEF#32) 0x10010000 =
    some [some 0xDD#8, some 0xCC#8, some 0xEF#8, some 0xBE#8] := by decide
theorem test_sw : bytesAt 1 (dataMachine 0x0062A023#32 0x11223344#32) 0x10010000 =
    some [some 0x44#8, some 0x33#8, some 0x22#8, some 0x11#8] := by decide
-- V7's faults
theorem test_lw_misaligned : runPc (machine 0x0012A303#32 [(5, 0x10010000#32)]) =
    some (.stopped (.modelFault (.misalignedAccess 0x10010001#32 .word)), 0x00400000#32) := by decide
theorem test_lw_absent : runPc (withBytes (machine 0x0002A303#32 [(5, 0x10010000#32)]) 0x10010000#32 [0#8, 0#8, 0#8]) =
    some (.stopped (.memoryError 0x10010003#32), 0x00400000#32) := by decide

/-! ### FENCE, ECALL, EBREAK (file 44; V8) -/

theorem test_fence : runPc (machine 0x0FF0000F#32 []) = some (.running, 0x00400004#32) := by decide
theorem test_fence_i_is_illegal : runPc (machine 0x0000100F#32 []) =
    some (.stopped (.decodeError 0x00400000#32 0x0000100F#32), 0x00400000#32) := by decide
theorem test_print_int : outPc (machine 0x00000073#32 [(17, 1#32), (10, 0xFFFFFFD6#32)]) =
    some ([0x2D#8, 0x34#8, 0x32#8], 0x00400004#32) := by decide
-- "-2147483648"
theorem test_print_int_lowest : outPc (machine 0x00000073#32 [(17, 1#32), (10, 0x80000000#32)]) =
    some ([0x2D#8, 0x32#8, 0x31#8, 0x34#8, 0x37#8, 0x34#8, 0x38#8, 0x33#8, 0x36#8, 0x34#8, 0x38#8], 0x00400004#32) := by
  decide
theorem test_print_string : outPc (withBytes (machine 0x00000073#32 [(17, 4#32), (10, 0x10010000#32)]) 0x10010000#32
    [0x48#8, 0x69#8, 0#8]) = some ([0x48#8, 0x69#8], 0x00400004#32) := by decide
theorem test_print_string_absent : runPc (withBytes (machine 0x00000073#32 [(17, 4#32), (10, 0x10010000#32)])
    0x10010000#32 [0x41#8, 0x42#8]) = some (.stopped (.memoryError 0x10010002#32), 0x00400000#32) := by decide
theorem test_write : outPc (withBytes (machine 0x00000073#32
    [(17, 64#32), (10, 1#32), (11, 0x10010000#32), (12, 2#32)]) 0x10010000#32 [0x48#8, 0x69#8, 0#8]) =
    some ([0x48#8, 0x69#8], 0x00400004#32) := by decide
theorem test_write_other_fd : runPc (machine 0x00000073#32 [(17, 64#32), (10, 2#32)]) =
    some (.stopped (.modelFault (.unsupportedFd 2#32)), 0x00400000#32) := by decide
theorem test_exit : runPc (at_pc 0x00400020#32 0x00000073#32 [(17, 10#32)]) = some (.stopped .exit, 0x00400020#32) := by
  decide
theorem test_unknown_service : runPc (machine 0x00000073#32 [(17, 99#32)]) =
    some (.stopped (.modelFault (.unknownService 99#32)), 0x00400000#32) := by decide
theorem test_ebreak : runPc (at_pc 0x00400008#32 0x00100073#32 []) = some (.stopped .ebreak, 0x00400008#32) := by decide

/-! ### The tick, the DMA engine, the peripherals (V10, E7) -/

-- R300: the first tick after reset
theorem test_reset_tick : runPc State.reset = some (.stopped (.memoryError 0#32), 0#32) := by decide
theorem test_misaligned_fetch : runPc (at_pc 0x00000102#32 0x00000013#32 []) =
    some (.stopped (.modelFault (.misalignedFetch 0x00000102#32)), 0x00000102#32) := by decide
theorem test_floating_point_refused : refusal (machine 0x0002A007#32 []) = some (.floatingPoint 0x0002A007#32) := by
  decide
-- R72 under T-CFG: src 0x10010000, dst 0x10010100, length 4; mem at the control word stays absent
theorem test_dma_armed : (ticks 1 (under tcfg (machine 0x0062A023#32 [(5, 0xFFFF0000#32), (6, 0x00010004#32)]))).map
    (fun t => (t.dma, t.mem.read 0xFFFF0000)) =
    some (some ⟨0x10010000#32, 0x10010100#32, 4#32, 0#32⟩, none) := by decide
-- R81: one byte of a job
theorem test_dma_step : (dmaPhase { dataMachine 0x00000013#32 0 with
      dma := some ⟨0x10010000#32, 0x10010100#32, 4#32, 1#32⟩ }).mem.read 0x10010101 = some 0xCC#8 := by decide
-- R68: a store to a device
theorem test_peripheral_write : (ticks 1 (under pcfg (machine 0x006280A3#32 [(5, 0xF0000000#32), (6, 0x123456EE#32)]))).map
    (fun t => (t.pevents, t.mem.read 0xF0000001)) =
    some ([⟨1, 0, .write, .byte, 0xF0000001#32, 0xEE#32⟩], none) := by decide

/-! ### Witnesses: states and operands that meet the hypotheses of each statement -/

theorem next_with {s : State} (p : State → Bool) (h : (ticks 1 s).any p = true) : ∃ t, step s = .next t ∧ p t = true := by
  cases hs : step s with
  | next t => exact ⟨t, rfl, by simpa [ticks, hs] using h⟩
  | fault e => simp [ticks, hs] at h
  | refused e => simp [ticks, hs] at h

theorem not_owned_default (a : Word) : ¬ Owned defaultConfig a := by
  rintro ⟨d, p, h, -⟩; simp [defaultConfig] at h

theorem not_meets_default (a : Word) (n : Nat) : ¬ MeetsControl defaultConfig a n := by
  rintro ⟨D, h, -⟩; simp [defaultConfig, defaultDmaCtrlAddr] at h

theorem plain_default (a : Word) (n : Nat) : Plain defaultConfig a n := ⟨not_owned_default a, not_meets_default a n⟩

/-- A machine as R35 has it between instructions. -/
theorem inv_of {s : State} (h0 : s.x[0] = 0#32) (hm : s.mode = .idle) (hb : s.bus = emptyBus) (hd : s.dma = none)
    (hw : Memory.wf s.mem) : State.Inv s :=
  ⟨h0, by simp [hb, emptyBus], fun _ => hb, fun p hp => by simp [hm] at hp, fun p hp => by simp [hm] at hp,
    fun j hj => by simp [hd] at hj, hw⟩

theorem ready_addi : Ready (machine 0x00500093#32 []) 0x00500093#32 := ⟨by decide, by decide, by decide, by decide, by decide⟩

theorem inv_addi : State.Inv (machine 0x00500093#32 []) := inv_of (by decide) (by decide) (by decide) (by decide) (by decide)

/-- A load waiting for its byte at `0x10010003`, and the store of V7 under T-CFG's control word. -/
def waiting : State :=
  { dataMachine 0x00328303#32 0 with
    mode := .awaitingMemory (.load 6 .byte true), bus := { req := none, rsp := some { data := some 0xAA#32 } } }

/-- A job of four bytes, from the data of V7 to `0x10010100`. -/
def withJob (progress : Word) : State :=
  { dataMachine 0x00000013#32 0 with dma := some ⟨0x10010000#32, 0x10010100#32, 4#32, progress⟩ }

/-- A machine with a request in its slot. -/
def requesting (c : Config) (r : Request) : State :=
  { under c (machine 0x00000013#32 []) with bus := { req := some r, rsp := none }, mode := .awaitingMemory .store }

theorem witness_ResetAndLoadGiveZeroState :
    let image : List (Word × Byte) := [(0#32, 1#8), (0xFFFFFFFF#32, 2#8)]
    (image.map Prod.fst).Nodup ∧ (0xFFFFFFFF#32, 2#8) ∈ image ∧ ∀ c ∈ image, c.1.toNat ≠ 1 :=
  ⟨by decide, by decide, by simp⟩

theorem witness_FirstTickAfterResetFindsNoMemory :
    legalConfig State.reset.cfg = true ∧ ¬ Owned State.reset.cfg 0#32 ∧ ¬ MeetsControl State.reset.cfg 0#32 4 :=
  ⟨by decide, not_owned_default _, not_meets_default _ _⟩

/-- A machine whose store has just armed an empty job: the one state in which R35 item 5 has such a job. -/
def emptyArmed : State :=
  { dataMachine 0x00000013#32 0 with
    mode := .awaitingMemory .store, bus := { req := none, rsp := some { data := none } }
    dma := some ⟨0#32, 0#32, 0#32, 0#32⟩ }

theorem inv_emptyArmed : State.Inv emptyArmed :=
  ⟨by decide, by decide, by decide, by rintro p ⟨⟩ -; exact ⟨rfl, _, rfl, rfl⟩, fun p _ h => absurd (by decide) h,
    by rintro j ⟨⟩; exact .inr ⟨rfl, rfl, by decide, rfl⟩, by decide⟩

-- R35 item 5: once idle, a machine has no empty job
theorem inv_rejects_idle_empty_job :
    ¬ State.Inv { dataMachine 0x00000013#32 0 with dma := some ⟨0#32, 0#32, 0#32, 0#32⟩ } := fun h => by
  have := h.job _ rfl
  revert this
  decide

-- an instruction, and the tick that destroys an empty job
theorem witness_EveryStepKeepsInvariant :
    (∃ s t, State.Inv s ∧ step s = .next t) ∧
    ∃ s t, State.Inv s ∧ s.dma = some ⟨0#32, 0#32, 0#32, 0#32⟩ ∧ step s = .next t ∧ t.dma = none := by
  constructor
  · obtain ⟨t, h, -⟩ := next_with (s := machine 0x00500093#32 []) (fun _ => true) (by decide)
    exact ⟨_, t, inv_addi, h⟩
  · obtain ⟨t, h, ht⟩ := next_with (s := emptyArmed) (fun t => t.dma == none) (by decide)
    exact ⟨_, t, inv_emptyArmed, rfl, h, by simpa using ht⟩

theorem witness_StepFromInvariantNeverFaults : ∃ s, State.Inv s ∧ legalConfig s.cfg = true :=
  ⟨_, inv_addi, by decide⟩

theorem witness_DecodeOfEncode : Instr.wf (.beq 1 2 (-4096#32)) = true := by decide

theorem witness_EncodeOfDecode : decode 0x80208063#32 = .instr (.beq 1 2 (-4096#32)) := by decide

theorem witness_DecodeFollowsTable :
    (∃ r ∈ opcodeTable, 0x002081B3#32 &&& r.mask = r.pattern) ∧
    (∀ r ∈ opcodeTable, 0x0002A007#32 &&& r.mask ≠ r.pattern) ∧ ∀ r ∈ opcodeTable, 0x00000000#32 &&& r.mask ≠ r.pattern := by
  decide

theorem witness_IllegalWordsRaiseDecodeError :
    (Ready (machine 0x0000100F#32 []) 0x0000100F#32 ∧ decode 0x0000100F#32 = .illegal 0x0000100F#32) ∧
    ∃ s t p w, s.run = .running ∧ step s = .next t ∧ t.run = .stopped (.decodeError p w) := by
  refine ⟨⟨⟨by decide, by decide, by decide, by decide, by decide⟩, by decide⟩, ?_⟩
  obtain ⟨t, h, ht⟩ := next_with (s := machine 0x0000100F#32 [])
    (fun t => t.run == .stopped (.decodeError 0x00400000#32 0x0000100F#32)) (by decide)
  exact ⟨_, t, _, _, by decide, h, by simpa using ht⟩

theorem witness_FloatingPointWordsAreRefused :
    (0x0002A007#32).extractLsb' 0 7 ∈ refusedOpcodes ∧ Ready (machine 0x0002A007#32 []) 0x0002A007#32 ∧
    (0x00000043#32).extractLsb' 0 7 ∈ [0b1000011#7, 0b1000111#7, 0b1001011#7, 0b1001111#7] :=
  ⟨by decide, ⟨by decide, by decide, by decide, by decide, by decide⟩, by decide⟩

theorem witness_StepRunsDecodedInstruction :
    let s := machine 0x00500093#32 []
    s.run = .running ∧ legalConfig s.cfg = true ∧ s.mode = .idle ∧ fetchFault s = none ∧
    s.mem.readBytes 4 s.pc = .ok [0x93#8, 0x00#8, 0x50#8, 0x00#8] ∧
    decodeBytes [0x93#8, 0x00#8, 0x50#8, 0x00#8] = .ok (.addi 1 0 5#32, []) :=
  ⟨by decide, by decide, by decide, by decide, by rfl, by rfl⟩

theorem witness_StoppedMachineDoesNotMove : (State.reset.stop .exit).run = .stopped .exit := rfl

-- each clause at a boundary: pc 2 past a word, the device's first address, the control word's first, the last byte absent
theorem witness_FetchChecksInOrder :
    Misaligns defaultConfig 0x00000102#32 4 ∧
    (¬ Misaligns pcfg 0xF0000000#32 4 ∧ Owned pcfg 0xF0000000#32) ∧
    (¬ Misaligns tcfg 0xFFFF0000#32 4 ∧ ¬ Owned tcfg 0xFFFF0000#32 ∧ MeetsControl tcfg 0xFFFF0000#32 4) ∧
    (¬ Misaligns defaultConfig 0#32 4 ∧ Plain defaultConfig 0#32 4 ∧
      FirstAbsent [(0, 1#8), (1, 1#8), (2, 1#8)] 0#32 4 3#32) := by
  refine ⟨by unfold Misaligns; decide, ⟨by unfold Misaligns; decide, 0, _, rfl, _, List.mem_singleton.mpr rfl, by decide⟩,
    ⟨by unfold Misaligns; decide, ?_, _, rfl, 0, by decide, 0, by decide, rfl⟩, by unfold Misaligns; decide,
    plain_default _ _, 3, by decide, by decide, by decide, by decide⟩
  rintro ⟨d, p, h, -⟩; simp [tcfg, defaultConfig] at h

theorem witness_OtherInstructionsTakeOneTick :
    ¬ LoadOrStore (.addi 1 0 5#32) ∧ Ready (machine 0x00500093#32 []) 0x00500093#32 ∧
    decode 0x00500093#32 = .instr (.addi 1 0 5#32) :=
  ⟨by simp [LoadOrStore], ready_addi, by decide⟩

theorem witness_CompletionOfTransaction :
    (waiting.run = .running ∧ legalConfig waiting.cfg = true ∧ waiting.mode = .awaitingMemory (.load 6 .byte true)) ∧
    waiting.bus = { req := none, rsp := some { data := some 0xAA#32 } } ∧
    (∃ s : State, s.mode = .awaitingMemory .store ∧ s.bus.rsp = none) ∧
    ∃ s : State, s.run = .running ∧ legalConfig s.cfg = true ∧ s.mode = .awaitingMemory .store ∧
      s.bus = { req := none, rsp := some { data := none } } :=
  ⟨by decide, by decide, ⟨{ waiting with mode := .awaitingMemory .store, bus := emptyBus }, by decide⟩,
    ⟨{ waiting with mode := .awaitingMemory .store, bus := { req := none, rsp := some { data := none } } }, by decide⟩⟩

theorem witness_UpperImmediateResults :
    0x123452B7#32 &&& 0x0000007F#32 = 0x00000037#32 ∧ 0x00001297#32 &&& 0x0000007F#32 = 0x00000017#32 := by decide

theorem witness_RegisterImmediateResults :
    0x00500093#32 &&& 0x0000707F#32 = 0x00000013#32 ∧ 0xFFF32293#32 &&& 0x0000707F#32 = 0x00002013#32 ∧
    0x00133293#32 &&& 0x0000707F#32 = 0x00003013#32 ∧ 0xFFF34293#32 &&& 0x0000707F#32 = 0x00004013#32 ∧
    0x0F036293#32 &&& 0x0000707F#32 = 0x00006013#32 ∧ 0x0FF37293#32 &&& 0x0000707F#32 = 0x00007013#32 := by decide

theorem witness_ConstantShiftResults :
    0x00431293#32 &&& 0xFE00707F#32 = 0x00001013#32 ∧ 0x00435293#32 &&& 0xFE00707F#32 = 0x00005013#32 ∧
    0x40435293#32 &&& 0xFE00707F#32 = 0x40005013#32 := by decide

theorem witness_RegisterRegisterResults :
    0x002081B3#32 &&& 0xFE00707F#32 = 0x00000033#32 ∧ 0x407302B3#32 &&& 0xFE00707F#32 = 0x40000033#32 ∧
    0x007322B3#32 &&& 0xFE00707F#32 = 0x00002033#32 ∧ 0x007332B3#32 &&& 0xFE00707F#32 = 0x00003033#32 ∧
    0x007342B3#32 &&& 0xFE00707F#32 = 0x00004033#32 ∧ 0x007362B3#32 &&& 0xFE00707F#32 = 0x00006033#32 ∧
    0x007372B3#32 &&& 0xFE00707F#32 = 0x00007033#32 := by decide

theorem witness_RegisterShiftResults :
    0x007312B3#32 &&& 0xFE00707F#32 = 0x00001033#32 ∧ 0x007352B3#32 &&& 0xFE00707F#32 = 0x00005033#32 ∧
    0x407352B3#32 &&& 0xFE00707F#32 = 0x40005033#32 := by decide

theorem witness_ShiftsBitByBit : ∃ n i : Nat, n < 32 ∧ i < 32 ∧ ¬ i + n < 32 := ⟨31, 31, by decide⟩

theorem witness_JumpResults :
    0x008000EF#32 &&& 0x0000007F#32 = 0x0000006F#32 ∧ 0x004280E7#32 &&& 0x0000707F#32 = 0x00000067#32 := by decide

-- operands 0xFFFFFFFF and 1 meet bne, blt and bgeu and fail beq, bge and bltu; equal operands the other way round
theorem witness_BranchResults :
    (0x00730463#32 &&& 0x0000707F#32 = 0x00000063#32 ∧ 0xFE029CE3#32 &&& 0x0000707F#32 = 0x00001063#32 ∧
      0x00734463#32 &&& 0x0000707F#32 = 0x00004063#32 ∧ 0x00735463#32 &&& 0x0000707F#32 = 0x00005063#32 ∧
      0x00736463#32 &&& 0x0000707F#32 = 0x00006063#32 ∧ 0x00737463#32 &&& 0x0000707F#32 = 0x00007063#32) ∧
    (let a : Word := 0xFFFFFFFF#32; let b : Word := 1#32
      a ≠ b ∧ a.toInt < b.toInt ∧ a.toNat ≥ b.toNat ∧ ¬ a = b ∧ ¬ a.toInt ≥ b.toInt ∧ ¬ a.toNat < b.toNat) ∧
    (let a : Word := 1#32; a = a ∧ a.toInt ≥ a.toInt ∧ ¬ a ≠ a ∧ ¬ a.toInt < a.toInt ∧ ¬ a.toNat < a.toNat) := by decide

theorem witness_MemReadIsLittleEndian :
    let m : Memory := [(0, 3#8), (4294967294, 1#8), (4294967295, 2#8)]
    m.read (at_ 0xFFFFFFFE#32 0).toNat = some 1#8 ∧ m.read (at_ 0xFFFFFFFE#32 1).toNat = some 2#8 ∧
    m.read (at_ 0xFFFFFFFE#32 2).toNat = some 3#8 ∧ FirstAbsent m 0xFFFFFFFE#32 4 1#32 :=
  ⟨by decide, by decide, by decide, 3, by decide, by decide, by decide, by decide⟩

theorem witness_MemWriteStoresBytes : 4 ∈ [1, 2, 4] ∧ Memory.wf [(0, 3#8), (4294967295, 2#8)] := by decide

theorem witness_LoadsAndStoresIssueRequest :
    (0x00328303#32 &&& 0x0000707F#32 = 0x00000003#32 ∧ 0x00229303#32 &&& 0x0000707F#32 = 0x00001003#32 ∧
      0x0002A303#32 &&& 0x0000707F#32 = 0x00002003#32 ∧ 0x0032C303#32 &&& 0x0000707F#32 = 0x00004003#32 ∧
      0x0022D303#32 &&& 0x0000707F#32 = 0x00005003#32 ∧ 0x006280A3#32 &&& 0x0000707F#32 = 0x00000023#32 ∧
      0x00629123#32 &&& 0x0000707F#32 = 0x00001023#32 ∧ 0x0062A023#32 &&& 0x0000707F#32 = 0x00002023#32) ∧
    ¬ Misaligns defaultConfig (loadAddr 0x0002A303#32 (dataMachine 0x0002A303#32 0)) 4 ∧
    (dataMachine 0x0002A303#32 0).bus = emptyBus ∧
    Misaligns defaultConfig (loadAddr 0x0012A303#32 (dataMachine 0x0012A303#32 0)) 4 ∧
    ¬ Misaligns defaultConfig (storeAddr 0x0062A023#32 (dataMachine 0x0062A023#32 0)) 4 ∧
    Misaligns defaultConfig (storeAddr 0x006290A3#32 (dataMachine 0x006290A3#32 0)) 2 :=
  ⟨by decide, by unfold Misaligns; decide, by decide, by unfold Misaligns; decide, by unfold Misaligns; decide,
    by unfold Misaligns; decide⟩

/-- The bytes of V7, by index from `0x10010000 + k`. -/
def dataBytes (k i : Nat) : Byte := [0xDD#8, 0xCC#8, 0xBB#8, 0xAA#8].getD (k + i) 0#8

theorem witness_LoadsWriteBackInTwoTicks :
    ∀ x ∈ [(0x00328303#32, 1, 3), (0x00229303#32, 2, 2), (0x0002A303#32, 4, 0), (0x0032C303#32, 1, 3), (0x0022D303#32, 2, 2)],
      Ready (dataMachine x.1 0) x.1 ∧ Plain (dataMachine x.1 0).cfg (loadAddr x.1 (dataMachine x.1 0)) x.2.1 ∧
      ¬ Misaligns (dataMachine x.1 0).cfg (loadAddr x.1 (dataMachine x.1 0)) x.2.1 ∧
      ∀ i < x.2.1, (dataMachine x.1 0).mem.read (at_ (loadAddr x.1 (dataMachine x.1 0)) i).toNat = some (dataBytes x.2.2 i) := by
  intro x hx
  simp only [List.mem_cons, List.not_mem_nil, or_false] at hx
  rcases hx with rfl | rfl | rfl | rfl | rfl <;>
    exact ⟨⟨by decide, by decide, by decide, by decide, by decide⟩, plain_default _ _, by unfold Misaligns; decide, by decide⟩

theorem witness_StoresWriteMemoryInTwoTicks :
    ∀ x ∈ [(0x006280A3#32, 1), (0x00629123#32, 2), (0x0062A023#32, 4)],
      Ready (dataMachine x.1 0) x.1 ∧ Plain (dataMachine x.1 0).cfg (storeAddr x.1 (dataMachine x.1 0)) x.2 ∧
      ¬ Misaligns (dataMachine x.1 0).cfg (storeAddr x.1 (dataMachine x.1 0)) x.2 := by
  intro x hx
  simp only [List.mem_cons, List.not_mem_nil, or_false] at hx
  rcases hx with rfl | rfl | rfl <;>
    exact ⟨⟨by decide, by decide, by decide, by decide, by decide⟩, plain_default _ _, by unfold Misaligns; decide⟩

theorem not_owned_tcfg (a : Word) : ¬ Owned tcfg a := by
  rintro ⟨d, p, h, -⟩; simp [tcfg, defaultConfig] at h

-- the stops of a load: a misaligned address, the last byte of the control word, the fourth byte absent; and a device
theorem witness_LoadsWriteBackInTwoTicks_otherwise :
    (Ready (dataMachine 0x0012A303#32 0) 0x0012A303#32 ∧
      Misaligns defaultConfig (loadAddr 0x0012A303#32 (dataMachine 0x0012A303#32 0)) 4) ∧
    (let s := under tcfg (machine 0x00328303#32 [(5, 0xFFFF0000#32)]);
      Ready s 0x00328303#32 ∧ ¬ Owned s.cfg (loadAddr 0x00328303#32 s) ∧ MeetsControl s.cfg (loadAddr 0x00328303#32 s) 1) ∧
    (let s := withBytes (machine 0x0002A303#32 [(5, 0x10010000#32)]) 0x10010000#32 [0#8, 0#8, 0#8];
      Ready s 0x0002A303#32 ∧ Plain s.cfg (loadAddr 0x0002A303#32 s) 4 ∧
      FirstAbsent s.mem (loadAddr 0x0002A303#32 s) 4 0x10010003#32) ∧
    (let s := under pcfg (machine 0x0002A303#32 [(5, 0xF0000000#32)]);
      Ready s 0x0002A303#32 ∧ FirstOwner s.cfg 0 (loadAddr 0x0002A303#32 s)) :=
  ⟨⟨⟨by decide, by decide, by decide, by decide, by decide⟩, by unfold Misaligns; decide⟩,
    ⟨⟨by decide, by decide, by decide, by decide, by decide⟩, not_owned_tcfg _, ⟨_, rfl, 0, by decide, 3, by decide, by decide⟩⟩,
    ⟨⟨by decide, by decide, by decide, by decide, by decide⟩, plain_default _ _, 3, by decide, by decide, by decide, by decide⟩,
    ⟨by decide, by decide, by decide, by decide, by decide⟩, ⟨_, rfl, _, List.mem_singleton.mpr rfl, by decide⟩,
    fun k hk => absurd hk (Nat.not_lt_zero k)⟩

-- the same of a store: the arming word, the second arming, a byte of the control word, a device
theorem witness_StoresWriteMemoryInTwoTicks_otherwise :
    (Ready (dataMachine 0x006290A3#32 0) 0x006290A3#32 ∧
      Misaligns defaultConfig (storeAddr 0x006290A3#32 (dataMachine 0x006290A3#32 0)) 2) ∧
    (let s := under tcfg (machine 0x0062A023#32 [(5, 0xFFFF0000#32)]);
      Ready s 0x0062A023#32 ∧ ¬ Owned s.cfg (storeAddr 0x0062A023#32 s) ∧ s.dma = none ∧
      s.cfg.dmaCtrlAddr = some (storeAddr 0x0062A023#32 s) ∧ MeetsControl s.cfg (storeAddr 0x0062A023#32 s) 4) ∧
    (let s : State := { under tcfg (machine 0x0062A023#32 [(5, 0xFFFF0000#32)]) with dma := some ⟨0#32, 0#32, 4#32, 1#32⟩ };
      Ready s 0x0062A023#32 ∧ s.cfg.dmaCtrlAddr = some (storeAddr 0x0062A023#32 s)) ∧
    (let s := under tcfg (machine 0x006280A3#32 [(5, 0xFFFF0000#32)]);
      Ready s 0x006280A3#32 ∧ MeetsControl s.cfg (storeAddr 0x006280A3#32 s) 1) ∧
    (let s := under pcfg (machine 0x006280A3#32 [(5, 0xF0000000#32)]);
      Ready s 0x006280A3#32 ∧ FirstOwner s.cfg 0 (storeAddr 0x006280A3#32 s)) :=
  ⟨⟨⟨by decide, by decide, by decide, by decide, by decide⟩, by unfold Misaligns; decide⟩,
    ⟨⟨by decide, by decide, by decide, by decide, by decide⟩, not_owned_tcfg _, by decide, by decide,
      ⟨_, rfl, 0, by decide, 0, by decide, by decide⟩⟩,
    ⟨⟨by decide, by decide, by decide, by decide, by decide⟩, by decide⟩,
    ⟨⟨by decide, by decide, by decide, by decide, by decide⟩, ⟨_, rfl, 0, by decide, 1, by decide, by decide⟩⟩,
    ⟨by decide, by decide, by decide, by decide, by decide⟩, ⟨_, rfl, _, List.mem_singleton.mpr rfl, by decide⟩,
    fun k hk => absurd hk (Nat.not_lt_zero k)⟩

theorem witness_PeripheralReceivesRequest :
    let r := requesting pcfg (.read .byte 0xF00000FF#32)
    let w := requesting pcfg (.write .word 0xF0000000#32 7#32)
    (r.run = .running ∧ FirstOwner r.cfg 0 0xF00000FF#32 ∧ r.bus = { req := some (.read .byte 0xF00000FF#32), rsp := none }) ∧
    w.run = .running ∧ FirstOwner w.cfg 0 0xF0000000#32 ∧
      w.bus = { req := some (.write .word 0xF0000000#32 7#32), rsp := none } :=
  ⟨⟨by decide, ⟨⟨_, rfl, _, List.mem_singleton.mpr rfl, by decide⟩, fun k hk => absurd hk (Nat.not_lt_zero k)⟩, by decide⟩,
    by decide, ⟨⟨_, rfl, _, List.mem_singleton.mpr rfl, by decide⟩, fun k hk => absurd hk (Nat.not_lt_zero k)⟩, by decide⟩

theorem witness_ControlWriteArmsEngine :
    let s := requesting tcfg (.write .word 0xFFFF0000#32 0x00010004#32)
    s.run = .running ∧ s.cfg.dmaCtrlAddr = some 0xFFFF0000#32 ∧ ¬ Owned s.cfg 0xFFFF0000#32 ∧
    s.bus = { req := some (.write .word 0xFFFF0000#32 0x00010004#32), rsp := none } ∧ s.dma = none ∧
    ({ s with dma := some ⟨0, 0, 4, 1⟩ } : State).dma = some ⟨0, 0, 4, 1⟩ :=
  ⟨by decide, by decide, not_owned_tcfg _, by decide, by decide, rfl⟩

-- the last byte of the control word
theorem witness_OtherControlAccessStops :
    let r : Request := .write .byte 0xFFFF0003#32 1#32
    let s := requesting tcfg r
    s.run = .running ∧ s.bus = { req := some r, rsp := none } ∧ ¬ Owned s.cfg r.address ∧
    MeetsControl s.cfg r.address r.size.bytes ∧ ∀ D v, s.cfg.dmaCtrlAddr = some D → r ≠ .write .word D v :=
  ⟨by decide, by decide, not_owned_tcfg _, ⟨_, rfl, 0, by decide, 3, by decide, rfl⟩, fun D v _ h => by cases h⟩

theorem witness_EngineActsExactlyWhenEnabled :
    ¬ GateOpen waiting ∧ (machine 0x00000013#32 []).dma = none ∧ GateOpen (withJob 0#32) ∧
    (withJob 0#32).dma = some ⟨0x10010000#32, 0x10010100#32, 4#32, 0#32⟩ :=
  ⟨by unfold GateOpen; decide, by decide, by unfold GateOpen; decide, by decide⟩

-- the absent source, a byte that does not finish the job, the last byte, the empty job
theorem witness_EngineCopiesOneByte :
    (GateOpen (withJob 0#32) ∧ (withJob 0#32).mem.read 0x10010000 = some 0xDD#8) ∧
    (GateOpen (withJob 3#32) ∧ (withJob 3#32).mem.read 0x10010003 = some 0xAA#8 ∧ 3#32 + 1#32 = 4#32) ∧
    (∃ s : State, GateOpen s ∧ s.dma = some ⟨0x10010004#32, 0#32, 1#32, 0#32⟩ ∧ s.mem.read 0x10010004 = none) ∧
    ∃ s : State, GateOpen s ∧ s.dma = some ⟨0#32, 0#32, 0#32, 0#32⟩ :=
  ⟨⟨by unfold GateOpen; decide, by decide⟩, ⟨by unfold GateOpen; decide, by decide, by decide⟩,
    ⟨{ withJob 0#32 with dma := some ⟨0x10010004#32, 0#32, 1#32, 0#32⟩ }, by unfold GateOpen; decide, by decide, by decide⟩,
    ⟨{ withJob 0#32 with dma := some ⟨0#32, 0#32, 0#32, 0#32⟩ }, by unfold GateOpen; decide, by decide⟩⟩

theorem witness_JobCopiesItsRegion :
    GateOpen (withJob 0#32) ∧ (withJob 0#32).dma = some ⟨0x10010000#32, 0x10010100#32, 4#32, 0#32⟩ ∧ 4#32 ≠ 0#32 ∧
    (∀ i < 4, (withJob 0#32).mem.read (at_ 0x10010000#32 i).toNat = some (dataBytes 0 i)) ∧
    ∀ i < 4, ∀ k < 4, at_ 0x10010100#32 i ≠ at_ 0x10010000#32 k :=
  ⟨by unfold GateOpen; decide, by decide, by decide, by decide, by decide⟩

theorem witness_OverlappingJobReplicates :
    let s : State := { withJob 0#32 with dma := some ⟨0x10010000#32, 0x10010000#32 + 1#32, 4#32, 0#32⟩ }
    GateOpen s ∧ s.dma = some ⟨0x10010000#32, 0x10010000#32 + 1#32, 4#32, 0#32⟩ ∧ 4#32 ≠ 0#32 ∧
    s.mem.read (0x10010000#32).toNat = some 0xDD#8 :=
  ⟨by unfold GateOpen; decide, by decide, by decide, by decide⟩

theorem witness_NoCopyWhileCpuWaits :
    ∃ s t, State.Inv s ∧ s.run = .running ∧ step s = .next t ∧ t.mode ≠ .idle := by
  obtain ⟨t, h, ht⟩ := next_with (s := dataMachine 0x0002A303#32 0) (fun t => decide (t.mode ≠ .idle)) (by decide)
  exact ⟨_, t, inv_of (by decide) (by decide) (by decide) (by decide) (by decide), by decide, h, by simpa using ht⟩

theorem witness_FenceOnlyAdvancesPc : 0x8330000F#32 &&& 0x0000707F#32 = 0x0000000F#32 := by decide

theorem distinct_default : DistinctServices defaultConfig := by unfold DistinctServices; decide

theorem witness_PrintIntEmitsDecimal :
    let s := machine 0x00000073#32 [(17, 1#32), (10, 0xFFFFFFD6#32)]
    DistinctServices s.cfg ∧ s.readX s.cfg.syscallReg = s.cfg.sysPrintInt :=
  ⟨distinct_default, by decide⟩

/-- A memory whose every cell holds 1: no test evaluates it. -/
def fullMemory : Memory := (List.range (2 ^ 32)).map fun i => (i, 1#8)

theorem read_of_mem (l : List Nat) (a : Nat) (h : a ∈ l) : Memory.read (l.map fun i => (i, 1#8)) a = some 1#8 := by
  induction l with
  | nil => cases h
  | cons k l ih =>
    by_cases hk : k = a
    · simp [Memory.read, hk]
    · simp only [List.map_cons, Memory.read, hk, if_false]
      exact ih (by simpa [Ne.symm hk] using h)

theorem fullMemory_read (a : Word) : fullMemory.read a.toNat = some 1#8 := read_of_mem _ _ (List.mem_range.mpr a.isLt)

-- a string of two bytes, and an absent first byte
theorem witness_PrintStringEmitsBytes :
    let s := withBytes (machine 0x00000073#32 [(17, 4#32), (10, 0x10010000#32)]) 0x10010000#32 [0x48#8, 0x69#8, 0#8]
    let e := machine 0x00000073#32 [(17, 4#32), (10, 0x10010000#32)]
    (DistinctServices s.cfg ∧ s.readX s.cfg.syscallReg = s.cfg.sysPrintString) ∧
    ([0x48#8, 0x69#8].length < 2 ^ 32 ∧ 0#8 ∉ [0x48#8, 0x69#8] ∧
      (∀ i < [0x48#8, 0x69#8].length, s.mem.read (at_ (s.readX 10#5) i).toNat = [0x48#8, 0x69#8][i]?) ∧
      s.mem.read (at_ (s.readX 10#5) 2).toNat = some 0#8) ∧
    e.readX e.cfg.syscallReg = e.cfg.sysPrintString ∧ e.mem.read (at_ (e.readX 10#5) 0).toNat = none :=
  ⟨⟨distinct_default, by decide⟩, ⟨by simp, by decide, by decide, by decide⟩, by decide, by decide⟩

/-- The same machine with another memory. -/
def withMemory (m : Memory) (s : State) : State := { s with mem := m }

theorem witness_PrintStringEmitsBytes_unterminated :
    ∃ u : State, DistinctServices u.cfg ∧ u.readX u.cfg.syscallReg = u.cfg.sysPrintString ∧
      ∀ i < 2 ^ 32, ∃ b : Byte, b ≠ 0#8 ∧ u.mem.read (at_ (u.readX 10#5) i).toNat = some b := by
  have key (m : Memory) : let u := withMemory m (machine 0x00000073#32 [(17, 4#32)])
      u.cfg = defaultConfig ∧ u.readX u.cfg.syscallReg = u.cfg.sysPrintString ∧ u.mem = m := ⟨rfl, rfl, rfl⟩
  obtain ⟨hc, hr, hm⟩ := key fullMemory
  refine ⟨_, by rw [hc]; exact distinct_default, hr, fun i _ => ⟨1#8, by decide, ?_⟩⟩
  rw [hm]; exact fullMemory_read _

-- another descriptor, a buffer of two bytes, an absent first byte
theorem witness_WriteEmitsBuffer :
    let s := withBytes (machine 0x00000073#32 [(17, 64#32), (10, 1#32), (11, 0x10010000#32), (12, 2#32)]) 0x10010000#32
      [0x48#8, 0x69#8]
    let e := machine 0x00000073#32 [(17, 64#32), (10, 1#32), (11, 0x10010000#32), (12, 2#32)]
    let o := machine 0x00000073#32 [(17, 64#32), (10, 2#32)]
    (DistinctServices s.cfg ∧ s.readX s.cfg.syscallReg = s.cfg.sysWrite ∧ s.readX 10#5 = 1#32 ∧
      [0x48#8, 0x69#8].length = (s.readX 12#5).toNat ∧
      ∀ i < 2, s.mem.read (at_ (s.readX 11#5) i).toNat = [0x48#8, 0x69#8][i]?) ∧
    (e.readX e.cfg.syscallReg = e.cfg.sysWrite ∧ e.readX 10#5 = 1#32 ∧
      FirstAbsent e.mem (e.readX 11#5) (e.readX 12#5).toNat 0x10010000#32) ∧
    o.readX o.cfg.syscallReg = o.cfg.sysWrite ∧ o.readX 10#5 ≠ 1#32 :=
  ⟨⟨distinct_default, by decide, by decide, by decide, by decide⟩,
    ⟨by decide, by decide, 0, by decide, by decide, by decide, by decide⟩, by decide, by decide⟩

theorem witness_ExitAndUnknownServiceStop :
    let s := machine 0x00000073#32 [(17, 10#32)]
    let u := machine 0x00000073#32 [(17, 99#32)]
    DistinctServices s.cfg ∧ s.readX s.cfg.syscallReg = s.cfg.sysExit ∧ Ready s 0x00000073#32 ∧
    u.readX u.cfg.syscallReg ∉ [u.cfg.sysPrintInt, u.cfg.sysPrintString, u.cfg.sysExit, u.cfg.sysWrite] :=
  ⟨distinct_default, by decide, ⟨by decide, by decide, by decide, by decide, by decide⟩, by decide⟩

theorem witness_EbreakStopsTheRun : Ready (machine 0x00100073#32 []) 0x00100073#32 :=
  ⟨by decide, by decide, by decide, by decide, by decide⟩

theorem witness_MultiplicationResults :
    0x027302B3#32 &&& 0xFE00707F#32 = 0x02000033#32 ∧ 0x027312B3#32 &&& 0xFE00707F#32 = 0x02001033#32 ∧
    0x027322B3#32 &&& 0xFE00707F#32 = 0x02002033#32 ∧ 0x027332B3#32 &&& 0xFE00707F#32 = 0x02003033#32 ∧
    State.reset.cfg.highProducts = .exact := by decide

-- the corners and the operands away from them
theorem witness_DivisionResults :
    (0x027342B3#32 &&& 0xFE00707F#32 = 0x02004033#32 ∧ 0x027352B3#32 &&& 0xFE00707F#32 = 0x02005033#32 ∧
      0x027362B3#32 &&& 0xFE00707F#32 = 0x02006033#32 ∧ 0x027372B3#32 &&& 0xFE00707F#32 = 0x02007033#32) ∧
    State.reset.cfg.divisionCorners = ratifiedCorners ∧ ¬ (3#32 = 0#32 ∨ Overflows 7#32 3#32) ∧
    Overflows 0x80000000#32 0xFFFFFFFF#32 :=
  ⟨by decide, by decide, by unfold Overflows; decide, by unfold Overflows; decide⟩

theorem witness_QuotientAndRemainderRebuildDividend : 0xFFFFFFFF#32 ≠ 0#32 ∧ ¬ Overflows 0x80000001#32 0xFFFFFFFF#32 :=
  ⟨by decide, by unfold Overflows; decide⟩

theorem witness_ProductHalvesRebuildProduct : State.reset.cfg.highProducts = .exact := by decide

-- a stop of each kind: EBREAK, an absent byte of a load, the last byte of a job, an empty job, an absent source byte
theorem witness_StopsArePrecise :
    (∃ s t, State.Inv s ∧ s.run = .running ∧ step s = .next t ∧ t.run = .stopped .ebreak) ∧
    (∃ s t, State.Inv s ∧ s.run = .running ∧ step s = .next t ∧ t.run = .stopped (.memoryError 0x10010000#32)) ∧
    (∃ s t, State.Inv s ∧ s.run = .running ∧ step s = .next t ∧ t.run = .stopped .dmaComplete ∧
      t.mem.read 0x10010103 = some 0xAA#8) ∧
    (∃ s t, State.Inv s ∧ s.run = .running ∧ step s = .next t ∧ t.run = .stopped .dmaComplete ∧
      s.dma = some ⟨0#32, 0#32, 0#32, 0#32⟩) ∧
    ∃ s t, State.Inv s ∧ s.run = .running ∧ step s = .next t ∧ t.run = .stopped (.memoryError 0x10010004#32) ∧
      s.dma = some ⟨0x10010004#32, 0#32, 1#32, 0#32⟩ := by
  have inv : ∀ j : Job, j.progress < j.length →
      State.Inv { dataMachine 0x00000013#32 0 with dma := some j } := fun j h =>
    have k : State.Inv (dataMachine 0x00000013#32 0) :=
      inv_of (by decide) (by decide) (by decide) (by decide) (by decide)
    ⟨k.zero, k.single, k.idle, k.awaiting, k.stopped, fun _ hj => Option.some.inj hj ▸ .inl h, k.memory⟩
  refine ⟨?_, ?_, ?_, ?_, ?_⟩
  · obtain ⟨t, h, ht⟩ := next_with (s := machine 0x00100073#32 []) (fun t => t.run == .stopped .ebreak) (by decide)
    exact ⟨_, t, inv_of (by decide) (by decide) (by decide) (by decide) (by decide), by decide, h, by simpa using ht⟩
  · obtain ⟨t, h, ht⟩ := next_with (s := machine 0x0002A303#32 [(5, 0x10010000#32)])
      (fun t => t.run == .stopped (.memoryError 0x10010000#32)) (by decide)
    exact ⟨_, t, inv_of (by decide) (by decide) (by decide) (by decide) (by decide), by decide, h, by simpa using ht⟩
  · obtain ⟨t, h, ht⟩ := next_with (s := withJob 3#32)
      (fun t => t.run == .stopped .dmaComplete && t.mem.read 0x10010103 == some 0xAA#8) (by decide)
    simp only [Bool.and_eq_true, beq_iff_eq] at ht
    exact ⟨_, t, inv _ (by decide), by decide, h, ht⟩
  · obtain ⟨t, h, ht⟩ := next_with (s := emptyArmed) (fun t => t.run == .stopped .dmaComplete) (by decide)
    exact ⟨_, t, inv_emptyArmed, by decide, h, by simpa using ht, rfl⟩
  · obtain ⟨t, h, ht⟩ := next_with
      (s := { dataMachine 0x00000013#32 0 with dma := some ⟨0x10010004#32, 0#32, 1#32, 0#32⟩ })
      (fun t => t.run == .stopped (.memoryError 0x10010004#32)) (by decide)
    exact ⟨_, t, inv _ (by decide), by decide, h, by simpa using ht, rfl⟩

theorem witness_PresentCellsStayPresent :
    ∃ s t, step s = .next t ∧ (s.mem.read 0x00400000).isSome = true := by
  obtain ⟨t, h, -⟩ := next_with (s := machine 0x00500093#32 []) (fun _ => true) (by decide)
  exact ⟨_, t, h, by decide⟩

theorem witness_HistoriesGrowAndAreNotRead : ∃ s t, step s = .next t ∧ t.out = [0x30#8] := by
  obtain ⟨t, h, ht⟩ := next_with (s := machine 0x00000073#32 [(17, 1#32)]) (fun t => t.out == [0x30#8]) (by decide)
  exact ⟨_, t, h, by simpa using ht⟩

theorem witness_FloatRegistersAreStorageOnly : ∃ s t, step s = .next t ∧ s.run = .running := by
  obtain ⟨t, h, -⟩ := next_with (s := machine 0x00500093#32 []) (fun _ => true) (by decide)
  exact ⟨_, t, h, by decide⟩

end Sys2Proof.Tests
end

section
/-! SUPPORT. The state (10_state.md): what reset and load leave, `x0`, and what every tick keeps. -/

namespace Sys2Proof.Machine

open Sys2Proof.Claims

/-! ### Reset and program load (R36, R300, R301) -/

/-- Installing an image leaves every cell it does not name as it was (R301). -/
theorem read_installImage_outside (image : List (Word × Byte)) (m : Memory) (a : Nat)
    (h : ∀ c ∈ image, c.1.toNat ≠ a) : (installImage m image).read a = m.read a := by
  induction image generalizing m with
  | nil => rfl
  | cons c rest ih =>
    rw [installImage, ih _ fun d hd => h d (List.mem_cons_of_mem _ hd),
      Memory.read_write_other _ _ (h c List.mem_cons_self)]

/-- Installing an image that names no address twice puts each of its bytes in its cell (R301). -/
theorem read_installImage_inside {image : List (Word × Byte)} (m : Memory) {a : Word} {b : Byte}
    (hn : (image.map Prod.fst).Nodup) (h : (a, b) ∈ image) : (installImage m image).read a.toNat = some b := by
  induction image generalizing m with
  | nil => cases h
  | cons c rest ih =>
    obtain ⟨hc, hrest⟩ := List.nodup_cons.1 hn
    rw [installImage]
    rcases List.mem_cons.1 h with rfl | h
    · have hout : ∀ d ∈ rest, d.1.toNat ≠ a.toNat := fun d hd he =>
        hc (List.mem_map.2 ⟨d, hd, BitVec.eq_of_toNat_eq he⟩)
      rw [read_installImage_outside _ _ _ hout, Memory.read_write_self]
    · exact ih _ hrest h

/-- A machine whose registers are 0 reads 0 from each. -/
theorem readX_of_replicate {s : State} (h : s.x = Vector.replicate 32 0#32) (i : RegIdx) : s.readX i = 0#32 := by
  simp [State.readX, h]

/-- Reset leaves the zero state (R36). -/
theorem zeroed_resetWith (s : State) (d : Nat) : Zeroed s { State.resetWith s.cfg with draws := d } :=
  ⟨readX_of_replicate rfl, rfl, rfl, rfl, rfl, rfl, rfl, rfl, rfl⟩

/-- Program load leaves the zero state but for memory and the pc (R301). -/
theorem zeroed_hostLoad (image : List (Word × Byte)) (start : Word) (s : State) :
    Zeroed s (hostLoad image start s) :=
  ⟨readX_of_replicate rfl, rfl, rfl, rfl, rfl, rfl, rfl, rfl, rfl⟩

/-- A zero state with canonical memory has the invariant: no transaction and no job is there (R35, R36). -/
theorem inv_of_zeroed {s t : State} (h : Zeroed s t) (hx : t.x[0] = 0#32) (hm : Memory.wf t.mem) : State.Inv t where
  zero := hx
  single := .inl (by rw [h.bus]; rfl)
  idle := fun _ => h.bus
  awaiting := fun p hp => by cases h.mode.symm.trans hp
  stopped := fun p hp => by cases h.mode.symm.trans hp
  job := fun j hj => by cases h.dma.symm.trans hj
  memory := hm

theorem Memory.wf_nil : Memory.wf [] := ⟨.nil, fun _ h => by cases h⟩

/-! ### The CPU phase -/

/-- A completion with a next state is a register write, of `x0` for a store, then the pc moves and the wait ends (R150). -/
theorem complete_eq_next {p : Pending} {r : Response} {s t : State} (h : complete p r s = .next t) :
    ∃ i v, t = (s.writeX i v).advance.resume := by
  cases p with
  | store => cases h; exact ⟨0#5, 0#32, rfl⟩
  | load rd n sg =>
    cases hd : r.data with
    | none => simp [complete, hd] at h
    | some d => simp only [complete, hd, Host.Outcome.next.injEq] at h; exact ⟨rd, _, h.symm⟩

/-- What the CPU phase never touches, whatever it does: the cell of `x0`, memory, the job and the configuration. -/
structure CpuPhaseFrame (s t : State) : Prop where
  zero : t.x[0] = s.x[0]
  mem  : t.mem = s.mem
  dma  : t.dma = s.dma
  cfg  : t.cfg = s.cfg

theorem CpuOnly.frame {s t : State} (h : CpuOnly s t) : CpuPhaseFrame s t := ⟨h.zero, h.mem, h.dma, h.cfg⟩

theorem cpuPhase_frame {s t : State} (h : cpuPhase s = .next t) : CpuPhaseFrame s t := by
  rcases cpuPhase_next h with ⟨-, e, rfl⟩ | ⟨-, w, i, -, -, hex⟩ | ⟨p, -, -, rfl⟩ | ⟨p, r, -, -, hc⟩
  · exact (cpuOnly_stop e s).frame
  · rcases exec_next hex with ho | ⟨r, p, -, -, rfl⟩
    · exact ho.frame
    · exact ⟨rfl, rfl, rfl, rfl⟩
  · exact ⟨rfl, rfl, rfl, rfl⟩
  · obtain ⟨i, v, rfl⟩ := complete_eq_next hc
    exact ⟨by simp, by simp, by simp, by simp⟩

/-! ### What every tick keeps of the registers and of the configuration -/

/-- The two phases after the CPU's keep the CPU and the configuration (R20, R38). -/
theorem laterPhases_cpuKept (s : State) : CpuKept s (dmaPhase (busPhase s)) :=
  (busPhase_cpuKept s).trans (dmaPhase_engineOnly _).kept

/-- No tick writes the cell of `x0` (R21). -/
theorem step_x_zero {s t : State} (h : step s = .next t) : t.x[0] = s.x[0] := by
  rcases step_next h with ⟨-, rfl⟩ | ⟨-, -, u, hu, rfl⟩
  · rfl
  · rw [(laterPhases_cpuKept u).x]; exact (cpuPhase_frame hu).zero

/-- No tick writes the configuration (R37). -/
theorem step_cfg {s t : State} (h : step s = .next t) : t.cfg = s.cfg := by
  rcases step_next h with ⟨-, rfl⟩ | ⟨-, -, u, hu, rfl⟩
  · rfl
  · exact (laterPhases_cpuKept u).cfg.trans (cpuPhase_frame hu).cfg

/-! ### What every tick keeps of memory

A tick changes memory only by writing cells: the bytes of a served store and the byte of a DMA copy. So a property of memory
that the write of a cell keeps is kept by every tick. -/

/-- The write of one cell of the 32-bit space keeps the property. -/
def KeptByWrite (P : Memory → Prop) : Prop :=
  ∀ (m : Memory) (a : Nat) (b : Byte), a < 2 ^ 32 → P m → P (m.write a b)

section
variable {P : Memory → Prop} (hP : KeptByWrite P)
include hP

theorem KeptByWrite.writeBytes {m : Memory} (a : Word) (bs : List Byte) (h : P m) : P (m.writeBytes a bs) := by
  induction bs generalizing m a with
  | nil => exact h
  | cons b bs ih => exact ih _ (hP m _ b a.isLt h)

theorem KeptByWrite.busPhase {s : State} (h : P s.mem) : P (busPhase s).mem := by
  rcases busPhase_cases s with hb | ⟨r, -, -, -, ⟨e, hb⟩ | hb⟩
  · rwa [hb]
  · rwa [hb]
  · rcases hb.mem with hm | ⟨n, a, v, -, hm⟩ <;> rw [hm]
    · exact h
    · exact hP.writeBytes a _ h

theorem KeptByWrite.dmaPhase {s : State} (h : P s.mem) : P (dmaPhase s).mem := by
  rcases (dmaPhase_engineOnly s).mem with hm | ⟨a, b, ha, hm⟩ <;> rw [hm]
  · exact h
  · exact hP _ a b ha h

theorem KeptByWrite.step {s t : State} (hs : step s = .next t) (h : P s.mem) : P t.mem := by
  rcases step_next hs with ⟨-, rfl⟩ | ⟨-, -, u, hu, rfl⟩
  · exact h
  · exact hP.dmaPhase (hP.busPhase ((cpuPhase_frame hu).mem ▸ h))

end

/-- The write of a cell keeps the canonical form. -/
theorem keptByWrite_wf : KeptByWrite Memory.wf := fun _ _ b ha h => Memory.wf_write h ha b

/-- The write of a cell keeps a present cell present (R33). -/
theorem keptByWrite_isSome (a : Nat) : KeptByWrite fun m => (m.read a).isSome :=
  fun _ _ _ _ => Memory.read_write_isSome

/-! ### The invariant of R35

A tick of a running machine comes, after the CPU phase, to one of two kinds of state. Either nothing is outstanding, and the
DMA phase may run; or the request just issued stands in its slot, and the Memory serves it or stops the run. -/

/-- Nothing is outstanding. A job may be empty only while the machine runs, so that the DMA phase destroys it (R35 item 5). -/
structure AtRest (s : State) : Prop where
  mode : s.mode = .idle
  bus  : s.bus = { req := none, rsp := none }
  job  : ∀ j, s.dma = some j → j.progress < j.length ∨ j.progress ≤ j.length ∧ s.run = .running

/-- A request stands in its slot, the one the CPU waits for, and every job is unfinished. -/
structure Requesting (s : State) (r : Request) (p : Pending) : Prop where
  run  : s.run = .running
  mode : s.mode = .awaitingMemory p
  bus  : s.bus = { req := some r, rsp := none }
  asks : Request.asks r p = true
  job  : ∀ j, s.dma = some j → j.progress < j.length

/-- A job of a state at rest has not copied more than its length. -/
theorem AtRest.progress_le {s : State} (h : AtRest s) {j : Job} (hj : s.dma = some j) : j.progress ≤ j.length :=
  (h.job j hj).elim BitVec.le_of_lt And.left

/-- The DMA phase leaves no empty job to a machine at rest (R80, R84). -/
theorem AtRest.dmaPhase_job {s : State} (h : AtRest s) {k : Job} (hk : (dmaPhase s).dma = some k) :
    k.progress < k.length := by
  cases he : dmaEnabled s
  · rw [dmaPhase_of_not_enabled he] at hk
    refine (h.job k hk).resolve_right fun ⟨_, hr⟩ => ?_
    simp [(dmaEnabled_iff s).2 ⟨hr, h.mode, h.bus⟩] at he
  · rcases dmaPhase_cases s with hn | ⟨j, -, hj, -⟩
    · exact dmaPhase_job_left he (hn ▸ hk) (h.progress_le (hn ▸ hk)) hk
    · exact dmaPhase_job_left he hj (h.progress_le hj) hk

/-- The later phases take a state at rest to one with the invariant. -/
theorem AtRest.inv_laterPhases {s : State} (h : AtRest s) (hx : s.x[0] = 0#32) (hm : Memory.wf s.mem) :
    State.Inv (dmaPhase (busPhase s)) := by
  rw [busPhase_of_no_request (by rw [h.bus])]
  have hd := dmaPhase_engineOnly s
  have hmode := hd.kept.mode.trans h.mode
  have hbus := hd.bus.trans h.bus
  exact {
    zero := by rw [hd.kept.x]; exact hx
    single := .inl (by rw [hbus])
    idle := fun _ => hbus
    awaiting := fun p hp => by cases hmode.symm.trans hp
    stopped := fun p hp => by cases hmode.symm.trans hp
    job := fun j hj => .inl (h.dmaPhase_job hj)
    memory := keptByWrite_wf.dmaPhase hm }

/-- Only a store asks for a write (R148). -/
theorem eq_store_of_asks_write {n : AccessSize} {a v : Word} {p : Pending} (h : Request.asks (.write n a v) p = true) :
    p = .store := by
  cases p with
  | load rd m sg => cases h
  | store => rfl

/-- A job that stands after a request was served is unfinished, or empty and armed by that request, a store (R72, R84). -/
theorem Requesting.served_job {s t : State} {r : Request} {p : Pending} (h : Requesting s r p) (ht : Served r s t)
    {j : Job} (hj : t.dma = some j) :
    j.progress < j.length ∨ (j.progress = 0#32 ∧ j.length = 0#32 ∧ t.run = .running ∧ t.mode = .awaitingMemory .store) := by
  rcases ht.dma with hd | ⟨-, a, v, src, dst, length, rfl, hd⟩
  · exact .inl (h.job j (hd ▸ hj))
  · cases hd.symm.trans hj
    have hp := eq_store_of_asks_write h.asks
    by_cases hl : length = 0#32
    · exact .inr ⟨rfl, hl, ht.run.trans h.run, hp ▸ ht.kept.mode.trans h.mode⟩
    · exact .inl (by simp only; bv_omega)

/-- The service of a request, or the stop it raises, leads to a state with the invariant (R62, R151). -/
theorem Requesting.inv_busPhase {s : State} {r : Request} {p : Pending} (h : Requesting s r p) (hx : s.x[0] = 0#32)
    (hm : Memory.wf s.mem) : State.Inv (busPhase s) := by
  rw [busPhase_of_request h.run h.bus]
  rcases service_cases r s with ⟨e, he⟩ | ht
  · rw [he]
    exact {
      zero := hx
      single := .inr (by simp [h.bus])
      idle := fun hi => by cases h.mode.symm.trans hi
      awaiting := fun q _ hr => by cases hr
      stopped := fun q hq _ => by cases h.mode.symm.trans hq; exact ⟨r, by simp [h.bus], h.asks⟩
      job := fun j hj => .inl (h.job j hj)
      memory := hm }
  · have hmode := ht.kept.mode.trans h.mode
    obtain ⟨d, hd, hans⟩ := ht.bus
    exact {
      zero := by rw [ht.kept.x]; exact hx
      single := .inl (by rw [hd])
      idle := fun hi => by cases hmode.symm.trans hi
      awaiting := fun q hq _ => by cases hmode.symm.trans hq; exact ⟨by rw [hd], d, by rw [hd], hans p h.asks⟩
      stopped := fun q _ hr => (hr (ht.run.trans h.run)).elim
      job := fun j hj => h.served_job ht hj
      memory := by
        have := keptByWrite_wf.busPhase hm
        rwa [busPhase_of_request h.run h.bus] at this }

/-- The later phases take a state with an issued request to one with the invariant: the CPU waits, so the DMA engine does
nothing (R80). -/
theorem Requesting.inv_laterPhases {s : State} {r : Request} {p : Pending} (h : Requesting s r p) (hx : s.x[0] = 0#32)
    (hm : Memory.wf s.mem) : State.Inv (dmaPhase (busPhase s)) := by
  have hshut : dmaEnabled (busPhase s) = false := by
    simp [dmaEnabled, (busPhase_cpuKept s).mode, h.mode]
  rw [dmaPhase_of_not_enabled hshut]
  exact h.inv_busPhase hx hm

/-- Every job of an idle machine with the invariant is unfinished. -/
theorem State.Inv.job_of_idle {s : State} (h : State.Inv s) (hm : s.mode = .idle) {j : Job} (hj : s.dma = some j) :
    j.progress < j.length :=
  (h.job j hj).resolve_right fun ⟨_, _, _, hw⟩ => by cases hm.symm.trans hw

/-- An execution that issues nothing leaves the machine at rest. -/
theorem State.Inv.atRest_of_cpuOnly {s t : State} (h : State.Inv s) (hm : s.mode = .idle) (ht : CpuOnly s t) :
    AtRest t where
  mode := ht.mode.trans hm
  bus := ht.bus.trans (h.idle hm)
  job := fun _ hj => .inl (h.job_of_idle hm (ht.dma ▸ hj))

/-- The completion of a transaction leaves the machine at rest; the store that armed an empty job is no longer outstanding. -/
theorem State.Inv.atRest_of_complete {s t : State} {p : Pending} {r : Response} (h : State.Inv s) (hr : s.run = .running)
    (hm : s.mode = .awaitingMemory p) (ht : complete p r s = .next t) : AtRest t := by
  obtain ⟨i, v, rfl⟩ := complete_eq_next ht
  refine ⟨rfl, by simp [(h.awaiting p hm hr).1], fun j hj => ?_⟩
  refine (h.job j (by simpa using hj)).imp id fun ⟨h0, hl, _, _⟩ => ⟨by simp [h0, hl], by simpa using hr⟩

/-- The CPU phase of a running machine with the invariant leaves nothing outstanding or a request it has issued (R143). -/
theorem State.Inv.cpuPhase {s t : State} (h : State.Inv s) (hr : s.run = .running) (ht : cpuPhase s = .next t) :
    AtRest t ∨ ∃ r p, Requesting t r p := by
  rcases cpuPhase_next ht with ⟨hm, e, rfl⟩ | ⟨hm, w, i, -, -, hex⟩ | ⟨p, hm, hrsp, -⟩ | ⟨p, r, hm, -, hc⟩
  · exact .inl (h.atRest_of_cpuOnly hm (cpuOnly_stop e s))
  · rcases exec_next hex with ho | ⟨r, p, hasks, -, rfl⟩
    · exact .inl (h.atRest_of_cpuOnly hm ho)
    · exact .inr ⟨r, p, hr, rfl, rfl, hasks, fun _ hj => h.job_of_idle hm hj⟩
  · obtain ⟨-, r, hsome, -⟩ := h.awaiting p hm hr
    cases hrsp.symm.trans hsome
  · exact .inl (h.atRest_of_complete hr hm hc)

/-- The number of the tick is no part of the invariant. -/
theorem State.Inv.beginTick {s : State} (h : State.Inv s) : State.Inv s.beginTick := { h with }

/-- A tick keeps the invariant of R35. -/
theorem State.Inv.step {s t : State} (h : State.Inv s) (ht : step s = .next t) : State.Inv t := by
  rcases step_next ht with ⟨-, rfl⟩ | ⟨hr, -, u, hu, rfl⟩
  · exact h
  have hf := cpuPhase_frame hu
  have hx : u.x[0] = 0#32 := hf.zero.trans h.zero
  have hm : Memory.wf u.mem := hf.mem ▸ h.memory
  rcases h.beginTick.cpuPhase hr hu with hrest | ⟨r, p, hreq⟩
  · exact hrest.inv_laterPhases hx hm
  · exact hreq.inv_laterPhases hx hm

/-! ### What no tick reads: the `f` registers and the histories (R27, R34)

The state with other `f` registers and with entries put before its histories: a tick commutes with this change. -/

/-- The state with the `f` registers `g`, and with `o` and `p` before the histories. -/
def State.rebased (g : Vector Word 32) (o : List Byte) (p : List PEvent) (s : State) : State :=
  { s with f := g, out := o ++ s.out, pevents := p ++ s.pevents }

/-- A change of the next state, where there is one. -/
def onNext (φ : State → State) : Result → Result
  | .next s => .next (φ s)
  | .fault e => .fault e
  | .refused e => .refused e

section
variable (g : Vector Word 32) (o : List Byte) (p : List PEvent)

theorem writeX_rebased (i : RegIdx) (v : Word) (s : State) :
    (s.rebased g o p).writeX i v = (s.writeX i v).rebased g o p := by
  unfold State.writeX; split <;> rfl

theorem emit_rebased (bs : List Byte) (s : State) : (s.rebased g o p).emit bs = (s.emit bs).rebased g o p := by
  simp [State.emit, State.rebased]

theorem record_rebased (d : Nat) (k : Direction) (n : AccessSize) (a v : Word) (s : State) :
    (s.rebased g o p).record d k n a v = (s.record d k n a v).rebased g o p := by
  simp [State.record, State.rebased]

theorem retire_rebased (rd : RegIdx) (v : Word) (s : State) :
    retire rd v (s.rebased g o p) = onNext (State.rebased g o p) (retire rd v s) := by
  rw [retire, writeX_rebased]; rfl

theorem jump_rebased (rd : RegIdx) (target : Word) (s : State) :
    jump rd target (s.rebased g o p) = onNext (State.rebased g o p) (jump rd target s) := by
  rw [jump, writeX_rebased]; rfl

theorem branch_rebased (taken : Bool) (imm : Word) (s : State) :
    branch taken imm (s.rebased g o p) = onNext (State.rebased g o p) (branch taken imm s) := by
  cases taken <;> rfl

theorem issue_rebased (r : Request) (q : Pending) (s : State) :
    issue r q (s.rebased g o p) = onNext (State.rebased g o p) (issue r q s) := by
  simp only [issue, apply_ite (onNext _)]; rfl

theorem servicePrintInt_rebased (s : State) :
    servicePrintInt (s.rebased g o p) = onNext (State.rebased g o p) (servicePrintInt s) := by
  rw [servicePrintInt, emit_rebased]; rfl

theorem servicePrintString_rebased (s : State) :
    servicePrintString (s.rebased g o p) = onNext (State.rebased g o p) (servicePrintString s) := by
  have hread : collectString (s.rebased g o p).mem ((s.rebased g o p).readX 10#5) (2 ^ 32)
      ((s.rebased g o p).readX 10#5) = collectString s.mem (s.readX 10#5) (2 ^ 32) (s.readX 10#5) := rfl
  rw [servicePrintString, servicePrintString, hread]
  split
  · rfl
  · rw [emit_rebased]; rfl

theorem serviceWrite_rebased (s : State) :
    serviceWrite (s.rebased g o p) = onNext (State.rebased g o p) (serviceWrite s) := by
  have hread (i : RegIdx) : (s.rebased g o p).readX i = s.readX i := rfl
  have hmem : (s.rebased g o p).mem = s.mem := rfl
  rw [serviceWrite, serviceWrite, hread, hread, hread, hmem]
  split
  · rfl
  · split
    · rfl
    · rw [emit_rebased, writeX_rebased]; rfl

theorem execEcall_rebased (s : State) :
    execEcall (s.rebased g o p) = onNext (State.rebased g o p) (execEcall s) := by
  simp only [execEcall, apply_ite (onNext _), ← servicePrintInt_rebased, ← servicePrintString_rebased,
    ← serviceWrite_rebased]
  rfl

theorem exec_rebased (i : Instr) (s : State) :
    exec i (s.rebased g o p) = onNext (State.rebased g o p) (exec i s) := by
  cases i with
  | jal => exact jump_rebased ..
  | jalr => exact jump_rebased ..
  | beq => exact branch_rebased ..
  | bne => exact branch_rebased ..
  | blt => exact branch_rebased ..
  | bge => exact branch_rebased ..
  | bltu => exact branch_rebased ..
  | bgeu => exact branch_rebased ..
  | lb => exact issue_rebased ..
  | lh => exact issue_rebased ..
  | lw => exact issue_rebased ..
  | lbu => exact issue_rebased ..
  | lhu => exact issue_rebased ..
  | sb => exact issue_rebased ..
  | sh => exact issue_rebased ..
  | sw => exact issue_rebased ..
  | fence => rfl
  | ecall => exact execEcall_rebased ..
  | ebreak => rfl
  | _ => exact retire_rebased ..

theorem complete_rebased (q : Pending) (r : Response) (s : State) :
    complete q r (s.rebased g o p) = onNext (State.rebased g o p) (complete q r s) := by
  cases q with
  | store => rfl
  | load rd n sg =>
    cases hd : r.data with
    | none => simp [complete, hd, onNext]
    | some d => simp only [complete, hd, writeX_rebased]; rfl

theorem decodeExecute_rebased (w : Word) (s : State) :
    decodeExecute w (s.rebased g o p) = onNext (State.rebased g o p) (decodeExecute w s) := by
  unfold decodeExecute
  split
  · exact exec_rebased ..
  · rfl
  · rfl

theorem cpuPhase_rebased (s : State) :
    cpuPhase (s.rebased g o p) = onNext (State.rebased g o p) (cpuPhase s) := by
  have hmode : (s.rebased g o p).mode = s.mode := rfl
  have hbus : (s.rebased g o p).bus = s.bus := rfl
  have hfetch : fetch (s.rebased g o p) = fetch s := rfl
  rw [cpuPhase, cpuPhase, hmode, hbus, hfetch]
  split
  · split
    · rfl
    · exact decodeExecute_rebased ..
  · split
    · rfl
    · exact complete_rebased ..

theorem peripheralAccess_rebased (d : Nat) (r : Request) (s : State) :
    peripheralAccess d r (s.rebased g o p) = (peripheralAccess d r s).rebased g o p := by
  cases r <;> rw [peripheralAccess, record_rebased] <;> rfl

theorem armDma_rebased (v : Word) (s : State) : armDma v (s.rebased g o p) = (armDma v s).rebased g o p := by
  have hdma : (s.rebased g o p).dma = s.dma := rfl
  rw [armDma, armDma, hdma]
  split <;> rfl

theorem dmaCtrlRequest_rebased (r : Request) (s : State) :
    dmaCtrlRequest r (s.rebased g o p) = (dmaCtrlRequest r s).rebased g o p := by
  have hcfg : (s.rebased g o p).cfg = s.cfg := rfl
  unfold dmaCtrlRequest
  split
  · rw [hcfg]
    split
    · exact armDma_rebased ..
    · rfl
  · rfl

theorem flatAccess_rebased (r : Request) (s : State) :
    flatAccess r (s.rebased g o p) = (flatAccess r s).rebased g o p := by
  have hmem : (s.rebased g o p).mem = s.mem := rfl
  cases r with
  | read n a =>
    simp only [flatAccess, hmem]
    split <;> rfl
  | write n a v => rfl

theorem service_rebased (r : Request) (s : State) :
    service r (s.rebased g o p) = (service r s).rebased g o p := by
  have hcfg : (s.rebased g o p).cfg = s.cfg := rfl
  rw [service, service, hcfg]
  split
  · exact peripheralAccess_rebased ..
  · split
    · exact dmaCtrlRequest_rebased ..
    · exact flatAccess_rebased ..

theorem busPhase_rebased (s : State) : busPhase (s.rebased g o p) = (busPhase s).rebased g o p := by
  have hrun : (s.rebased g o p).run = s.run := rfl
  have hbus : (s.rebased g o p).bus = s.bus := rfl
  rw [busPhase, busPhase, hrun, hbus]
  split
  · split
    · exact service_rebased ..
    · rfl
  · rfl

theorem dmaFinish_rebased (j : Job) (s : State) : dmaFinish j (s.rebased g o p) = (dmaFinish j s).rebased g o p := by
  unfold dmaFinish
  split
  · rw [dmaComplete_eq, dmaComplete_eq]; rfl
  · rfl

theorem dmaStep_rebased (j : Job) (s : State) : dmaStep j (s.rebased g o p) = (dmaStep j s).rebased g o p := by
  have hmem : (s.rebased g o p).mem = s.mem := rfl
  rw [dmaStep, dmaStep, hmem]
  split
  · split
    · rfl
    · next b _ => exact dmaFinish_rebased g o p _ { s with mem := s.mem.write _ b, dma := some _ }
  · exact dmaFinish_rebased ..

theorem dmaPhase_rebased (s : State) : dmaPhase (s.rebased g o p) = (dmaPhase s).rebased g o p := by
  have henabled : dmaEnabled (s.rebased g o p) = dmaEnabled s := rfl
  have hdma : (s.rebased g o p).dma = s.dma := rfl
  rw [dmaPhase, dmaPhase, henabled, hdma]
  split
  · split
    · exact dmaStep_rebased ..
    · rfl
  · rfl

theorem afterCpu_rebased (r : Result) :
    afterCpu (onNext (State.rebased g o p) r) = onNext (State.rebased g o p) (afterCpu r) := by
  cases r with
  | next s => simp only [onNext, afterCpu, busPhase_rebased, dmaPhase_rebased]
  | fault e => rfl
  | refused e => rfl

theorem step_rebased (s : State) : step (s.rebased g o p) = onNext (State.rebased g o p) (step s) := by
  have hrun : (s.rebased g o p).run = s.run := rfl
  have hcfg : (s.rebased g o p).cfg = s.cfg := rfl
  have hbegin : (s.rebased g o p).beginTick = s.beginTick.rebased g o p := rfl
  rw [step, step, tick, tick, hrun, hcfg, hbegin, cpuPhase_rebased, afterCpu_rebased]
  split
  · rfl
  · split <;> rfl

end

/-- A tick leaves the `f` registers, adds entries to the histories, and does the same, with the same entries, under any other
`f` registers and histories: both ticks are the one of the state with empty histories, changed afterwards (R27, R34). -/
theorem step_rebase {s t : State} (h : step s = .next t) :
    ∃ eo ep, t.f = s.f ∧ t.out = s.out ++ eo ∧ t.pevents = s.pevents ++ ep ∧
      ∀ g o p, step { s with f := g, out := o, pevents := p } =
        .next { t with f := g, out := o ++ eo, pevents := p ++ ep } := by
  have hbase (g o p) : step { s with f := g, out := o, pevents := p } =
      onNext (State.rebased g o p) (step { s with out := [], pevents := [] }) := by
    rw [← step_rebased]; simp [State.rebased]
  have hs := hbase s.f s.out s.pevents
  cases hb : step { s with out := [], pevents := [] } with
  | next b =>
    rw [hb] at hs hbase
    cases h.symm.trans hs
    exact ⟨b.out, b.pevents, rfl, rfl, rfl, hbase⟩
  | fault e => rw [hb] at hs; cases h.symm.trans hs
  | refused e => rw [hb] at hs; cases h.symm.trans hs

/-! ### `x0` (R21) -/

/-- A register write changes that register alone, and none where it is `x0` (R20, R21). -/
theorem onlyReg_writeX (s : State) (i : RegIdx) (v : Word) : OnlyReg s (s.writeX i v) i v := fun k => by
  rw [State.readX_writeX]; simp only [and_comm]

/-! ### The obligations -/

/-- Settles O4: after the CPU phase the machine is at rest or has a request in its slot, and the later phases lead from
either kind of state to the invariant. -/
theorem everyStepKeepsInvariant : Obligations.EveryStepKeepsInvariant :=
  fun _ _ h ht => h.step ht

/-- Settles O39. -/
theorem onlyCpuChangesRegisters : Obligations.OnlyCpuChangesRegisters := fun s => by
  have hb := busPhase_cpuKept s
  have hd := (dmaPhase_engineOnly s).kept
  exact ⟨hb.x, hb.pc, hb.mode, hb.f, hb.out, hd.x, hd.pc, hd.mode, hd.f, hd.out⟩

/-- Settles O51: a tick changes memory only by writes of cells, and none makes a cell absent. -/
theorem presentCellsStayPresent : Obligations.PresentCellsStayPresent :=
  fun _ _ a h => (keptByWrite_isSome a).step h

/-- Settles O52: a tick commutes with a change of what its histories begin with. -/
theorem historiesGrowAndAreNotRead : Obligations.HistoriesGrowAndAreNotRead := fun s t h => by
  obtain ⟨eo, ep, hf, hout, hpev, hall⟩ := step_rebase h
  refine ⟨eo, ep, hout, hpev, fun o p => ?_⟩
  simpa [← hf] using hall s.f o p

/-- Settles O53: a tick commutes with a change of the `f` registers. -/
theorem floatRegistersAreStorageOnly : Obligations.FloatRegistersAreStorageOnly := by
  refine ⟨fun s image start i h => ⟨?_, ?_⟩, fun s t h => ?_⟩
  · exact Vector.getElem_replicate h
  · exact Vector.getElem_replicate h
  · obtain ⟨eo, ep, hf, hout, hpev, hall⟩ := step_rebase h
    refine ⟨hf, step_cfg h, fun g => ?_⟩
    simpa [← hout, ← hpev] using hall g s.out s.pevents

/-- Settles O1: every field is 0 or empty by definition, and the image is read back cell by cell. -/
theorem resetAndLoadGiveZeroState : Obligations.ResetAndLoadGiveZeroState := by
  refine ⟨fun s => ⟨zeroed_resetWith s _, rfl, fun _ => rfl⟩, ⟨zeroed_resetWith State.reset 0, rfl, fun _ => rfl⟩,
    fun image start s hn => ⟨zeroed_hostLoad image start s, rfl, fun a b h => ?_, fun a h => ?_⟩⟩
  · exact read_installImage_inside [] hn h
  · exact read_installImage_outside image [] a h

/-- Settles O3: a zero state has no transaction and no job, and an installed image is canonical. -/
theorem invariantAfterResetAndLoad : Obligations.InvariantAfterResetAndLoad :=
  ⟨inv_of_zeroed (zeroed_resetWith State.reset 0) rfl Memory.wf_nil,
    fun s => inv_of_zeroed (zeroed_resetWith s s.draws) rfl Memory.wf_nil,
    fun image start s => inv_of_zeroed (zeroed_hostLoad image start s) rfl (wf_installImage Memory.wf_nil image)⟩

/-- Settles O23: a write to `x0` is no change of the state, so what is left of each operation is its other effects. -/
theorem zeroRegisterIsHardWired : Obligations.ZeroRegisterIsHardWired :=
  ⟨State.readX_zero, State.writeX_zero, onlyReg_writeX, fun _ _ => rfl, fun _ _ => rfl, fun _ _ _ _ => rfl, fun _ => rfl⟩

end Sys2Proof.Machine
end

section
/-! SUPPORT. Memory (20_memory.md): what reads and writes of several bytes give, how a request is routed, what the DMA engine
does in one enabled tick and in the ticks of a whole job, and what the tick of an issue can change. -/

namespace Sys2Proof.Machine

open Sys2Proof.Claims

/-! ### The byte addresses of an access (R57) -/

@[simp] theorem at_zero (a : Word) : at_ a 0 = a := by simp [at_]

/-- The bytes from `a + 1` on are those from `a` on but the first. -/
theorem at_add_one (a : Word) (i : Nat) : at_ (a + 1#32) i = at_ a (i + 1) := by
  rw [at_, at_, BitVec.add_assoc, ← BitVec.ofNat_add, Nat.add_comm]

/-- Up to the size of the address space an access does not come back to a byte. -/
theorem at_toNat_inj {a : Word} {i k : Nat} (hi : i < 2 ^ 32) (hk : k < 2 ^ 32) :
    (at_ a i).toNat = (at_ a k).toNat ↔ i = k := by
  rw [BitVec.toNat_inj, at_, at_, BitVec.add_right_inj, ← BitVec.toNat_inj, BitVec.toNat_ofNat, BitVec.toNat_ofNat,
    Nat.mod_eq_of_lt hi, Nat.mod_eq_of_lt hk]

/-! ### `MemRead` (R52, R54) -/

theorem wordOfBytes_one (b0 : Byte) : wordOfBytes [b0] = b0.setWidth 32 := by
  simp [wordOfBytes]

theorem wordOfBytes_two (b0 b1 : Byte) : wordOfBytes [b0, b1] = (b1 ++ b0 : BitVec 16).setWidth 32 := by
  ext i hi
  simp only [wordOfBytes, BitVec.getElem_setWidth, BitVec.getLsbD_append]
  interval_cases i <;> simp [BitVec.getLsbD_eq_getElem]

theorem wordOfBytes_four (b0 b1 b2 b3 : Byte) : wordOfBytes [b0, b1, b2, b3] = (b3 ++ b2 ++ b1 ++ b0 : BitVec 32) := by
  refine BitVec.eq_of_getLsbD_eq fun i hi => ?_
  simp only [wordOfBytes, BitVec.getLsbD_append]
  interval_cases i <;> simp [BitVec.getLsbD_eq_getElem]

/-- `MemRead` of present bytes is their word (R54). -/
theorem Memory.memRead_of_present {m : Memory} {a : Word} {bs : List Byte}
    (h : ∀ i (hi : i < bs.length), m.read (at_ a i).toNat = some bs[i]) :
    m.memRead a bs.length = .ok (wordOfBytes bs) := by
  rw [Memory.memRead, Memory.readBytes_eq_ok.2 ⟨rfl, h⟩]

/-- `MemRead` raises for the first absent byte, and for no other reason (R54). -/
theorem Memory.memRead_eq_error {m : Memory} {a e : Word} {n : Nat} :
    m.memRead a n = .error e ↔ FirstAbsent m a n e := by
  have hbytes : m.memRead a n = .error e ↔ m.readBytes n a = .error e := by
    unfold Memory.memRead
    cases m.readBytes n a <;> simp
  rw [hbytes, Memory.readBytes_eq_error]
  constructor
  · rintro ⟨k, hk, rfl, hnone, hsome⟩
    exact ⟨k, hk, hsome, hnone, rfl⟩
  · rintro ⟨k, hk, hsome, hnone, rfl⟩
    exact ⟨k, hk, rfl, hnone, hsome⟩

/-! ### Routing of a request (R62, R66 to R74) -/

theorem ownedBy_iff (c : Config) (d : Nat) (a : Word) :
    OwnedBy c d a ↔ ∃ p, c.peripherals[d]? = some p ∧ Peripheral.owns p a = true := by
  simp only [OwnedBy, Peripheral.owns_iff]

/-- The model's owner of an address is the first device that owns it (R66). -/
theorem ownerOf_eq_some_iff (c : Config) (d : Nat) (a : Word) : ownerOf c a = some d ↔ FirstOwner c d a := by
  rw [ownerOf_eq_some, FirstOwner, ownedBy_iff]
  simp only [ownedBy_iff, not_exists, not_and, Bool.not_eq_true]

/-- The model finds no owner exactly where no device owns the address (R66). -/
theorem ownerOf_eq_none_iff (c : Config) (a : Word) : ownerOf c a = none ↔ ¬ Owned c a := by
  simp only [ownerOf_eq_none, Owned, ownedBy_iff, List.mem_iff_getElem?, not_exists, not_and, Bool.not_eq_true]
  exact ⟨fun h d p hd => h p ⟨d, hd⟩, fun h p ⟨d, hd⟩ => h d p hd⟩

/-- The model's test for the control word is the statements' own (R62 test 2). -/
theorem meetsDmaCtrl_eq_true (c : Config) (a : Word) (n : Nat) : meetsDmaCtrl c a n = true ↔ MeetsControl c a n :=
  meetsDmaCtrl_iff c a n

theorem zeroExtended_eq_lowBits (n : AccessSize) (v : Word) : zeroExtended n v = lowBits n false v := by
  cases n with
  | byte => exact congrArg (BitVec.setWidth 32) (BitVec.setWidth_eq_extractLsb' (by decide)).symm
  | half => exact congrArg (BitVec.setWidth 32) (BitVec.setWidth_eq_extractLsb' (by decide)).symm
  | word => simp [zeroExtended, lowBits, AccessSize.bytes]

/-- A request to an address a device owns goes to the first such device (R62 test 1). -/
theorem service_of_firstOwner {s : State} {r : Request} {d : Nat} (h : FirstOwner s.cfg d r.address) :
    service r s = peripheralAccess d r s := by
  rw [service, (ownerOf_eq_some_iff _ _ _).2 h]

/-- A request that meets the control word, at an address no device owns, goes to it (R62 test 2). -/
theorem service_of_meetsControl {s : State} {r : Request} (ho : ¬ Owned s.cfg r.address)
    (hm : MeetsControl s.cfg r.address r.size.bytes) : service r s = dmaCtrlRequest r s := by
  rw [service, (ownerOf_eq_none_iff _ _).2 ho]
  simp only [(meetsDmaCtrl_eq_true _ _ _).2 hm, if_true]

/-- A word at the address of the control word meets it. -/
theorem meetsControl_self {c : Config} {D : Word} (h : c.dmaCtrlAddr = some D) : MeetsControl c D 4 :=
  ⟨D, h, 0, by decide, 0, by decide, rfl⟩

/-- A request at the control word that is no word write to its address stops the run (R74). -/
theorem dmaCtrlRequest_of_not_arming {s : State} {r : Request}
    (h : ∀ D v, s.cfg.dmaCtrlAddr = some D → r ≠ .write .word D v) :
    dmaCtrlRequest r s = s.stop (.modelFault (.dmaCtrlAccess (.request r))) := by
  unfold dmaCtrlRequest
  split
  · next a v => rw [if_neg fun ha => h a v ha rfl]
  · rfl

/-! ### One enabled tick of the DMA engine (R80 to R84) -/

theorem dmaEnabled_eq_true (s : State) : dmaEnabled s = true ↔ GateOpen s := by
  simp [dmaEnabled, GateOpen, and_assoc]

/-- The end of an enabled tick leaves memory as the copy left it (R83). -/
@[simp] theorem dmaFinish_mem (j : Job) (s : State) : (dmaFinish j s).mem = s.mem := by
  unfold dmaFinish
  split
  · rw [dmaComplete_eq]
  · rfl

section
variable {s : State} {j : Job} (hg : GateOpen s) (hj : s.dma = some j)
include hg hj

theorem dmaPhase_of_job : dmaPhase s = dmaStep j s := by
  simp [dmaPhase, (dmaEnabled_eq_true s).2 hg, hj]

/-- An absent source byte stops the run (R82). -/
theorem dmaPhase_absent (hl : j.progress < j.length) (hb : s.mem.read (j.src + j.progress).toNat = none) :
    dmaPhase s = s.stop (.memoryError (j.src + j.progress)) := by
  rw [dmaPhase_of_job hg hj, dmaStep, if_pos hl, hb]

/-- A present source byte is copied, then completion is looked at (R81). -/
theorem dmaPhase_present {b : Byte} (hl : j.progress < j.length)
    (hb : s.mem.read (j.src + j.progress).toNat = some b) :
    dmaPhase s = dmaFinish { j with progress := j.progress + 1#32 }
      { s with mem := s.mem.write (j.dst + j.progress).toNat b, dma := some { j with progress := j.progress + 1#32 } } := by
  rw [dmaPhase_of_job hg hj, dmaStep, if_pos hl, hb]

/-- A copy that leaves bytes to copy moves the progress on (R81). -/
theorem dmaPhase_goes_on {b : Byte} (hl : j.progress < j.length)
    (hb : s.mem.read (j.src + j.progress).toNat = some b) (hne : j.progress + 1#32 ≠ j.length) :
    dmaPhase s =
      { s with mem := s.mem.write (j.dst + j.progress).toNat b, dma := some { j with progress := j.progress + 1#32 } } := by
  rw [dmaPhase_present hg hj hl hb, dmaFinish, if_neg hne]

/-- The copy of the last byte completes the job (R83). -/
theorem dmaPhase_last {b : Byte} (hl : j.progress < j.length)
    (hb : s.mem.read (j.src + j.progress).toNat = some b) (he : j.progress + 1#32 = j.length) :
    dmaPhase s =
      { s with mem := s.mem.write (j.dst + j.progress).toNat b, dma := none,
               run := if s.cfg.dmaCompletionHalts then .stopped .dmaComplete else .running } := by
  rw [dmaPhase_present hg hj hl hb, dmaFinish, if_pos he, dmaComplete_eq, hg.1]

/-- An empty or finished job completes without a copy (R84). -/
theorem dmaPhase_finished (he : j.progress = j.length) :
    dmaPhase s =
      { s with dma := none, run := if s.cfg.dmaCompletionHalts then .stopped .dmaComplete else .running } := by
  rw [dmaPhase_of_job hg hj, dmaStep, if_neg (by simp [he]), dmaFinish, if_pos he, dmaComplete_eq, hg.1]

/-- An enabled tick is seen in the job or in the run: the job is destroyed or moves on, or the run stops (R80). -/
theorem dmaPhase_ne_self (hl : j.progress ≤ j.length) : dmaPhase s ≠ s := by
  intro h
  have hrun : (dmaPhase s).run = .running := by rw [h]; exact hg.1
  have hdma : (dmaPhase s).dma = some j := by rw [h]; exact hj
  by_cases he : j.progress = j.length
  · rw [dmaPhase_finished hg hj he] at hdma
    cases hdma
  have hlt : j.progress < j.length := BitVec.lt_of_le_ne hl he
  cases hb : s.mem.read (j.src + j.progress).toNat with
  | none =>
    rw [dmaPhase_absent hg hj hlt hb] at hrun
    cases hrun
  | some b =>
    by_cases hlast : j.progress + 1#32 = j.length
    · rw [dmaPhase_last hg hj hlt hb hlast] at hdma
      cases hdma
    · rw [dmaPhase_goes_on hg hj hlt hb hlast] at hdma
      have hprogress : j.progress + 1#32 = j.progress := congrArg Job.progress (Option.some.inj hdma)
      bv_omega

end

/-! ### The ticks of a whole job (R81 to R86)

While its source bytes are present, a job from `src` to `dst` only rewrites memory byte by byte. `Memory.copied` is memory
after `k` of these copies; the state after `k` enabled ticks is then known field by field, and what a job does to its region
is a fact about `Memory.copied` alone. -/

/-- Memory after `k` copies, each of which reads what the ones before it have left (R81, R85). -/
def Memory.copied (m : Memory) (src dst : Word) : Nat → Memory
  | 0 => m
  | k + 1 =>
    match (m.copied src dst k).read (at_ src k).toNat with
    | none => m.copied src dst k
    | some b => (m.copied src dst k).write (at_ dst k).toNat b

section
variable {m : Memory} {src dst : Word}

theorem Memory.copied_succ {k : Nat} {b : Byte} (h : (m.copied src dst k).read (at_ src k).toNat = some b) :
    m.copied src dst (k + 1) = (m.copied src dst k).write (at_ dst k).toNat b := by
  rw [Memory.copied, h]

/-- The copies change no cell outside the destination bytes they have reached. -/
theorem Memory.read_copied_outside {k a : Nat} (h : ∀ i < k, a ≠ (at_ dst i).toNat) :
    (m.copied src dst k).read a = m.read a := by
  induction k with
  | zero => rfl
  | succ k ih =>
    have hk := ih fun i hi => h i (by omega)
    cases hb : (m.copied src dst k).read (at_ src k).toNat with
    | none => rw [Memory.copied, hb]; exact hk
    | some b => rw [Memory.copied_succ hb, Memory.read_write_other _ _ (h k (by omega)).symm, hk]

/-- Where no destination byte is a source byte, a source byte is read as it was (R85). -/
theorem Memory.read_copied_source {b : Nat → Byte} {L k i : Nat} (hb : ∀ i < L, m.read (at_ src i).toNat = some (b i))
    (hd : ∀ i < L, ∀ k < L, at_ dst i ≠ at_ src k) (hk : k ≤ L) (hi : i < L) :
    (m.copied src dst k).read (at_ src i).toNat = some (b i) := by
  rw [Memory.read_copied_outside, hb i hi]
  exact fun i' hi' h => hd i' (by omega) i hi (BitVec.eq_of_toNat_eq h).symm

/-- Where no destination byte is a source byte, the destination bytes reached hold the source's bytes (R85). -/
theorem Memory.read_copied_inside {b : Nat → Byte} {L k i : Nat} (hb : ∀ i < L, m.read (at_ src i).toNat = some (b i))
    (hd : ∀ i < L, ∀ k < L, at_ dst i ≠ at_ src k) (hL : L ≤ 2 ^ 32) (hk : k ≤ L) (hi : i < k) :
    (m.copied src dst k).read (at_ dst i).toNat = some (b i) := by
  induction k with
  | zero => omega
  | succ k ih =>
    rw [Memory.copied_succ (Memory.read_copied_source hb hd (by omega) (by omega)), Memory.read_write]
    simp only [at_toNat_inj (show k < 2 ^ 32 by omega) (show i < 2 ^ 32 by omega)]
    split
    · next h => rw [h]
    · exact ih (by omega) (by omega)

/-- With the destination one above the source, each copy reads the byte the one before it has written: all the bytes reached
hold the first source byte (R85). -/
theorem Memory.read_copied_overlap {b : Byte} {k i : Nat} (hb : m.read src.toNat = some b) (hk : k < 2 ^ 32)
    (hi : i ≤ k) : (m.copied src (src + 1#32) k).read (at_ src i).toNat = some b := by
  induction k generalizing i with
  | zero =>
    obtain rfl : i = 0 := by omega
    rwa [at_zero]
  | succ k ih =>
    rw [Memory.copied_succ (ih (by omega) le_rfl), Memory.read_write, at_add_one]
    simp only [at_toNat_inj hk (show i < 2 ^ 32 by omega)]
    split
    · rfl
    · exact ih (by omega) (by omega)

end

/-- The state of `s` after `k` copies, with bytes left to copy. -/
def State.copying (s : State) (src dst length : Word) (k : Nat) : State :=
  { s with mem := s.mem.copied src dst k, dma := some ⟨src, dst, length, BitVec.ofNat 32 k⟩ }

/-- The state of `s` after the whole job (R83). -/
def State.copiedAll (s : State) (src dst length : Word) : State :=
  { s with mem := s.mem.copied src dst length.toNat, dma := none,
           run := if s.cfg.dmaCompletionHalts then .stopped .dmaComplete else .running }

theorem engineTicks_succ (k : Nat) (s : State) : engineTicks (k + 1) s = dmaPhase (engineTicks k s) := by
  induction k generalizing s with
  | zero => rfl
  | succ k ih => exact ih (dmaPhase s)

section
variable {s : State} {src dst length : Word} (hg : GateOpen s)
  (hp : ∀ k < length.toNat, ((s.mem.copied src dst k).read (at_ src k).toNat).isSome)
include hg hp

/-- One enabled tick in the course of a job (R81, R83). -/
theorem dmaPhase_copying {k : Nat} (hk : k < length.toNat) :
    dmaPhase (s.copying src dst length k) =
      if k + 1 < length.toNat then s.copying src dst length (k + 1) else s.copiedAll src dst length := by
  obtain ⟨b, hb⟩ := Option.isSome_iff_exists.1 (hp k hk)
  have hgate : GateOpen (s.copying src dst length k) := hg
  have hlt : BitVec.ofNat 32 k < length := by bv_omega
  have hnext : BitVec.ofNat 32 k + 1#32 = BitVec.ofNat 32 (k + 1) := (BitVec.ofNat_add ..).symm
  split
  · next h =>
    rw [dmaPhase_goes_on hgate rfl hlt hb (by rw [hnext]; bv_omega), State.copying.eq_def s src dst length (k + 1),
      Memory.copied_succ hb, ← hnext]
    rfl
  · next h =>
    have hlast : length.toNat = k + 1 := by omega
    rw [dmaPhase_last hgate rfl hlt hb (by rw [hnext]; bv_omega), State.copiedAll, hlast, Memory.copied_succ hb]
    rfl

/-- Before its last byte a job has copied as many bytes as ticks have passed (R81). -/
theorem engineTicks_copying (hj : s.dma = some ⟨src, dst, length, 0#32⟩) {k : Nat} (hk : k < length.toNat) :
    engineTicks k s = s.copying src dst length k := by
  induction k with
  | zero => rw [State.copying, ← hj]; rfl
  | succ k ih => rw [engineTicks_succ, ih (by omega), dmaPhase_copying hg hp (by omega), if_pos hk]

/-- A job of length `L > 0` completes in its `L`-th enabled tick (R83, R86). -/
theorem engineTicks_copiedAll (hj : s.dma = some ⟨src, dst, length, 0#32⟩) (hl : length ≠ 0#32) :
    engineTicks length.toNat s = s.copiedAll src dst length := by
  obtain ⟨k, hk⟩ : ∃ k, length.toNat = k + 1 := ⟨length.toNat - 1, by bv_omega⟩
  rw [hk, engineTicks_succ, engineTicks_copying hg hp hj (by omega), dmaPhase_copying hg hp (by omega),
    if_neg (by omega)]

end

/-! ### A tick from the invariant (R61, R89) -/

/-- Only a word of the floating-point space is refused by the decoder (R116). -/
theorem decode_eq_refused {w v : Word} (h : decode w = .refused v) : v = w ∧ w.extractLsb' 0 7 ∈ refusedOpcodes := by
  unfold decode at h
  split at h
  · cases h
  · split at h
    · next hf =>
      cases h
      exact ⟨rfl, by simpa [isFloatingPoint, opcodeOf, refusedOpcodes, or_assoc] using hf⟩
    · cases h

/-- An idle CPU with an empty Bus has a next state, but for a fetched word the decoder refuses (R61, R116). -/
theorem cpuPhase_idle {s : State} (hm : s.mode = .idle) (hb : s.bus = emptyBus) :
    (∃ t, cpuPhase s = .next t) ∨
    ∃ w, fetch s = .ok w ∧ w.extractLsb' 0 7 ∈ refusedOpcodes ∧ cpuPhase s = .refused (.floatingPoint w) := by
  simp only [cpuPhase, hm]
  cases hf : fetch s with
  | error r => exact .inl ⟨_, rfl⟩
  | ok w =>
    simp only [decodeExecute]
    cases hd : decode w with
    | instr i =>
      cases he : exec i s with
      | next t => exact .inl ⟨t, he⟩
      | fault e => exact ((exec_fault he).2 hb).elim
      | refused e => exact (exec_not_refused i s e he).elim
    | refused v =>
      obtain ⟨rfl, hop⟩ := decode_eq_refused hd
      exact .inr ⟨v, rfl, hop, rfl⟩
    | illegal v => exact .inl ⟨_, rfl⟩

/-- A waiting CPU whose answer stands in the response slot completes (R150). -/
theorem cpuPhase_waiting {s : State} {p : Pending} {r : Response} (hm : s.mode = .awaitingMemory p)
    (hr : s.bus.rsp = some r) (ha : Response.answers r p = true) : ∃ t, cpuPhase s = .next t := by
  obtain ⟨t, ht, -⟩ := complete_next s ha
  exact ⟨t.resume, by simp only [cpuPhase, hm, hr, ht]⟩

/-- The CPU phase of a running machine with the invariant that ends with the CPU waiting is the issue of a load or store by
the fetched instruction (R148). -/
theorem issue_of_waiting {s u : State} (h : State.Inv s) (hr : s.run = .running) (hu : cpuPhase s = .next u)
    (hw : u.mode ≠ .idle) :
    ∃ w i r p, fetch s = .ok w ∧ decode w = .instr i ∧ exec i s = .next u ∧ Request.asks r p = true ∧ u = s.await r p := by
  rcases cpuPhase_next hu with ⟨hm, e, rfl⟩ | ⟨hm, w, i, hf, hd, hex⟩ | ⟨p, hm, hrsp, -⟩ | ⟨p, r, -, -, hc⟩
  · exact (hw hm).elim
  · rcases exec_next hex with ho | ⟨r, p, hasks, -, rfl⟩
    · exact (hw (ho.mode.trans hm)).elim
    · exact ⟨w, i, r, p, hf, hd, hex, hasks, rfl⟩
  · obtain ⟨-, r, hsome, -⟩ := h.awaiting p hm hr
    cases hrsp.symm.trans hsome
  · obtain ⟨i, v, rfl⟩ := complete_eq_next hc
    exact (hw rfl).elim

/-- A waiting CPU keeps the DMA engine idle (R80, R89). -/
theorem dmaPhase_of_waiting {s : State} (h : s.mode ≠ .idle) : dmaPhase s = s :=
  dmaPhase_of_not_enabled (by simp [dmaEnabled, h])

/-! ### The obligations -/

/-- Settles O5: an idle CPU has an empty Bus to issue into, and a waiting one has the answer it completes with. -/
theorem stepFromInvariantNeverFaults : Obligations.StepFromInvariantNeverFaults := fun s h hc => by
  by_cases hr : s.run = .running
  swap
  · exact .inl ⟨s, step_stopped hr⟩
  have hnext : (∃ t, cpuPhase s.beginTick = .next t) → ∃ t, step s = .next t := by
    rintro ⟨t, ht⟩
    exact ⟨_, by rw [step_running hr hc, ht]; rfl⟩
  cases hm : s.mode with
  | idle =>
    have hbus := h.idle hm
    refine (cpuPhase_idle (s := s.beginTick) hm hbus).imp hnext ?_
    rintro ⟨w, hf, hop, href⟩
    exact ⟨w, ⟨hr, hc, hm, hbus, hf⟩, hop, by rw [step_running hr hc, href]; rfl⟩
  | awaitingMemory p =>
    obtain ⟨-, r, hrsp, hans⟩ := h.awaiting p hm hr
    exact .inl (hnext (cpuPhase_waiting (s := s.beginTick) hm hrsp hans))

/-- Settles O26: the bytes read are a list, whose word is their concatenation. -/
theorem memReadIsLittleEndian : Obligations.MemReadIsLittleEndian := fun m a => by
  refine ⟨fun b0 h0 => ?_, fun b0 b1 h0 h1 => ?_, fun b0 b1 b2 b3 h0 h1 h2 h3 => ?_, fun n _ e => Memory.memRead_eq_error⟩
  · rw [← wordOfBytes_one]
    exact Memory.memRead_of_present (bs := [b0]) fun | 0, _ => h0
  · rw [← wordOfBytes_two]
    exact Memory.memRead_of_present (bs := [b0, b1]) fun | 0, _ => h0 | 1, _ => h1
  · rw [← wordOfBytes_four]
    exact Memory.memRead_of_present (bs := [b0, b1, b2, b3]) fun
      | 0, _ => h0
      | 1, _ => h1
      | 2, _ => h2
      | 3, _ => h3

/-- Settles O27: at most four bytes do not run over themselves. -/
theorem memWriteStoresBytes : Obligations.MemWriteStoresBytes := fun m a v n hn => by
  have hsize : n ≤ 2 ^ 32 := by
    simp only [List.mem_cons, List.not_mem_nil, or_false] at hn
    omega
  exact ⟨fun i hi => Memory.read_memWrite_inside m a n v hsize i hi,
    fun c hc => Memory.read_memWrite_outside m a n v c hc, fun h => Memory.wf_memWrite h a n v⟩

/-- Settles O31: the device test comes first in the service of a request. -/
theorem peripheralReceivesRequest : Obligations.PeripheralReceivesRequest := fun s d n a v hr ho => by
  refine ⟨fun hb => ⟨s.ticks, ?_⟩, fun hb => ⟨s.ticks, ?_⟩⟩
  · rw [busPhase_of_request hr hb, service_of_firstOwner ho, ← zeroExtended_eq_lowBits]
    rfl
  · rw [busPhase_of_request hr hb, service_of_firstOwner ho, ← zeroExtended_eq_lowBits]
    rfl

/-- Settles O32: a word write to the control word's own address meets it, and arms. -/
theorem controlWriteArmsEngine : Obligations.ControlWriteArmsEngine := fun s D v hr hD ho hb => by
  have hphase : busPhase s = armDma v s := by
    rw [busPhase_of_request hr hb, service_of_meetsControl ho (meetsControl_self hD), dmaCtrlRequest, if_pos hD]
  refine ⟨fun hn => ?_, fun j hj => ?_⟩
  · rw [hphase, armDma, hn]
    rfl
  · rw [hphase, armDma, hj]
    rfl

/-- Settles O33: the request meets the control word and is not the one that arms. -/
theorem otherControlAccessStops : Obligations.OtherControlAccessStops := fun s r hr hb ho hm hne => by
  rw [busPhase_of_request hr hb, service_of_meetsControl ho hm, dmaCtrlRequest_of_not_arming hne]
  rfl

/-- Settles O34: a shut gate or no job leaves nothing to do, and every enabled tick is seen in the job or in the run. -/
theorem engineActsExactlyWhenEnabled : Obligations.EngineActsExactlyWhenEnabled := by
  refine ⟨fun s h => ?_, fun s j hj hl hg => dmaPhase_ne_self hg hj hl⟩
  rcases dmaPhase_cases s with hs | ⟨j, he, hj, -⟩
  · exact hs
  · rcases h with h | h
    · exact (h ((dmaEnabled_eq_true s).1 he)).elim
    · cases h.symm.trans hj

/-- Settles O35: what the phase keeps it keeps in every case; memory, the job and the run follow from the copy. -/
theorem engineCopiesOneByte : Obligations.EngineCopiesOneByte := fun s j hg hj => by
  refine ⟨fun hl hb => dmaPhase_absent hg hj hl hb, ?_, fun he => dmaPhase_finished hg hj he⟩
  rintro b hl hb _ rfl
  have hmem : (dmaPhase s).mem = s.mem.write (j.dst + j.progress).toNat b := by
    rw [dmaPhase_present hg hj hl hb, dmaFinish_mem]
  have hkept := dmaPhase_engineOnly s
  refine ⟨by rw [hmem, Memory.read_write_self], fun a ha => by rw [hmem, Memory.read_write_other _ _ ha.symm],
    State.readX_congr hkept.kept.x, hkept.kept.f, hkept.kept.pc, hkept.kept.mode, hkept.bus, hkept.kept.out,
    hkept.pevents, hkept.draws, hkept.kept.cfg, fun hne => ?_, fun he => ?_⟩
  · rw [dmaPhase_goes_on hg hj hl hb hne]
    exact ⟨rfl, hg.1⟩
  · rw [dmaPhase_last hg hj hl hb he]
    exact ⟨rfl, rfl⟩

/-- Settles O36: by the state after each number of ticks, and the bytes of its memory. -/
theorem jobCopiesItsRegion : Obligations.JobCopiesItsRegion := fun s src dst length b hg hj hl hb hd => by
  have hp : ∀ k < length.toNat, ((s.mem.copied src dst k).read (at_ src k).toNat).isSome := fun k hk => by
    rw [Memory.read_copied_source hb hd hk.le hk, Option.isSome_some]
  refine ⟨fun k hk => ?_, ?_⟩
  · rw [engineTicks_copying hg hp hj hk]
    exact ⟨hg.1, rfl⟩
  · rw [engineTicks_copiedAll hg hp hj hl]
    exact ⟨rfl, rfl, fun i hi => Memory.read_copied_inside hb hd length.isLt.le le_rfl hi,
      fun a ha => Memory.read_copied_outside ha, fun _ => rfl, rfl⟩

/-- Settles O37: each copy reads the byte the one before it has written. -/
theorem overlappingJobReplicates : Obligations.OverlappingJobReplicates := fun s src length b hg hj hl hb => by
  have hread {k i : Nat} (hk : k ≤ length.toNat) (hi : i ≤ k) :
      (s.mem.copied src (src + 1#32) k).read (at_ src i).toNat = some b :=
    Memory.read_copied_overlap hb (hk.trans_lt length.isLt) hi
  rw [engineTicks_copiedAll hg (fun k hk => by rw [hread hk.le le_rfl, Option.isSome_some]) hj hl]
  refine ⟨rfl, fun i hi => ?_⟩
  rw [at_add_one]
  exact hread le_rfl hi

/-- Settles O38: the tick is an issue and its service; the engine's gate is shut while the CPU waits. -/
theorem noCopyWhileCpuWaits : Obligations.NoCopyWhileCpuWaits := fun s t h hr hs hw => by
  rcases step_next hs with ⟨hstopped, -⟩ | ⟨-, -, u, hu, rfl⟩
  · exact (hstopped hr).elim
  have hwait : u.mode ≠ .idle := by rwa [(laterPhases_cpuKept u).mode] at hw
  rw [dmaPhase_of_waiting (by rwa [(busPhase_cpuKept u).mode])]
  obtain ⟨w, i, r, p, hf, hd, hex, hasks, rfl⟩ := issue_of_waiting h.beginTick hr hu hwait
  rw [busPhase_of_request (s := s.beginTick.await r p) hr rfl]
  rcases service_cases r (s.beginTick.await r p) with ⟨e, he⟩ | hserved
  · rw [he]
    exact ⟨fun _ hj => hj, .inl, .inl rfl⟩
  · refine ⟨fun j hj => ?_, fun hn => ?_, ?_⟩
    · rcases hserved.dma with hk | ⟨hn, -⟩
      · exact hk.trans hj
      · cases hn.symm.trans hj
    · rcases hserved.dma with hk | ⟨-, _, _, src, dst, length, -, harmed⟩
      · exact .inl (hk.trans hn)
      · exact .inr ⟨src, dst, length, harmed⟩
    · rcases hserved.mem with hk | ⟨n, a, v, rfl, hwrite⟩
      · exact .inl hk
      · rw [eq_store_of_asks_write hasks] at hex
        exact .inr ⟨w, i, n, a, v, hf, hd, hex, hwrite⟩

end Sys2Proof.Machine
end

section
/-! SUPPORT. Encoding (30_encoding.md): the decoder by major opcode, the round trip in both directions, the opcode table, the
illegal and the refused words, and the stops a tick can raise, of which only the decoder's is a `DecodeError`. -/

namespace Sys2Proof

open Sys2Proof.Claims

/-! ### The decoder, by major opcode (R111, R112) -/

section
variable {w : Word}

theorem decodeRow_lui (h : opcodeOf w = 0b0110111#7) : decodeRow w = some (.lui (rdOf w) (immU w)) := by
  simp [decodeRow, h]

theorem decodeRow_auipc (h : opcodeOf w = 0b0010111#7) : decodeRow w = some (.auipc (rdOf w) (immU w)) := by
  simp [decodeRow, h]

theorem decodeRow_jal (h : opcodeOf w = 0b1101111#7) : decodeRow w = some (.jal (rdOf w) (immJ w)) := by
  simp [decodeRow, h]

theorem decodeRow_jalr (h : opcodeOf w = 0b1100111#7) :
    decodeRow w = if funct3Of w = 0b000#3 then some (.jalr (rdOf w) (rs1Of w) (immI w)) else none := by
  simp [decodeRow, h]

theorem decodeRow_branch (h : opcodeOf w = 0b1100011#7) :
    decodeRow w = decodeBranch (funct3Of w) (rs1Of w) (rs2Of w) (immB w) := by
  simp [decodeRow, h]

theorem decodeRow_load (h : opcodeOf w = 0b0000011#7) :
    decodeRow w = decodeLoad (funct3Of w) (rdOf w) (rs1Of w) (immI w) := by
  simp [decodeRow, h]

theorem decodeRow_store (h : opcodeOf w = 0b0100011#7) :
    decodeRow w = decodeStore (funct3Of w) (rs1Of w) (rs2Of w) (immS w) := by
  simp [decodeRow, h]

theorem decodeRow_opImm (h : opcodeOf w = 0b0010011#7) :
    decodeRow w = decodeOpImm (funct7Of w) (funct3Of w) (rdOf w) (rs1Of w) (rs2Of w) (immI w) := by
  simp [decodeRow, h]

theorem decodeRow_op (h : opcodeOf w = 0b0110011#7) :
    decodeRow w = decodeOp (funct7Of w) (funct3Of w) (rdOf w) (rs1Of w) (rs2Of w) := by
  simp [decodeRow, h]

theorem decodeRow_fence (h : opcodeOf w = 0b0001111#7) :
    decodeRow w = if funct3Of w = 0b000#3 then
      some (.fence (w.extractLsb' 28 4) (w.extractLsb' 24 4) (w.extractLsb' 20 4) (rs1Of w) (rdOf w)) else none := by
  simp [decodeRow, h]

theorem decodeRow_system (h : opcodeOf w = 0b1110011#7) :
    decodeRow w = if w = 0x00000073#32 then some .ecall else if w = 0x00100073#32 then some .ebreak else none := by
  simp [decodeRow, h]

end

/-- The major opcodes of the table's rows (R111): those of R116's refused space are not among them. -/
def rowOpcodes : List (BitVec 7) :=
  [0b0110111#7, 0b0010111#7, 0b1101111#7, 0b1100111#7, 0b1100011#7, 0b0000011#7, 0b0100011#7, 0b0010011#7, 0b0110011#7,
   0b0001111#7, 0b1110011#7]

/-- A word of no row's major opcode has no row. -/
theorem decodeRow_eq_none_of_opcode {w : Word} (h : opcodeOf w ∉ rowOpcodes) : decodeRow w = none := by
  have hecall : w ≠ 0x00000073#32 := by rintro rfl; exact h (by decide)
  have hebreak : w ≠ 0x00100073#32 := by rintro rfl; exact h (by decide)
  simp only [rowOpcodes, List.mem_cons, List.not_mem_nil, or_false, not_or] at h
  simp only [decodeRow, h, hecall, hebreak, if_false]

/-! ### FENCE (R112, R240): an I-format word whose twelve upper bits are three fields -/

theorem encode_fence (fm pred succ : BitVec 4) (rs1 rd : RegIdx) :
    encode (.fence fm pred succ rs1 rd) =
      encodeI ((fm ++ pred ++ succ : BitVec 12).setWidth 32) rs1 0b000#3 rd 0b0001111#7 := by
  have h : ((fm ++ pred ++ succ : BitVec 12).setWidth 32).extractLsb' 0 12 = fm ++ pred ++ succ := by
    ext i hi
    simp [hi, show i < 32 by omega]
  rw [encodeI, h, encode]

theorem extractLsb'_encode_fence (fm pred succ : BitVec 4) (rs1 rd : RegIdx) :
    (encode (.fence fm pred succ rs1 rd)).extractLsb' 28 4 = fm ∧
    (encode (.fence fm pred succ rs1 rd)).extractLsb' 24 4 = pred ∧
    (encode (.fence fm pred succ rs1 rd)).extractLsb' 20 4 = succ := by
  refine ⟨?_, ?_, ?_⟩ <;>
  · unfold encode
    ext i hi
    simp only [BitVec.getElem_extractLsb', BitVec.getLsbD_append]
    interval_cases i <;> simp [BitVec.getLsbD_eq_getElem]

/-- FENCE's fields are read back. -/
theorem decodeRow_encode_fence (fm pred succ : BitVec 4) (rs1 rd : RegIdx) :
    decodeRow (encode (.fence fm pred succ rs1 rd)) = some (.fence fm pred succ rs1 rd) := by
  obtain ⟨hfm, hpred, hsucc⟩ := extractLsb'_encode_fence fm pred succ rs1 rd
  rw [decodeRow_fence (by simp [encode_fence]), hfm, hpred, hsucc]
  simp [encode_fence]

theorem encode_fence_fields {w : Word} (hop : opcodeOf w = 0b0001111#7) (h3 : funct3Of w = 0b000#3) :
    encode (.fence (w.extractLsb' 28 4) (w.extractLsb' 24 4) (w.extractLsb' 20 4) (rs1Of w) (rdOf w)) = w := by
  unfold encode
  dsimp only
  rw [← hop, ← h3]
  unfold rs1Of funct3Of rdOf opcodeOf
  ext i hi
  simp only [BitVec.getElem_append, BitVec.getElem_extractLsb']
  interval_cases i <;> simp [BitVec.getLsbD_eq_getElem]

/-! ### Decode of encode (R128) -/

/-- The word of a well-formed instruction has the instruction's row and fields: each family's fields and immediate are read
back from its format. -/
theorem decodeRow_encode {i : Instr} (h : i.wf = true) : decodeRow (encode i) = some i := by
  cases i with
  | lui rd imm =>
    rw [encode, decodeRow_lui (opcodeOf_encodeU ..), rdOf_encodeU, immU_encodeU _ _ _ h]
  | auipc rd imm =>
    rw [encode, decodeRow_auipc (opcodeOf_encodeU ..), rdOf_encodeU, immU_encodeU _ _ _ h]
  | jal rd imm =>
    rw [encode, decodeRow_jal (opcodeOf_encodeJ ..), rdOf_encodeJ, immJ_encodeJ _ _ _ h]
  | jalr rd rs1 imm =>
    rw [encode, decodeRow_jalr (opcodeOf_encodeI ..), funct3Of_encodeI, rdOf_encodeI, rs1Of_encodeI,
      immI_encodeI _ _ _ _ _ h]
    rfl
  | beq rs1 rs2 imm | bne rs1 rs2 imm | blt rs1 rs2 imm | bge rs1 rs2 imm | bltu rs1 rs2 imm | bgeu rs1 rs2 imm =>
    rw [encode, decodeRow_branch (opcodeOf_encodeB ..), funct3Of_encodeB, rs1Of_encodeB, rs2Of_encodeB,
      immB_encodeB _ _ _ _ _ h]
    rfl
  | lb rd rs1 imm | lh rd rs1 imm | lw rd rs1 imm | lbu rd rs1 imm | lhu rd rs1 imm =>
    rw [encode, decodeRow_load (opcodeOf_encodeI ..), funct3Of_encodeI, rdOf_encodeI, rs1Of_encodeI,
      immI_encodeI _ _ _ _ _ h]
    rfl
  | sb rs1 rs2 imm | sh rs1 rs2 imm | sw rs1 rs2 imm =>
    rw [encode, decodeRow_store (opcodeOf_encodeS ..), funct3Of_encodeS, rs1Of_encodeS, rs2Of_encodeS,
      immS_encodeS _ _ _ _ _ h]
    rfl
  | addi rd rs1 imm | slti rd rs1 imm | sltiu rd rs1 imm | xori rd rs1 imm | ori rd rs1 imm | andi rd rs1 imm =>
    rw [encode, decodeRow_opImm (opcodeOf_encodeI ..), funct3Of_encodeI, rdOf_encodeI, rs1Of_encodeI,
      immI_encodeI _ _ _ _ _ h]
    rfl
  | slli rd rs1 shamt | srli rd rs1 shamt | srai rd rs1 shamt =>
    rw [encode, decodeRow_opImm (opcodeOf_encodeR ..), funct7Of_encodeR, funct3Of_encodeR, rdOf_encodeR, rs1Of_encodeR,
      rs2Of_encodeR]
    rfl
  | fence fm pred succ rs1 rd => exact decodeRow_encode_fence fm pred succ rs1 rd
  | ecall | ebreak => rfl
  | add rd rs1 rs2 | sub rd rs1 rs2 | sll rd rs1 rs2 | slt rd rs1 rs2 | sltu rd rs1 rs2 | xor rd rs1 rs2 | srl rd rs1 rs2
  | sra rd rs1 rs2 | or rd rs1 rs2 | and rd rs1 rs2 | mul rd rs1 rs2 | mulh rd rs1 rs2 | mulhsu rd rs1 rs2
  | mulhu rd rs1 rs2 | div rd rs1 rs2 | divu rd rs1 rs2 | rem rd rs1 rs2 | remu rd rs1 rs2 =>
    rw [encode, decodeRow_op (opcodeOf_encodeR ..), funct7Of_encodeR, funct3Of_encodeR, rdOf_encodeR, rs1Of_encodeR,
      rs2Of_encodeR]
    rfl

/-! ### Encode of decode (R110) -/

theorem encode_of_decodeBranch {f3 : BitVec 3} {rs1 rs2 : RegIdx} {imm : Word} {i : Instr}
    (h : decodeBranch f3 rs1 rs2 imm = some i) (hi : immFitsB imm = true) :
    i.wf = true ∧ encode i = encodeB imm rs2 rs1 f3 0b1100011#7 := by
  unfold decodeBranch at h
  split_ifs at h <;> cases h <;> subst f3 <;> exact ⟨hi, rfl⟩

theorem encode_of_decodeLoad {f3 : BitVec 3} {rd rs1 : RegIdx} {imm : Word} {i : Instr}
    (h : decodeLoad f3 rd rs1 imm = some i) (hi : immFitsIS imm = true) :
    i.wf = true ∧ encode i = encodeI imm rs1 f3 rd 0b0000011#7 := by
  unfold decodeLoad at h
  split_ifs at h <;> cases h <;> subst f3 <;> exact ⟨hi, rfl⟩

theorem encode_of_decodeStore {f3 : BitVec 3} {rs1 rs2 : RegIdx} {imm : Word} {i : Instr}
    (h : decodeStore f3 rs1 rs2 imm = some i) (hi : immFitsIS imm = true) :
    i.wf = true ∧ encode i = encodeS imm rs2 rs1 f3 0b0100011#7 := by
  unfold decodeStore at h
  split_ifs at h <;> cases h <;> subst f3 <;> exact ⟨hi, rfl⟩

theorem encode_of_decodeOpImm {f7 : BitVec 7} {f3 : BitVec 3} {rd rs1 : RegIdx} {shamt : BitVec 5} {imm : Word}
    {i : Instr} (h : decodeOpImm f7 f3 rd rs1 shamt imm = some i) (hi : immFitsIS imm = true) :
    i.wf = true ∧ (encode i = encodeI imm rs1 f3 rd 0b0010011#7 ∨ encode i = encodeR f7 shamt rs1 f3 rd 0b0010011#7) := by
  unfold decodeOpImm at h
  split_ifs at h <;> cases h
  iterate 6 (· subst f3; exact ⟨hi, .inl rfl⟩)
  · subst f3 f7
    exact ⟨rfl, .inr rfl⟩
  all_goals
    obtain rfl : f3 = 0b101#3 := by bv_omega
    subst f7
    exact ⟨rfl, .inr rfl⟩

theorem encode_of_decodeOpBase {f3 : BitVec 3} {rd rs1 rs2 : RegIdx} {i : Instr}
    (h : decodeOpBase f3 rd rs1 rs2 = some i) :
    i.wf = true ∧ encode i = encodeR 0b0000000#7 rs2 rs1 f3 rd 0b0110011#7 := by
  unfold decodeOpBase at h
  split_ifs at h <;> cases h
  iterate 7 (· subst f3; exact ⟨rfl, rfl⟩)
  · obtain rfl : f3 = 0b111#3 := by bv_omega
    exact ⟨rfl, rfl⟩

theorem encode_of_decodeOpAlt {f3 : BitVec 3} {rd rs1 rs2 : RegIdx} {i : Instr}
    (h : decodeOpAlt f3 rd rs1 rs2 = some i) :
    i.wf = true ∧ encode i = encodeR 0b0100000#7 rs2 rs1 f3 rd 0b0110011#7 := by
  unfold decodeOpAlt at h
  split_ifs at h <;> cases h <;> subst f3 <;> exact ⟨rfl, rfl⟩

theorem encode_of_decodeOpMul {f3 : BitVec 3} {rd rs1 rs2 : RegIdx} {i : Instr}
    (h : decodeOpMul f3 rd rs1 rs2 = some i) :
    i.wf = true ∧ encode i = encodeR 0b0000001#7 rs2 rs1 f3 rd 0b0110011#7 := by
  unfold decodeOpMul at h
  split_ifs at h <;> cases h
  iterate 7 (· subst f3; exact ⟨rfl, rfl⟩)
  · obtain rfl : f3 = 0b111#3 := by bv_omega
    exact ⟨rfl, rfl⟩

theorem encode_of_decodeOp {f7 : BitVec 7} {f3 : BitVec 3} {rd rs1 rs2 : RegIdx} {i : Instr}
    (h : decodeOp f7 f3 rd rs1 rs2 = some i) :
    i.wf = true ∧ encode i = encodeR f7 rs2 rs1 f3 rd 0b0110011#7 := by
  unfold decodeOp at h
  split_ifs at h <;> subst f7
  · exact encode_of_decodeOpBase h
  · exact encode_of_decodeOpAlt h
  · exact encode_of_decodeOpMul h

theorem mem_rowOpcodes_of_decodeRow {w : Word} {i : Instr} (h : decodeRow w = some i) : opcodeOf w ∈ rowOpcodes :=
  not_not.1 fun hn => by cases (decodeRow_eq_none_of_opcode hn).symm.trans h

/-- What a row's word decodes to is well-formed and has that word: the word is the encoding of its own fields.
The cases are the major opcodes, in the order of `rowOpcodes`. -/
theorem encode_of_decodeRow {w : Word} {i : Instr} (h : decodeRow w = some i) : i.wf = true ∧ encode i = w := by
  have hop := mem_rowOpcodes_of_decodeRow h
  simp only [rowOpcodes, List.mem_cons, List.not_mem_nil, or_false] at hop
  rcases hop with hop | hop | hop | hop | hop | hop | hop | hop | hop | hop | hop
  · cases (decodeRow_lui hop).symm.trans h
    exact ⟨immFitsU_immU w, by rw [encode, ← hop, encodeU_fields]⟩
  · cases (decodeRow_auipc hop).symm.trans h
    exact ⟨immFitsU_immU w, by rw [encode, ← hop, encodeU_fields]⟩
  · cases (decodeRow_jal hop).symm.trans h
    exact ⟨immFitsJ_immJ w, by rw [encode, ← hop, encodeJ_fields]⟩
  · rw [decodeRow_jalr hop] at h
    split_ifs at h with h3
    cases h
    exact ⟨immFitsIS_immI w, by rw [encode, ← hop, ← h3, encodeI_fields]⟩
  · rw [decodeRow_branch hop] at h
    obtain ⟨hwf, he⟩ := encode_of_decodeBranch h (immFitsB_immB w)
    exact ⟨hwf, by rw [he, ← hop, encodeB_fields]⟩
  · rw [decodeRow_load hop] at h
    obtain ⟨hwf, he⟩ := encode_of_decodeLoad h (immFitsIS_immI w)
    exact ⟨hwf, by rw [he, ← hop, encodeI_fields]⟩
  · rw [decodeRow_store hop] at h
    obtain ⟨hwf, he⟩ := encode_of_decodeStore h (immFitsIS_immS w)
    exact ⟨hwf, by rw [he, ← hop, encodeS_fields]⟩
  · rw [decodeRow_opImm hop] at h
    obtain ⟨hwf, he | he⟩ := encode_of_decodeOpImm h (immFitsIS_immI w)
    · exact ⟨hwf, by rw [he, ← hop, encodeI_fields]⟩
    · exact ⟨hwf, by rw [he, ← hop, encodeR_fields]⟩
  · rw [decodeRow_op hop] at h
    obtain ⟨hwf, he⟩ := encode_of_decodeOp h
    exact ⟨hwf, by rw [he, ← hop, encodeR_fields]⟩
  · rw [decodeRow_fence hop] at h
    split_ifs at h with h3
    cases h
    exact ⟨rfl, encode_fence_fields hop h3⟩
  · rw [decodeRow_system hop] at h
    split_ifs at h with hw hw <;> cases h <;> exact ⟨rfl, hw.symm⟩

/-! ### The opcode table (R110, R112) -/

/-- A word that matches the row of an instruction decodes to an instruction of that row: the mask holds the opcode, the
funct3 and the funct7 the decoder looks at, and the pattern their values. -/
theorem decodeRow_of_match {w : Word} (j : Instr) (h : w &&& j.row.mask = j.row.pattern) :
    ∃ i, decodeRow w = some i ∧ i.row = j.row := by
  cases j with
  | lui | auipc | jal =>
    rw [decodeRow, opcode_of_match h]
    exact ⟨_, rfl, rfl⟩
  | jalr | beq | bne | blt | bge | bltu | bgeu | lb | lh | lw | lbu | lhu | sb | sh | sw | addi | slti | sltiu | xori | ori
  | andi | fence =>
    obtain ⟨hop, h3⟩ := funct3_of_match h
    dsimp only [Instr.row] at hop h3
    rw [decodeRow, hop, h3]
    exact ⟨_, rfl, rfl⟩
  | slli | srli | srai | add | sub | sll | slt | sltu | xor | srl | sra | or | and | mul | mulh | mulhsu | mulhu | div
  | divu | rem | remu =>
    obtain ⟨hop, h3, h7⟩ := funct7_of_match h
    dsimp only [Instr.row] at hop h3 h7
    rw [decodeRow, hop, h3, h7]
    exact ⟨_, rfl, rfl⟩
  | ecall | ebreak =>
    obtain rfl := eq_of_match h
    exact ⟨_, rfl, rfl⟩

/-- The row of every instruction stands in the table. -/
theorem row_mem_opcodeTable (i : Instr) : i.row ∈ opcodeTable := by
  cases i <;> (dsimp only [Instr.row]; decide)

/-- A word has no row exactly where it matches none of the table's. -/
theorem decodeRow_eq_none_iff {w : Word} : decodeRow w = none ↔ ∀ r ∈ opcodeTable, w &&& r.mask ≠ r.pattern := by
  constructor
  · intro h r hr hm
    obtain ⟨j, -, rfl⟩ := List.mem_map.1 hr
    obtain ⟨i, hi, -⟩ := decodeRow_of_match j hm
    cases h.symm.trans hi
  · intro h
    cases hd : decodeRow w with
    | none => rfl
    | some i =>
      obtain ⟨-, rfl⟩ := encode_of_decodeRow hd
      exact (h _ (row_mem_opcodeTable i) (Laws.rowWord i)).elim

/-- The model's test of the floating-point space is R116's. -/
theorem isFloatingPoint_iff (w : Word) : isFloatingPoint w = true ↔ opcodeOf w ∈ refusedOpcodes := by
  simp [isFloatingPoint, refusedOpcodes, or_assoc]

/-- A word of no row is refused or illegal by its major opcode (R110). -/
theorem decode_of_no_row {w : Word} (h : decodeRow w = none) :
    decode w = if opcodeOf w ∈ refusedOpcodes then .refused w else .illegal w := by
  simp only [decode, h, isFloatingPoint_iff]

/-! ### The words of no row (R114, R116) -/

theorem decodeBranch_eq_none {f3 : BitVec 3} {rs1 rs2 : RegIdx} {imm : Word} :
    decodeBranch f3 rs1 rs2 imm = none ↔ f3 ∈ [0b010#3, 0b011#3] := by
  simp only [List.mem_cons, List.not_mem_nil, or_false]
  unfold decodeBranch
  split_ifs <;> simp only [true_iff, false_iff] <;> bv_omega

theorem decodeLoad_eq_none {f3 : BitVec 3} {rd rs1 : RegIdx} {imm : Word} :
    decodeLoad f3 rd rs1 imm = none ↔ f3 ∈ [0b011#3, 0b110#3, 0b111#3] := by
  simp only [List.mem_cons, List.not_mem_nil, or_false]
  unfold decodeLoad
  split_ifs <;> simp only [true_iff, false_iff] <;> bv_omega

theorem decodeStore_eq_none {f3 : BitVec 3} {rs1 rs2 : RegIdx} {imm : Word} :
    decodeStore f3 rs1 rs2 imm = none ↔ f3 ∈ [0b011#3, 0b100#3, 0b101#3, 0b110#3, 0b111#3] := by
  simp only [List.mem_cons, List.not_mem_nil, or_false]
  unfold decodeStore
  split_ifs <;> simp only [true_iff, false_iff] <;> bv_omega

theorem decodeOpImm_eq_none {f7 : BitVec 7} {f3 : BitVec 3} {rd rs1 : RegIdx} {shamt : BitVec 5} {imm : Word} :
    decodeOpImm f7 f3 rd rs1 shamt imm = none ↔
      (f3 = 0b001#3 ∧ f7 ≠ 0b0000000#7) ∨ (f3 = 0b101#3 ∧ f7 ∉ [0b0000000#7, 0b0100000#7]) := by
  simp only [List.mem_cons, List.not_mem_nil, or_false]
  unfold decodeOpImm
  split_ifs <;> simp only [true_iff, false_iff] <;> bv_omega

theorem decodeOp_eq_none {f7 : BitVec 7} {f3 : BitVec 3} {rd rs1 rs2 : RegIdx} :
    decodeOp f7 f3 rd rs1 rs2 = none ↔
      f7 ∉ [0b0000000#7, 0b0100000#7, 0b0000001#7] ∨ (f7 = 0b0100000#7 ∧ f3 ∉ [0b000#3, 0b101#3]) := by
  simp only [List.mem_cons, List.not_mem_nil, or_false]
  unfold decodeOp decodeOpBase decodeOpAlt decodeOpMul
  split_ifs <;> simp only [true_iff, false_iff] <;> bv_omega

theorem mem_majorOpcodes {op : BitVec 7} : op ∈ majorOpcodes ↔ op ∈ rowOpcodes ∨ op ∈ refusedOpcodes :=
  List.mem_append (s := rowOpcodes)

/-- No major opcode belongs both to a row and to the refused space. -/
theorem not_mem_rowOpcodes_of_refused : ∀ op ∈ refusedOpcodes, op ∉ rowOpcodes := by decide

/-- Every major opcode is one of a 32-bit word (R111). -/
theorem lowBits_of_major {w : Word} (h : opcodeOf w ∈ majorOpcodes) : w.extractLsb' 0 2 = 0b11#2 := by
  have hall : ∀ op ∈ majorOpcodes, op.extractLsb' 0 2 = 0b11#2 := by decide
  rw [← hall _ h, opcodeOf]
  ext i hi
  simp

theorem decode_eq_illegal_iff {w : Word} : decode w = .illegal w ↔ decodeRow w = none ∧ opcodeOf w ∉ refusedOpcodes := by
  cases hd : decodeRow w with
  | some i => simp [decode_of_row hd]
  | none => simp [decode_of_no_row hd]

/-- The illegal words are those of the seven classes (R114): by the word's major opcode, the class left is the one that says
which funct3 and funct7 have no row. -/
theorem decode_eq_illegal_iff_class (w : Word) :
    decode w = .illegal w ↔ IllegalClass w (opcodeOf w) (funct3Of w) (funct7Of w) := by
  rw [decode_eq_illegal_iff]
  by_cases hmaj : opcodeOf w ∈ majorOpcodes
  swap
  · obtain ⟨hrow, href⟩ := not_or.1 (mt mem_majorOpcodes.2 hmaj)
    exact iff_of_true ⟨decodeRow_eq_none_of_opcode hrow, href⟩ (.inr (.inl hmaj))
  have hlow := lowBits_of_major hmaj
  simp only [IllegalClass, hlow, hmaj, ne_eq, not_true_eq_false, false_or]
  rcases mem_majorOpcodes.1 hmaj with hop | hop
  · simp only [rowOpcodes, List.mem_cons, List.not_mem_nil, or_false] at hop
    rcases hop with hop | hop | hop | hop | hop | hop | hop | hop | hop | hop | hop
    · simp [decodeRow_lui hop, hop]
    · simp [decodeRow_auipc hop, hop]
    · simp [decodeRow_jal hop, hop]
    · simp [decodeRow_jalr hop, hop, refusedOpcodes]
    · simp [decodeRow_branch hop, hop, decodeBranch_eq_none, refusedOpcodes]
    · simp [decodeRow_load hop, hop, decodeLoad_eq_none, refusedOpcodes]
    · simp [decodeRow_store hop, hop, decodeStore_eq_none, refusedOpcodes]
    · simp [decodeRow_opImm hop, hop, decodeOpImm_eq_none, refusedOpcodes]
    · simp [decodeRow_op hop, hop, decodeOp_eq_none, refusedOpcodes]
    · simp [decodeRow_fence hop, hop, refusedOpcodes]
    · simp [decodeRow_system hop, hop, refusedOpcodes, ite_eq_iff]
  · refine iff_of_false (fun h => h.2 hop) ?_
    simp only [refusedOpcodes, List.mem_cons, List.not_mem_nil, or_false] at hop
    rcases hop with hop | hop | hop <;> simp [hop]

/-- Only the word itself is called illegal. -/
theorem decode_eq_illegal {w v : Word} (h : decode w = .illegal v) : v = w := by
  unfold decode at h
  split at h
  · cases h
  · split at h <;> cases h
    rfl

end Sys2Proof

namespace Sys2Proof.Machine

open Sys2Proof.Claims

/-! ### Which stops are a `DecodeError` (R114, R272) -/

/-- Every reason to stop but `DecodeError`. -/
def StopReason.NotDecode : StopReason → Prop
  | .decodeError _ _ => False
  | _ => True

/-- The run is as it was, or has stopped for a reason other than `DecodeError`. -/
def NoDecodeStop (s t : State) : Prop := t.run = s.run ∨ ∃ r : StopReason, t.run = .stopped r ∧ r.NotDecode

theorem NoDecodeStop.run_eq {s t : State} {p w : Word} (h : NoDecodeStop s t) (ht : t.run = .stopped (.decodeError p w)) :
    s.run = .stopped (.decodeError p w) := by
  rcases h with h | ⟨r, h, hr⟩
  · exact h.symm.trans ht
  · cases h.symm.trans ht
    exact hr.elim

/-- The checks of a fetch and its read raise other stops (R144, R145). -/
theorem fetch_error_notDecode {s : State} {r : StopReason} (h : fetch s = .error r) : r.NotDecode := by
  unfold fetch at h
  split at h
  · cases h; trivial
  · split at h <;> cases h
    trivial

theorem collectString_error_notDecode {m : Memory} {start a : Word} {fuel : Nat} {r : StopReason}
    (h : collectString m start fuel a = .error r) : r.NotDecode := by
  induction fuel generalizing a with
  | zero => cases h; trivial
  | succ fuel ih =>
    unfold collectString at h
    split at h
    · cases h; trivial
    · split at h
      · cases h
      · split at h <;> cases h
        next he => exact ih he

/-- No service raises a `DecodeError` (R242 to R247). -/
theorem execEcall_noDecodeStop {s t : State} (h : execEcall s = .next t) : NoDecodeStop s t := by
  unfold execEcall servicePrintInt serviceExit at h
  split at h
  · cases h; exact .inl rfl
  split at h
  · unfold servicePrintString at h
    split at h <;> cases h
    · next he => exact .inr ⟨_, rfl, collectString_error_notDecode he⟩
    · exact .inl rfl
  split at h
  · cases h; exact .inr ⟨_, rfl, trivial⟩
  split at h
  · unfold serviceWrite at h
    split at h
    · cases h; exact .inr ⟨_, rfl, trivial⟩
    · split at h <;> cases h
      · exact .inr ⟨_, rfl, trivial⟩
      · exact .inl (by simp)
  · cases h; exact .inr ⟨_, rfl, trivial⟩

/-- No execution raises a `DecodeError`. -/
theorem exec_noDecodeStop {i : Instr} {s t : State} (h : exec i s = .next t) : NoDecodeStop s t := by
  cases hi : isMemory i
  · cases i with
    | lb | lh | lw | lbu | lhu | sb | sh | sw => cases hi
    | beq | bne | blt | bge | bltu | bgeu => cases (branch_eq ..).symm.trans h; exact .inl rfl
    | ecall => exact execEcall_noDecodeStop h
    | ebreak => cases h; exact .inr ⟨_, rfl, trivial⟩
    | fence => cases h; exact .inl rfl
    | _ => cases h; exact .inl (by simp)
  · obtain ⟨r, p, -, he⟩ := exec_memory hi s
    rcases issue_cases r p s with ⟨-, hk⟩ | ⟨-, -, hk⟩ | ⟨-, -, hk⟩ <;> cases (he.trans hk).symm.trans h
    · exact .inr ⟨_, rfl, trivial⟩
    · exact .inl rfl

/-- No completion stops the run (R150). -/
theorem complete_noDecodeStop {p : Pending} {r : Response} {s t : State} (h : complete p r s = .next t) :
    NoDecodeStop s t := by
  obtain ⟨i, v, rfl⟩ := complete_eq_next h
  exact .inl (by simp)

/-- No service of a request raises a `DecodeError` (R62 to R74). -/
theorem service_noDecodeStop (r : Request) (s : State) : NoDecodeStop s (service r s) := by
  unfold service
  split
  · cases r <;> exact .inl rfl
  split
  · unfold dmaCtrlRequest armDma
    split
    · split
      · split
        · exact .inr ⟨_, rfl, trivial⟩
        · exact .inl rfl
      · exact .inr ⟨_, rfl, trivial⟩
    · exact .inr ⟨_, rfl, trivial⟩
  · cases r with
    | read n a =>
      unfold flatAccess
      dsimp only
      split
      · exact .inr ⟨_, rfl, trivial⟩
      · exact .inl rfl
    | write n a v => exact .inl rfl

theorem busPhase_noDecodeStop (s : State) : NoDecodeStop s (busPhase s) := by
  rcases busPhase_cases s with h | ⟨r, -, -, h, -⟩ <;> rw [h]
  · exact .inl rfl
  · exact service_noDecodeStop r s

theorem dmaPhase_noDecodeStop (s : State) : NoDecodeStop s (dmaPhase s) := by
  rcases dmaPhase_cases s with h | ⟨j, he, -, -⟩
  · exact .inl (by rw [h])
  obtain ⟨hrun, -, -⟩ := (dmaEnabled_iff s).1 he
  cases ht : (dmaPhase s).run with
  | running => exact .inl (ht.trans hrun.symm)
  | stopped r =>
    obtain ⟨j, -, -, ⟨rfl, -⟩ | ⟨rfl, -⟩⟩ := dmaPhase_stops hrun ht <;> exact .inr ⟨_, ht, trivial⟩

/-- A CPU phase stops with `DecodeError` only on the fetch of an illegal word (R114, R272). -/
theorem cpuPhase_decodeError {s t : State} {p w : Word} (hr : s.run = .running) (h : cpuPhase s = .next t)
    (ht : t.run = .stopped (.decodeError p w)) :
    s.mode = .idle ∧ p = s.pc ∧ fetch s = .ok w ∧ decode w = .illegal w := by
  have habsurd : ¬ NoDecodeStop s t := fun hn => by cases hr.symm.trans (hn.run_eq ht)
  unfold cpuPhase at h
  split at h
  · next hm =>
    split at h
    · next r hf => cases h; exact (habsurd (.inr ⟨_, rfl, fetch_error_notDecode hf⟩)).elim
    · next v hf =>
      unfold decodeExecute at h
      split at h
      · exact (habsurd (exec_noDecodeStop h)).elim
      · cases h
      · next v' hd =>
        cases h
        cases ht
        cases decode_eq_illegal hd
        exact ⟨hm, rfl, hf, hd⟩
  · split at h
    · cases h; exact (habsurd (.inl rfl)).elim
    · exact (habsurd (complete_noDecodeStop h)).elim

/-- A CPU phase that stops the run ends the tick (R151). -/
theorem afterCpu_raise (r : StopReason) (s : State) : afterCpu (raise r s) = .next (s.stop r) := by
  have hbus : busPhase (s.stop r) = s.stop r := busPhase_of_stopped (by simp)
  have hdma : dmaPhase (s.stop r) = s.stop r := dmaPhase_of_not_enabled (by simp [dmaEnabled])
  simp only [raise, afterCpu, hbus, hdma]

theorem step_of_ready {s : State} {w : Word} (h : Ready s w) : step s = afterCpu (decodeExecute w s.beginTick) :=
  step_of_fetch h.run h.legal h.mode h.fetch

/-! ### The obligations -/

/-- Settles O6: the decoder reads back the opcode, the funct3, the funct7 and each operand its format holds. -/
theorem decodeOfEncode : Obligations.DecodeOfEncode := fun i h =>
  ⟨Laws.rowWord i, decode_of_row (decodeRow_encode h)⟩

/-- Settles O7: a word is the encoding of its own fields, and a decoded immediate is one its format holds. -/
theorem encodeOfDecode : Obligations.EncodeOfDecode := fun _ _ h => encode_of_decodeRow (decodeRow_of_decode h)

/-- Settles O8: a row's mask pins the fields the decoder looks at, and the word of a decoded instruction matches its row. -/
theorem decodeFollowsTable : Obligations.DecodeFollowsTable := fun w => by
  refine ⟨fun r hr hm => ?_, fun h => decode_of_no_row (decodeRow_eq_none_iff.2 h)⟩
  obtain ⟨j, -, rfl⟩ := List.mem_map.1 hr
  obtain ⟨i, hi, hrow⟩ := decodeRow_of_match j hm
  exact ⟨i, decode_of_row hi, hrow, (encode_of_decodeRow hi).2⟩

/-- Settles O9: each word is decoded by evaluation. -/
theorem sampleWordsDecode : Obligations.SampleWordsDecode := by
  unfold Obligations.SampleWordsDecode
  decide

/-- Settles O10: the classes are what each major opcode leaves without a row; no phase but the decode raises the error. -/
theorem illegalWordsRaiseDecodeError : Obligations.IllegalWordsRaiseDecodeError := by
  refine ⟨decode_eq_illegal_iff_class, fun w s hs hw => ?_, fun s t p w hr ht hstop => ?_⟩
  · refine ⟨s.beginTick.stop (.decodeError s.pc w), ?_, s.ticks + 1, rfl⟩
    rw [step_of_ready hs, decodeExecute, hw]
    exact afterCpu_raise _ _
  · rcases step_next ht with ⟨hn, -⟩ | ⟨-, -, u, hu, rfl⟩
    · exact (hn hr).elim
    · exact cpuPhase_decodeError (s := s.beginTick) hr hu
        ((busPhase_noDecodeStop u).run_eq ((dmaPhase_noDecodeStop _).run_eq hstop))

/-- Settles O11: no row has one of these seven opcodes, and three of them are the refused ones. -/
theorem floatingPointWordsAreRefused : Obligations.FloatingPointWordsAreRefused := by
  have hrefused : ∀ w : Word, opcodeOf w ∈ refusedOpcodes → decode w = .refused w := fun w hw => by
    rw [decode_of_no_row (decodeRow_eq_none_of_opcode (not_mem_rowOpcodes_of_refused _ hw)), if_pos hw]
  refine ⟨hrefused, fun w s hs hw => ?_, fun w hw => ?_⟩
  · rw [step_of_ready hs, decodeExecute, hrefused w hw]
    rfl
  · have hfused : ∀ op ∈ [0b1000011#7, 0b1000111#7, 0b1001011#7, 0b1001111#7], op ∉ majorOpcodes := by decide
    exact (decode_eq_illegal_iff_class w).2 (.inr (.inl (hfused _ hw)))

end Sys2Proof.Machine
end

section
/-! SUPPORT. The tick (40_tick_and_fetch.md): the checks of a fetch in their order, the tick of an instruction that issues
nothing, the issue of a load or store, and the tick that completes it. -/

namespace Sys2Proof.Machine

open Sys2Proof.Claims

/-! ### Fetch (R144, R145) -/

/-- The model's test for a misaligned access is the statements' own (R56). -/
theorem isMisaligned_eq_true (c : Config) (a : Word) (n : AccessSize) :
    isMisaligned c a n = true ↔ Misaligns c a n.bytes :=
  isMisaligned_iff c a n

/-- The model finds an owner exactly where a device owns the address (R66). -/
theorem ownerOf_isSome_iff (c : Config) (a : Word) : (ownerOf c a).isSome = true ↔ Owned c a := by
  rw [Option.isSome_iff_ne_none, ne_eq, ownerOf_eq_none_iff, not_not]

section
variable {s : State}

/-- The first check: alignment. -/
theorem fetchFault_of_misaligns (hm : Misaligns s.cfg s.pc 4) : fetchFault s = some (.misalignedFetch s.pc) := by
  rw [fetchFault, if_pos ((isMisaligned_eq_true _ _ .word).2 hm)]

/-- The second check: no device owns the pc. -/
theorem fetchFault_of_owned (hm : ¬ Misaligns s.cfg s.pc 4) (ho : Owned s.cfg s.pc) :
    fetchFault s = some (.fetchFromPeripheral s.pc) := by
  rw [fetchFault, if_neg (mt (isMisaligned_eq_true _ _ .word).1 hm), if_pos ((ownerOf_isSome_iff _ _).2 ho)]

/-- The third check: the word does not meet the DMA control word. -/
theorem fetchFault_of_meetsControl (hm : ¬ Misaligns s.cfg s.pc 4) (ho : ¬ Owned s.cfg s.pc)
    (hc : MeetsControl s.cfg s.pc 4) : fetchFault s = some (.dmaCtrlAccess (.fetch s.pc)) := by
  rw [fetchFault, if_neg (mt (isMisaligned_eq_true _ _ .word).1 hm), if_neg (mt (ownerOf_isSome_iff _ _).1 ho),
    if_pos ((meetsDmaCtrl_eq_true _ _ _).2 hc)]

/-- There is no fourth check. -/
theorem fetchFault_eq_none (hm : ¬ Misaligns s.cfg s.pc 4) (ho : ¬ Owned s.cfg s.pc)
    (hc : ¬ MeetsControl s.cfg s.pc 4) : fetchFault s = none := by
  rw [fetchFault, if_neg (mt (isMisaligned_eq_true _ _ .word).1 hm), if_neg (mt (ownerOf_isSome_iff _ _).1 ho),
    if_neg (mt (meetsDmaCtrl_eq_true _ _ _).1 hc)]

theorem fetch_of_fault {f : ModelFault} (h : fetchFault s = some f) : fetch s = .error (.modelFault f) := by
  rw [fetch, h]

theorem fetch_of_memRead_error {e : Word} (h : fetchFault s = none) (hr : s.mem.memRead s.pc 4 = .error e) :
    fetch s = .error (.memoryError e) := by
  rw [fetch, h]
  simp only [hr]

theorem fetch_of_memRead_ok {w : Word} (h : fetchFault s = none) (hr : s.mem.memRead s.pc 4 = .ok w) :
    fetch s = .ok w := by
  rw [fetch, h]
  simp only [hr]

/-- A fetch that gives no word stops the run, and the tick ends there (R144, R151). -/
theorem stepStops_of_fetch_error {r : StopReason} (hr : s.run = .running) (hc : legalConfig s.cfg = true)
    (hm : s.mode = .idle) (hf : fetch s = .error r) : StepStops s s r := by
  have hcpu : cpuPhase s.beginTick = raise r s.beginTick := by
    rw [cpuPhase, show s.beginTick.mode = .idle from hm, fetch_beginTick]
    simp only [hf]
  exact ⟨s.beginTick.stop r, by rw [step_running hr hc, hcpu, afterCpu_raise], s.ticks + 1, rfl⟩

end

/-! ### Decode and execution (R146, R147, R152) -/

theorem decodeExecute_of_instr {w : Word} {i : Instr} (h : decode w = .instr i) (s : State) :
    decodeExecute w s = exec i s := by
  rw [decodeExecute, h]

/-- Four bytes that decode to an instruction are the bytes of a word that does (R53, R100). -/
theorem decode_of_decodeBytes {bs rest : List Byte} {i : Instr} (hl : bs.length = 4)
    (h : decodeBytes bs = .ok (i, rest)) : decode (wordOfBytes bs) = .instr i := by
  obtain ⟨b0, b1, b2, b3, rfl⟩ := List.length_eq_four.1 hl
  dsimp only [decodeBytes] at h
  split at h
  · next j hj => cases h; exact hj
  · cases h
  · cases h

/-- The two readings of "load or store", the laws' and the statements', agree. -/
theorem isMemory_iff (i : Instr) : isMemory i = true ↔ LoadOrStore i := by
  cases i <;> simp [isMemory, LoadOrStore]

/-- Every byte of an unchanged memory reads as it did. -/
theorem sameMem_of_eq {s t : State} (h : t.mem = s.mem) : SameMem s t := fun a => by rw [h]

/-! ### The issue of a load or store (R148) -/

theorem issue_of_aligned {r : Request} {p : Pending} {s : State} (hm : ¬ Misaligns s.cfg r.address r.size.bytes)
    (hb : s.bus = emptyBus) : issue r p s = .next (issued s r p) :=
  issue_eq (Bool.eq_false_iff.2 (mt (isMisaligned_eq_true _ _ _).1 hm)) hb

theorem issue_of_misaligned {r : Request} {p : Pending} {s : State} (hm : Misaligns s.cfg r.address r.size.bytes) :
    issue r p s = .next (stoppedWith s (.modelFault (.misalignedAccess r.address r.size))) := by
  rw [issue, if_pos ((isMisaligned_eq_true _ _ _).2 hm)]
  rfl

/-- A row of the major opcode LOAD decodes to its load, which issues a read. -/
theorem issuesLoad {pattern : Word} {mk : RegIdx → RegIdx → Word → Instr} {n : AccessSize} {signed : Bool}
    (hop : opcodeOf pattern = 0b0000011#7)
    (hrow : ∀ rd rs1 imm, decodeLoad (funct3Of pattern) rd rs1 imm = some (mk rd rs1 imm))
    (hexec : ∀ rd rs1 imm s, exec (mk rd rs1 imm) s = issueLoad n signed rd rs1 imm s) :
    IssuesLoad pattern mk n signed := by
  intro w s hw
  obtain ⟨hopw, h3⟩ := funct3_of_match hw
  refine ⟨decode_of_row ?_, ?_⟩
  · rw [decodeRow_load (hopw.trans hop), h3, hrow]
    rfl
  · rw [hexec]
    exact ⟨fun hm hb => issue_of_aligned hm hb, fun hm => issue_of_misaligned hm⟩

/-- A row of the major opcode STORE decodes to its store, which issues a write. -/
theorem issuesStore {pattern : Word} {mk : RegIdx → RegIdx → Word → Instr} {n : AccessSize}
    (hop : opcodeOf pattern = 0b0100011#7)
    (hrow : ∀ rs1 rs2 imm, decodeStore (funct3Of pattern) rs1 rs2 imm = some (mk rs1 rs2 imm))
    (hexec : ∀ rs1 rs2 imm s, exec (mk rs1 rs2 imm) s = issueStore n rs1 rs2 imm s) :
    IssuesStore pattern mk n := by
  intro w s hw
  obtain ⟨hopw, h3⟩ := funct3_of_match hw
  refine ⟨decode_of_row ?_, ?_⟩
  · rw [decodeRow_store (hopw.trans hop), h3, hrow]
    rfl
  · rw [hexec]
    exact ⟨fun hm hb => issue_of_aligned hm hb, fun hm => issue_of_misaligned hm⟩

/-! ### Stall and completion (R149, R150) -/

theorem signExtended_eq_lowBits (n : AccessSize) (v : Word) : signExtended n v = lowBits n true v := by
  cases n with
  | byte => exact congrArg (BitVec.signExtend 32) (BitVec.setWidth_eq_extractLsb' (by decide)).symm
  | half => exact congrArg (BitVec.signExtend 32) (BitVec.setWidth_eq_extractLsb' (by decide)).symm
  | word => simp [signExtended, lowBits, AccessSize.bytes]

theorem extended_eq_lowBits (n : AccessSize) (signed : Bool) (v : Word) : extended n signed v = lowBits n signed v := by
  cases signed with
  | false => exact zeroExtended_eq_lowBits n v
  | true => exact signExtended_eq_lowBits n v

/-- The register write of a load does not look at the tick's number. -/
theorem writeX_beginTick (s : State) (i : RegIdx) (v : Word) : s.beginTick.writeX i v = (s.writeX i v).beginTick := by
  unfold State.writeX
  split <;> rfl

/-- A CPU that leaves the wait with no request in its slot has an empty Bus (R150). -/
theorem resume_of_no_request {s : State} (h : s.bus.req = none) :
    s.resume = { s with mode := .idle, bus := emptyBus } := by
  rw [State.resume, h]
  rfl

/-- The state the completion of a load leaves (R150). -/
theorem complete_load (s : State) (rd : RegIdx) (n : AccessSize) (signed : Bool) (d : Word) :
    complete (.load rd n signed) { data := some d } s = .next (s.writeX rd (lowBits n signed d)).advance.resume := by
  rw [← extended_eq_lowBits]
  rfl

section
variable {s : State} {p : Pending} (hm : s.mode = .awaitingMemory p)
include hm

/-- A waiting CPU without a response stalls (R149). -/
theorem cpuPhase_of_no_response (hb : s.bus.rsp = none) : cpuPhase s = .next s := by
  simp only [cpuPhase, hm, hb]

/-- A waiting CPU with a response completes (R150). -/
theorem cpuPhase_of_response {r : Response} (hb : s.bus.rsp = some r) : cpuPhase s = complete p r s := by
  simp only [cpuPhase, hm, hb]

/-- The tick of a completion: it fetches nothing, the Bus has no request, and only the DMA phase is left (R141, R150). -/
theorem step_of_complete {r : Response} {t : State} (hr : s.run = .running) (hc : legalConfig s.cfg = true)
    (hb : s.bus = { req := none, rsp := some r }) (ht : complete p r s.beginTick = .next t) :
    step s = .next (dmaPhase t) := by
  have hbus : s.beginTick.bus = { req := none, rsp := some r } := hb
  have hcpu : cpuPhase s.beginTick = .next t := by
    rw [cpuPhase_of_response (s := s.beginTick) hm (by rw [hbus]), ht]
  have hreq : t.bus.req = none := by
    obtain ⟨i, v, rfl⟩ := complete_eq_next ht
    rw [State.resume_bus, State.advance_bus, State.writeX_bus, hbus]
  rw [step_running hr hc, hcpu, afterCpu, busPhase_of_no_request hreq]

end

/-! ### The obligations -/

/-- Settles O14: a fetch answers for the first check that fails, and reads memory only where none does. -/
theorem fetchChecksInOrder : Obligations.FetchChecksInOrder := by
  intro s hr hc hi
  have hstop {r : StopReason} : fetch s = .error r → StepStops s s r := stepStops_of_fetch_error hr hc hi
  refine ⟨fun hm => ?_, fun hm ho => ?_, fun hm ho hd => ?_, fun hm ho hd => ⟨fun e he => ?_, ?_⟩⟩
  · exact hstop (fetch_of_fault (fetchFault_of_misaligns hm))
  · exact hstop (fetch_of_fault (fetchFault_of_owned hm ho))
  · exact hstop (fetch_of_fault (fetchFault_of_meetsControl hm ho hd))
  · exact hstop (fetch_of_memRead_error (fetchFault_eq_none hm ho hd) (Memory.memRead_eq_error.2 he))
  · intro b0 b1 b2 b3 h0 h1 h2 h3
    obtain ⟨-, -, hword, -⟩ := memReadIsLittleEndian s.mem s.pc
    exact fetch_of_memRead_ok (fetchFault_eq_none hm ho hd) (hword b0 b1 b2 b3 h0 h1 h2 h3)

/-- Settles O15: an execution that issues nothing leaves an empty Bus, so the Bus/Memory phase has no request to serve. -/
theorem otherInstructionsTakeOneTick : Obligations.OtherInstructionsTakeOneTick := by
  intro i hi
  have hexec := exec_not_memory (Bool.eq_false_iff.2 (mt (isMemory_iff i).1 hi))
  refine ⟨fun s => ?_, fun w s hs hd => ?_⟩
  · obtain ⟨t, ht, h⟩ := hexec s
    exact ⟨t, ht, h.mode, h.bus, sameMem_of_eq h.mem, h.dma, h.pevents, h.f, h.cfg⟩
  · obtain ⟨t, ht, h⟩ := hexec s.beginTick
    have hbus : t.bus = emptyBus := h.bus.trans hs.bus
    have hkept := (dmaPhase_engineOnly t).kept
    refine ⟨t, ht, ?_, hkept.mode.trans (h.mode.trans hs.mode), State.readX_congr hkept.x, hkept.pc⟩
    rw [step_of_ready hs, decodeExecute_of_instr hd, ht, afterCpu, busPhase_of_no_request (by rw [hbus]; rfl)]

/-- Settles O16: the state a completion leaves is known field by field, and its tick adds the DMA phase and the count. -/
theorem completionOfTransaction : Obligations.CompletionOfTransaction := by
  refine ⟨fun s p => cpuPhase_of_no_response, fun s r n signed d hr hc hm hb => ?_, fun s hr hc hm hb => ?_⟩
  · have hcpu : cpuPhase s = .next (s.writeX r (lowBits n signed d)).advance.resume := by
      rw [cpuPhase_of_response hm (by rw [hb]), complete_load]
    have hstep : step s = .next (dmaPhase (s.writeX r (lowBits n signed d)).beginTick.advance.resume) := by
      rw [step_of_complete hm hr hc hb (complete_load ..), writeX_beginTick]
    exact ⟨_, hcpu, ⟨_, hstep⟩, rfl, by simp [hb, emptyBus], by simp, onlyReg_writeX s r _, by simp, by simp,
      by simp, by simp, by simp, by simp, by simp, by simp⟩
  · have hreq : s.beginTick.advance.bus.req = none := congrArg Bus.req hb
    exact ⟨s.ticks + 1, by rw [step_of_complete hm hr hc hb rfl, resume_of_no_request hreq]; rfl⟩

/-- Settles O28: by the row of each load and store, and the size and the sign of its request. -/
theorem loadsAndStoresIssueRequest : Obligations.LoadsAndStoresIssueRequest := by
  refine ⟨?_, ?_, ?_, ?_, ?_, ?_, ?_, ?_⟩
  iterate 5 exact issuesLoad rfl (fun _ _ _ => rfl) fun _ _ _ _ => rfl
  iterate 3 exact issuesStore rfl (fun _ _ _ => rfl) fun _ _ _ _ => rfl

/-- Settles O12: the bytes at the pc are the fetched word. -/
theorem stepRunsDecodedInstruction : Obligations.StepRunsDecodedInstruction := by
  intro s bs rest i hr hc hm hf hb hd
  have hw : fetch s = .ok (wordOfBytes bs) := fetch_of_memRead_ok hf (by rw [Memory.memRead, hb])
  obtain ⟨hl, -⟩ := Memory.readBytes_eq_ok.1 hb
  rw [step_of_fetch hr hc hm hw, decodeExecute_of_instr (decode_of_decodeBytes hl hd)]
  rfl

/-- Settles O13. -/
theorem stoppedMachineDoesNotMove : Obligations.StoppedMachineDoesNotMove :=
  fun _ _ h => step_stopped (by rw [h]; exact Run.noConfusion)

/-- Settles O54: by the constructors of the reasons. -/
theorem stopReasonsAreClassed : Obligations.StopReasonsAreClassed := by
  intro r
  cases r <;> simp [StopReason.stopClass]

end Sys2Proof.Machine
end

section
/-! SUPPORT. Integer computation (41_integer_computational.md): the shifts as bit-vector shifts, what a completed computation
changes and leaves, and the rows of each format, which decode to their instruction and complete. -/

namespace Sys2Proof.Machine

open Sys2Proof.Claims

/-! ### Comparisons (R173, R174, R184, R185) -/

theorem truthWord_lessSigned (a b : Word) : truthWord (lessSigned a b) = if a.toInt < b.toInt then 1#32 else 0#32 := by
  simp only [truthWord, lessSigned, decide_eq_true_eq]

theorem truthWord_lessUnsigned (a b : Word) :
    truthWord (lessUnsigned a b) = if a.toNat < b.toNat then 1#32 else 0#32 := by
  simp only [truthWord, lessUnsigned, decide_eq_true_eq]

/-! ### Shifts (R178 to R180) -/

theorem shiftLeft_eq (a : Word) (n : Nat) : shiftLeft a n = a <<< n := by
  apply BitVec.eq_of_toNat_eq
  rw [shiftLeft, BitVec.toNat_ofNat, BitVec.toNat_shiftLeft, Nat.shiftLeft_eq]

theorem shiftRightLogical_eq (a : Word) (n : Nat) : shiftRightLogical a n = a >>> n := by
  apply BitVec.eq_of_toNat_eq
  have hlt : a.toNat / 2 ^ n < 2 ^ 32 := (Nat.div_le_self _ _).trans_lt a.isLt
  rw [shiftRightLogical, BitVec.toNat_ofNat, Nat.mod_eq_of_lt hlt, BitVec.toNat_ushiftRight, Nat.shiftRight_eq_div_pow]

theorem shiftRightArithmetic_eq (a : Word) (n : Nat) : shiftRightArithmetic a n = a.sshiftRight n := by
  rw [shiftRightArithmetic, BitVec.sshiftRight, Int.shiftRight_eq_div_pow]
  norm_cast

/-! ### A computation completes (R147) -/

/-- A register write and a move of the pc leave everything else as it was. -/
theorem quiet_writeX_setPc (i : RegIdx) (v target : Word) (s : State) : Quiet s ((s.writeX i v).setPc target) := by
  have h := cpuOnly_jump i v target s
  exact ⟨⟨h.f, h.mode, h.bus, sameMem_of_eq h.mem, h.dma, by simp, h.pevents, h.ticks, h.cfg⟩, by simp, by simp⟩

/-- A computation completes: it writes its register, moves the pc and changes nothing else. -/
theorem retire_completes (i : RegIdx) (v : Word) (s : State) :
    ∃ t, retire i v s = .next t ∧ OnlyReg s t i v ∧ t.pc = s.pc + 4#32 ∧ Quiet s t :=
  ⟨_, retire_eq i v s, onlyReg_writeX s i v, by simp, quiet_writeX_setPc i v _ s⟩

/-- A row whose words all decode to its instruction, and whose instruction retires a value, computes that value. -/
theorem computes_of_retire {pattern mask : Word} {mk : Word → Instr} {value : Word → State → Word}
    (hdecode : ∀ w, w &&& mask = pattern → decodeRow w = some (mk w))
    (hexec : ∀ w s, exec (mk w) s = retire (rd w) (value w s) s) : Computes pattern mask mk value := by
  intro w s hw
  rw [hexec]
  exact ⟨decode_of_row (hdecode w hw), retire_completes _ _ s⟩

/-! ### The rows of each format -/

section
variable {pattern : Word}

/-- A row of OP-IMM that is no shift (R103). -/
theorem computesImm_of_row {mk : RegIdx → RegIdx → Word → Instr} {op : Word → Word → Word}
    (hop : opcodeOf pattern = 0b0010011#7)
    (hrow : ∀ f7 rd rs1 shamt imm, decodeOpImm f7 (funct3Of pattern) rd rs1 shamt imm = some (mk rd rs1 imm))
    (hexec : ∀ rd rs1 imm s, exec (mk rd rs1 imm) s = retire rd (op (s.readX rs1) imm) s) :
    ComputesImm pattern mk op := by
  refine computes_of_retire (fun w hw => ?_) fun _ _ => hexec ..
  obtain ⟨hopw, h3⟩ := funct3_of_match hw
  rw [decodeRow_opImm (hopw.trans hop), h3, hrow]
  rfl

/-- A shift of OP-IMM, by the amount in the word (R104). -/
theorem computesShamt_of_row {mk : RegIdx → RegIdx → BitVec 5 → Instr} {op : Word → Nat → Word}
    (hop : opcodeOf pattern = 0b0010011#7)
    (hrow : ∀ rd rs1 shamt imm,
      decodeOpImm (funct7Of pattern) (funct3Of pattern) rd rs1 shamt imm = some (mk rd rs1 shamt))
    (hexec : ∀ rd rs1 shamt s, exec (mk rd rs1 shamt) s = retire rd (op (s.readX rs1) shamt.toNat) s) :
    ComputesShamt pattern mk op := by
  refine computes_of_retire (fun w hw => ?_) fun _ _ => hexec ..
  obtain ⟨hopw, h3, h7⟩ := funct7_of_match hw
  rw [decodeRow_opImm (hopw.trans hop), h3, h7, hrow]
  rfl

/-- A row of OP (R102). -/
theorem computesReg_of_row {mk : RegIdx → RegIdx → RegIdx → Instr} {op : Word → Word → Word}
    (hop : opcodeOf pattern = 0b0110011#7)
    (hrow : ∀ rd rs1 rs2, decodeOp (funct7Of pattern) (funct3Of pattern) rd rs1 rs2 = some (mk rd rs1 rs2))
    (hexec : ∀ rd rs1 rs2 s, exec (mk rd rs1 rs2) s = retire rd (op (s.readX rs1) (s.readX rs2)) s) :
    ComputesReg pattern mk op := by
  refine computes_of_retire (fun w hw => ?_) fun _ _ => hexec ..
  obtain ⟨hopw, h3, h7⟩ := funct7_of_match hw
  rw [decodeRow_op (hopw.trans hop), h3, h7, hrow]
  rfl

end

/-! ### The obligations -/

/-- Settles O17: the opcode alone finds the row. -/
theorem upperImmediateResults : Obligations.UpperImmediateResults :=
  ⟨computes_of_retire (fun _ hw => decodeRow_lui (opcode_of_match hw)) fun _ _ => rfl,
    computes_of_retire (fun _ hw => decodeRow_auipc (opcode_of_match hw)) fun _ _ => rfl⟩

/-- Settles O18: by the row of each form; the two comparisons write their truth value as the rule does. -/
theorem registerImmediateResults : Obligations.RegisterImmediateResults := by
  refine ⟨?addi, ?slti, ?sltiu, ?xori, ?ori, ?andi⟩
  case slti => exact computesImm_of_row rfl (fun _ _ _ _ _ => rfl) fun _ _ _ _ => by rw [← truthWord_lessSigned]; rfl
  case sltiu => exact computesImm_of_row rfl (fun _ _ _ _ _ => rfl) fun _ _ _ _ => by rw [← truthWord_lessUnsigned]; rfl
  all_goals exact computesImm_of_row rfl (fun _ _ _ _ _ => rfl) fun _ _ _ _ => rfl

/-- Settles O19: by the row of each form; the model's shifts of naturals are the shifts of words. -/
theorem constantShiftResults : Obligations.ConstantShiftResults := by
  refine ⟨?slli, ?srli, ?srai⟩
  case slli => exact computesShamt_of_row rfl (fun _ _ _ _ => rfl) fun _ _ _ _ => by rw [← shiftLeft_eq]; rfl
  case srli => exact computesShamt_of_row rfl (fun _ _ _ _ => rfl) fun _ _ _ _ => by rw [← shiftRightLogical_eq]; rfl
  case srai => exact computesShamt_of_row rfl (fun _ _ _ _ => rfl) fun _ _ _ _ => rfl

/-- Settles O20: by the row of each form; the two comparisons write their truth value as the rule does. -/
theorem registerRegisterResults : Obligations.RegisterRegisterResults := by
  refine ⟨?add, ?sub, ?slt, ?sltu, ?xor, ?or, ?and⟩
  case slt => exact computesReg_of_row rfl (fun _ _ _ => rfl) fun _ _ _ _ => by rw [← truthWord_lessSigned]; rfl
  case sltu => exact computesReg_of_row rfl (fun _ _ _ => rfl) fun _ _ _ _ => by rw [← truthWord_lessUnsigned]; rfl
  all_goals exact computesReg_of_row rfl (fun _ _ _ => rfl) fun _ _ _ _ => rfl

/-- Settles O21: by the row of each form; the model's shift amount is the low five bits of the register. -/
theorem registerShiftResults : Obligations.RegisterShiftResults := by
  refine ⟨?sll, ?srl, ?sra⟩
  case sll => exact computesReg_of_row rfl (fun _ _ _ => rfl) fun _ _ _ _ => by rw [← shiftLeft_eq]; rfl
  case srl => exact computesReg_of_row rfl (fun _ _ _ => rfl) fun _ _ _ _ => by rw [← shiftRightLogical_eq]; rfl
  case sra => exact computesReg_of_row rfl (fun _ _ _ => rfl) fun _ _ _ _ => rfl

/-- Settles O22: the model's shifts are those of words, whose bits the library gives; a bit past the operand's last is 0. -/
theorem shiftsBitByBit : Obligations.ShiftsBitByBit := by
  intro a n i _ hi
  rw [shiftLeft_eq, shiftRightLogical_eq, shiftRightArithmetic_eq]
  refine ⟨?left, ?logical, ?arithmetic⟩
  case left => simp only [BitVec.getLsbD_shiftLeft, hi, decide_true, Bool.true_and, ← decide_not, Nat.not_lt]
  case logical =>
    rw [BitVec.getLsbD_ushiftRight, Nat.add_comm n i]
    exact (Bool.and_eq_right_iff_imp.2 fun h => decide_eq_true (BitVec.lt_of_getLsbD h)).symm
  case arithmetic =>
    rw [BitVec.getLsbD_sshiftRight, Nat.add_comm n i]
    simp [BitVec.msb_eq_getLsbD_last, Nat.not_le.2 hi]

end Sys2Proof.Machine
end

section
/-! SUPPORT. Control transfer (42_control_transfer.md): what a jump and a branch change and leave, and the rows of JAL, JALR
and BRANCH, which decode to their instruction. -/

namespace Sys2Proof.Machine

open Sys2Proof.Claims

/-! ### Jumps (R201, R202) -/

/-- A jump completes: it writes the link, moves the pc to a target computed before that write, and changes nothing else. -/
theorem jump_completes (i : RegIdx) (target : Word) (s : State) :
    ∃ t, jump i target s = .next t ∧ OnlyReg s t i (s.pc + 4#32) ∧ t.pc = target ∧ Quiet s t :=
  ⟨_, rfl, onlyReg_writeX s i _, rfl, quiet_writeX_setPc i _ target s⟩

/-! ### Branches (R203 to R208) -/

/-- A move of the pc leaves everything else as it was: it is a discarded register write and that move. -/
theorem quiet_setPc (target : Word) (s : State) : Quiet s (s.setPc target) := by
  simpa only [State.writeX_zero] using quiet_writeX_setPc 0#5 0#32 target s

/-- A branch completes: it moves the pc by its condition and changes nothing else. -/
theorem branch_completes (taken : Bool) (imm : Word) (s : State) :
    ∃ t, branch taken imm s = .next t ∧ SameRegs s t ∧ Quiet s t ∧
      t.pc = if taken then s.pc + imm else s.pc + 4#32 :=
  ⟨_, branch_eq taken imm s, fun _ => rfl, quiet_setPc _ s, rfl⟩

/-- A row of the major opcode BRANCH, whose test decides the rule's condition (R106, R203). -/
theorem branches_of_row {pattern : Word} {mk : RegIdx → RegIdx → Word → Instr} {cond : Word → Word → Prop}
    {test : Word → Word → Bool} (hop : opcodeOf pattern = 0b1100011#7)
    (hrow : ∀ rs1 rs2 imm, decodeBranch (funct3Of pattern) rs1 rs2 imm = some (mk rs1 rs2 imm))
    (hexec : ∀ rs1 rs2 imm s, exec (mk rs1 rs2 imm) s = branch (test (s.readX rs1) (s.readX rs2)) imm s)
    (htest : ∀ a b, test a b = true ↔ cond a b) : Branches pattern mk cond := by
  intro w s hw
  obtain ⟨hopw, h3⟩ := funct3_of_match hw
  refine ⟨decode_of_row ?_, ?_⟩
  · rw [decodeRow_branch (hopw.trans hop), h3, hrow]
    rfl
  · obtain ⟨t, ht, hregs, hquiet, hpc⟩ := branch_completes (test (s.readX (rs1 w)) (s.readX (rs2 w))) (bImm w) s
    refine ⟨t, (hexec ..).trans ht, hregs, hquiet, fun hc => ?_, fun hc => ?_⟩
    · rw [hpc, if_pos ((htest ..).2 hc)]
    · rw [hpc, if_neg (mt (htest ..).1 hc)]

theorem lessSigned_eq_true (a b : Word) : lessSigned a b = true ↔ a.toInt < b.toInt := decide_eq_true_iff

theorem lessUnsigned_eq_true (a b : Word) : lessUnsigned a b = true ↔ a.toNat < b.toNat := decide_eq_true_iff

theorem not_lessSigned_eq_true (a b : Word) : (!lessSigned a b) = true ↔ a.toInt ≥ b.toInt := by
  rw [Bool.not_eq_true', ← Bool.not_eq_true, lessSigned_eq_true, not_lt]

theorem not_lessUnsigned_eq_true (a b : Word) : (!lessUnsigned a b) = true ↔ a.toNat ≥ b.toNat := by
  rw [Bool.not_eq_true', ← Bool.not_eq_true, lessUnsigned_eq_true, not_lt]

/-! ### The obligations -/

/-- Settles O24: the opcode finds JAL's row, opcode and funct3 find JALR's; both are jumps, to targets read off the old
state. -/
theorem jumpResults : Obligations.JumpResults := by
  refine ⟨fun w s hw => ⟨decode_of_row ?jal, jump_completes ..⟩, fun w s hw => ⟨decode_of_row ?jalr, jump_completes ..⟩⟩
  case jal => exact decodeRow_jal (opcode_of_match hw)
  case jalr =>
    obtain ⟨hop, h3⟩ := funct3_of_match hw
    exact (decodeRow_jalr hop).trans (if_pos h3)

/-- Settles O25: by the row of each branch, and the test the model makes for the rule's condition. -/
theorem branchResults : Obligations.BranchResults := by
  refine ⟨?beq, ?bne, ?blt, ?bge, ?bltu, ?bgeu⟩
  case beq => exact branches_of_row rfl (fun _ _ _ => rfl) (fun _ _ _ _ => rfl) fun _ _ => beq_iff_eq
  case bne => exact branches_of_row rfl (fun _ _ _ => rfl) (fun _ _ _ _ => rfl) fun _ _ => bne_iff_ne
  case blt => exact branches_of_row rfl (fun _ _ _ => rfl) (fun _ _ _ _ => rfl) lessSigned_eq_true
  case bge => exact branches_of_row rfl (fun _ _ _ => rfl) (fun _ _ _ _ => rfl) not_lessSigned_eq_true
  case bltu => exact branches_of_row rfl (fun _ _ _ => rfl) (fun _ _ _ _ => rfl) lessUnsigned_eq_true
  case bgeu => exact branches_of_row rfl (fun _ _ _ => rfl) (fun _ _ _ _ => rfl) not_lessUnsigned_eq_true

end Sys2Proof.Machine
end

section
/-! SUPPORT. Loads and stores (43_load_store.md): the tick that issues and serves a request, the tick that completes it, and
where each access stops the run. -/

namespace Sys2Proof.Machine

open Sys2Proof.Claims

/-! ### Values loaded (R8, R54) -/

/-- The low bits of a value that has no others are that value, extended. -/
theorem lowBits_setWidth (n : AccessSize) (signed : Bool) (v : BitVec (8 * n.bytes)) :
    lowBits n signed (v.setWidth 32) = if signed then v.signExtend 32 else v.setWidth 32 := by
  have hbits : 8 * n.bytes ≤ 32 := by cases n <;> decide
  rw [lowBits, BitVec.setWidth_setWidth_of_le _ hbits, BitVec.setWidth_eq]

/-- A device's answer, whose low bits alone are kept, is extended as the whole word would be (R67, R150). -/
theorem lowBits_lowBits (n : AccessSize) (signed : Bool) (v : Word) :
    lowBits n signed (lowBits n false v) = lowBits n signed v :=
  lowBits_setWidth n signed (v.setWidth (8 * n.bytes))

/-- `MemRead` of present bytes given by their index is their word (R54). -/
theorem Memory.memRead_of_bytes {m : Memory} {a : Word} {n : Nat} {b : Nat → Byte}
    (h : ∀ i < n, m.read (at_ a i).toNat = some (b i)) : m.memRead a n = .ok (wordOfBytes ((List.range n).map b)) := by
  have hlength : ((List.range n).map b).length = n := by simp
  rw [← Memory.memRead_of_present (m := m) (a := a) fun i hi => ?_, hlength]
  rw [List.getElem_map, List.getElem_range]
  exact h i (hlength ▸ hi)

/-! ### The flat array (R62 tests 3 and 4) -/

section
variable {s : State} {r : Request}

/-- A request that no device and no control word takes goes to the flat array. -/
theorem service_of_plain (h : Plain s.cfg r.address r.size.bytes) : service r s = flatAccess r s := by
  rw [service, (ownerOf_eq_none_iff _ _).2 h.1]
  exact if_neg (mt (meetsDmaCtrl_eq_true _ _ _).1 h.2)

variable {n : AccessSize} {a : Word} (hr : s.run = .running) (hp : Plain s.cfg a n.bytes)
include hr hp

/-- A read of an absent byte stops the run (R54, R64). -/
theorem busPhase_read_absent {e : Word} (hb : s.bus = { req := some (.read n a), rsp := none })
    (he : FirstAbsent s.mem a n.bytes e) : busPhase s = stoppedWith s (.memoryError e) := by
  rw [busPhase_of_request hr hb, service_of_plain hp, flatAccess, Memory.memRead_eq_error.2 he]
  rfl

/-- A read of present bytes is answered with their word (R64). -/
theorem busPhase_read_present {b : Nat → Byte} (hb : s.bus = { req := some (.read n a), rsp := none })
    (hm : ∀ i < n.bytes, s.mem.read (at_ a i).toNat = some (b i)) :
    busPhase s = { s with bus := answer (some (wordOfBytes ((List.range n.bytes).map b))) } := by
  rw [busPhase_of_request hr hb, service_of_plain hp, flatAccess, Memory.memRead_of_bytes hm]
  rfl

/-- A write stores its bytes (R55). -/
theorem busPhase_write {v : Word} (hb : s.bus = { req := some (.write n a v), rsp := none }) :
    busPhase s = { s with bus := answer none, mem := s.mem.memWrite a n.bytes v } := by
  rw [busPhase_of_request hr hb, service_of_plain hp]
  rfl

end

/-! ### The first tick (R148, R153) -/

/-- The first tick of a machine about to issue `r` and to wait for `p`: a misaligned address stops it, and otherwise the
request is placed and the Bus/Memory phase is what is left of the tick. -/
structure Issues (s : State) (r : Request) (p : Pending) : Prop where
  stops  : Misaligns s.cfg r.address r.size.bytes →
    StepStops s s (.modelFault (.misalignedAccess r.address r.size))
  places : ¬ Misaligns s.cfg r.address r.size.bytes → step s = .next (busPhase (issued s.beginTick r p))

/-- A machine ready to fetch an instruction that issues `r` has this first tick; while the CPU waits the DMA engine does
nothing (R80). -/
theorem issues_of_exec {s : State} {w : Word} {i : Instr} {r : Request} {p : Pending} (hs : Ready s w)
    (hd : decode w = .instr i)
    (hplace : ¬ Misaligns s.cfg r.address r.size.bytes → exec i s.beginTick = .next (issued s.beginTick r p))
    (hstop : Misaligns s.cfg r.address r.size.bytes → exec i s.beginTick =
      .next (stoppedWith s.beginTick (.modelFault (.misalignedAccess r.address r.size)))) : Issues s r p where
  stops hm := by
    refine ⟨s.beginTick.stop _, ?_, s.ticks + 1, rfl⟩
    rw [step_of_ready hs, decodeExecute_of_instr hd, hstop hm]
    exact afterCpu_raise _ _
  places hm := by
    have hwait : (busPhase (issued s.beginTick r p)).mode ≠ .idle := by
      rw [(busPhase_cpuKept _).mode]
      exact Mode.noConfusion
    rw [step_of_ready hs, decodeExecute_of_instr hd, hplace hm, afterCpu, dmaPhase_of_waiting hwait]

theorem issues_of_load {pattern w : Word} {mk : RegIdx → RegIdx → Word → Instr} {n : AccessSize} {signed : Bool}
    {s : State} (h : IssuesLoad pattern mk n signed) (hs : Ready s w) (hw : w &&& 0x0000707F#32 = pattern) :
    Issues s (.read n (loadAddr w s)) (.load (rd w) n signed) := by
  obtain ⟨hd, hplace, hstop⟩ := h w s.beginTick hw
  exact issues_of_exec hs hd (fun hm => hplace hm hs.bus) hstop

theorem issues_of_store {pattern w : Word} {mk : RegIdx → RegIdx → Word → Instr} {n : AccessSize}
    {s : State} (h : IssuesStore pattern mk n) (hs : Ready s w) (hw : w &&& 0x0000707F#32 = pattern) :
    Issues s (.write n (storeAddr w s) (s.readX (rs2 w))) .store := by
  obtain ⟨hd, hplace, hstop⟩ := h w s.beginTick hw
  exact issues_of_exec hs hd (fun hm => hplace hm hs.bus) hstop

/-- The Bus/Memory phase of the first tick touches nothing of the CPU, so where it does not stop the run the CPU waits. -/
theorem waiting_busPhase {s : State} {r : Request} {p : Pending}
    (hr : (busPhase (issued s.beginTick r p)).run = .running) : Waiting s (busPhase (issued s.beginTick r p)) p where
  run  := hr
  mode := (busPhase_cpuKept _).mode
  regs := State.readX_congr (busPhase_cpuKept _).x
  pc   := (busPhase_cpuKept _).pc
  f    := (busPhase_cpuKept _).f
  out  := (busPhase_cpuKept _).out
  cfg  := (busPhase_cpuKept _).cfg

/-! ### The second tick (R150, R153) -/

/-- The state a completion leaves to the DMA phase, a store being a discarded write of `x0` (R150). -/
def completing (t : State) (i : RegIdx) (v : Word) : State := (t.writeX i v).advance.resume.beginTick

/-- What the second tick leaves, where the answer to the CPU stands in its slot. -/
theorem completed_dmaPhase {s t : State} {p : Pending} {d : Option Word} (hw : Waiting s t p) (hb : t.bus = answer d)
    (i : RegIdx) (v : Word) : Completed s t (dmaPhase (completing t i v)) where
  mode    := (dmaPhase_engineOnly _).kept.mode
  bus     := (dmaPhase_engineOnly _).bus.trans (by simp [completing, State.beginTick, hb, answer, emptyBus])
  pc      := (dmaPhase_engineOnly _).kept.pc.trans (by simp [completing, State.beginTick, hw.pc])
  f       := (dmaPhase_engineOnly _).kept.f.trans ((State.writeX_f ..).trans hw.f)
  out     := (dmaPhase_engineOnly _).kept.out.trans ((State.writeX_out ..).trans hw.out)
  pevents := (dmaPhase_engineOnly _).pevents.trans (State.writeX_pevents ..)
  draws   := (dmaPhase_engineOnly _).draws.trans (State.writeX_draws ..)
  cfg     := (dmaPhase_engineOnly _).kept.cfg.trans ((State.writeX_cfg ..).trans hw.cfg)
  still hn := by
    have hdma : (completing t i v).dma = none := (State.writeX_dma ..).trans hn
    rw [engineActsExactlyWhenEnabled.1 _ (.inr hdma)]
    exact ⟨(State.writeX_run ..).trans hw.run, hdma, sameMem_of_eq (State.writeX_mem ..)⟩

/-- The second tick writes the register of the completion alone. -/
theorem onlyReg_dmaPhase_completing {s t : State} (h : SameRegs s t) (i : RegIdx) (v : Word) :
    OnlyReg s (dmaPhase (completing t i v)) i v := fun k => by
  rw [State.readX_congr (dmaPhase_engineOnly _).kept.x, ← h k]
  exact onlyReg_writeX t i v k

/-! ### Both ticks of an access -/

namespace Issues

variable {s t : State} {w : Word} {r : Request} {p : Pending} (h : Issues s r p)
  (ha : ¬ Misaligns s.cfg r.address r.size.bytes)
include h ha

/-- A stop of the Bus/Memory phase leaves the request in its slot and the CPU waiting (R281). -/
theorem stops_of_busPhase {e : StopReason}
    (he : busPhase (issued s.beginTick r p) = stoppedWith (issued s.beginTick r p) e) : StepStops s (issued s r p) e :=
  ⟨_, h.places ha, s.ticks + 1, he⟩

/-- A request at the control word that does not arm the engine stops the run (R74). -/
theorem stops_at_control (hs : Ready s w) (ho : ¬ Owned s.cfg r.address)
    (hc : MeetsControl s.cfg r.address r.size.bytes) (hne : ∀ D v, s.cfg.dmaCtrlAddr = some D → r ≠ .write .word D v) :
    StepStops s (issued s r p) (.modelFault (.dmaCtrlAccess (.request r))) :=
  h.stops_of_busPhase ha (otherControlAccessStops _ r hs.run rfl ho hc hne)

/-- A request that is answered is completed in the next tick, by the register write the CPU waits to make. -/
theorem completes (hs : Ready s w) {d : Option Word} {i : RegIdx} {v : Word}
    (ht : busPhase (issued s.beginTick r p) = t) (hr : t.run = .running) (hb : t.bus = answer d)
    (hc : complete p { data := d } t.beginTick = .next (t.beginTick.writeX i v).advance.resume) :
    ∃ u, step s = .next t ∧ step t = .next u ∧ Waiting s t p ∧ Completed s t u ∧ OnlyReg s u i v := by
  subst ht
  have hw := waiting_busPhase hr
  refine ⟨_, h.places ha, ?_, hw, completed_dmaPhase hw hb i v, onlyReg_dmaPhase_completing hw.regs i v⟩
  rw [writeX_beginTick] at hc
  exact step_of_complete hw.mode hr (by rw [hw.cfg]; exact hs.legal) hb hc

end Issues

/-- An answered store: its two ticks write no register. -/
theorem Issues.store_completes {s t : State} {w : Word} {r : Request} (h : Issues s r .store)
    (ha : ¬ Misaligns s.cfg r.address r.size.bytes) (hs : Ready s w)
    (ht : busPhase (issued s.beginTick r .store) = t) (hr : t.run = .running) (hb : t.bus = answer none) :
    ∃ u, step s = .next t ∧ step t = .next u ∧ Waiting s t .store ∧ Completed s t u ∧ SameRegs s u := by
  obtain ⟨u, hst, htu, hw, hdone, hreg⟩ := h.completes ha hs (i := 0#5) (v := 0#32) ht hr hb rfl
  exact ⟨u, hst, htu, hw, hdone, fun k => (hreg k).trans (if_neg fun hk => hk.2 hk.1)⟩

/-! ### The rows -/

/-- The statement of a load, from its issue and from what it makes of the word its bytes are. -/
theorem loads_of_issuesLoad {pattern : Word} {mk : RegIdx → RegIdx → Word → Instr} {n : AccessSize} {signed : Bool}
    {value : (Nat → Byte) → Word} (hload : IssuesLoad pattern mk n signed)
    (hvalue : ∀ b, lowBits n signed (wordOfBytes ((List.range n.bytes).map b)) = value b) :
    Loads pattern n signed value := by
  intro w s hs hw
  have h := issues_of_load hload hs hw
  refine ⟨h.stops, fun ha d hd => ?device,
    fun ha ho hc => h.stops_at_control ha hs ho hc fun _ _ _ => Request.noConfusion,
    fun ha hp => ⟨fun e he => h.stops_of_busPhase ha ?absent, fun b hb => ?present⟩⟩
  case device =>
    obtain ⟨k, hk⟩ := (peripheralReceivesRequest (issued s.beginTick _ _) d n (loadAddr w s) 0#32 hs.run hd).1 rfl
    obtain ⟨u, hst, htu, hwait, hdone, hreg⟩ := h.completes ha hs hk hs.run rfl (complete_load ..)
    rw [lowBits_lowBits] at hreg
    exact ⟨_, u, hst, htu, hwait, hdone, hreg, rfl, rfl, fun _ => rfl, k, rfl⟩
  case absent => exact busPhase_read_absent (s := issued s.beginTick _ _) hs.run hp rfl he
  case present =>
    have ht := busPhase_read_present (s := issued s.beginTick _ (.load (rd w) n signed)) hs.run hp rfl hb
    obtain ⟨u, hst, htu, hwait, hdone, hreg⟩ := h.completes ha hs ht hs.run rfl (complete_load ..)
    rw [hvalue] at hreg
    exact ⟨_, u, hst, htu, hwait, hdone, hreg, rfl, rfl, fun _ => rfl, rfl⟩

/-- The statement of a store, from its issue. -/
theorem stores_of_issuesStore {pattern : Word} {mk : RegIdx → RegIdx → Word → Instr} {n : AccessSize}
    (hstore : IssuesStore pattern mk n) : Stores pattern n := by
  intro w s hs hw
  have h := issues_of_store hstore hs hw
  refine ⟨h.stops, fun ha d hd => ?device, fun ha ho hc => ⟨fun hn hD => ?word, fun hne => ?other⟩, fun ha hp => ?plain⟩
  case device =>
    obtain ⟨k, hk⟩ :=
      (peripheralReceivesRequest (issued s.beginTick _ _) d n (storeAddr w s) (s.readX (rs2 w)) hs.run hd).2 rfl
    obtain ⟨u, hst, htu, hwait, hdone, hregs⟩ := h.store_completes ha hs hk hs.run rfl
    exact ⟨_, u, hst, htu, hwait, hdone, hregs, rfl, rfl, fun _ => rfl, k, rfl⟩
  case word =>
    subst hn
    obtain ⟨harm, hrearm⟩ := controlWriteArmsEngine (issued s.beginTick _ .store) _ _ hs.run hD ho rfl
    refine ⟨fun j hj => h.stops_of_busPhase ha (hrearm j hj), fun hnone => ?_⟩
    obtain ⟨u, hst, htu, hwait, hdone, hregs⟩ := h.store_completes ha hs (harm hnone) hs.run rfl
    exact ⟨_, u, hst, htu, hwait, hdone, hregs, rfl, fun _ => rfl, rfl, rfl⟩
  case other =>
    refine h.stops_at_control ha hs ho hc fun D v hD heq => hne ?_
    cases heq
    exact ⟨rfl, hD⟩
  case plain =>
    have hsize : n.bytes ∈ [1, 2, 4] := by cases n <;> decide
    obtain ⟨hinside, houtside, -⟩ := memWriteStoresBytes s.mem (storeAddr w s) (s.readX (rs2 w)) n.bytes hsize
    have ht := busPhase_write (s := issued s.beginTick _ .store) (v := s.readX (rs2 w)) hs.run hp rfl
    obtain ⟨u, hst, htu, hwait, hdone, hregs⟩ := h.store_completes ha hs ht hs.run rfl
    exact ⟨_, u, hst, htu, hwait, hdone, hregs, rfl, rfl, rfl, hinside, houtside⟩

/-! ### The obligations -/

/-- Settles O29: by the row of each load, and the extension of its one, two or four bytes. -/
theorem loadsWriteBackInTwoTicks : Obligations.LoadsWriteBackInTwoTicks := by
  obtain ⟨hlb, hlh, hlw, hlbu, hlhu, -⟩ := loadsAndStoresIssueRequest
  have hbyte (signed : Bool) (b : Nat → Byte) := lowBits_setWidth .byte signed (b 0)
  have hhalf (signed : Bool) (b : Nat → Byte) := lowBits_setWidth .half signed (b 1 ++ b 0 : BitVec 16)
  have hword (b : Nat → Byte) := signExtended_eq_lowBits .word (b 3 ++ b 2 ++ b 1 ++ b 0 : BitVec 32)
  refine ⟨loads_of_issuesLoad hlb fun b => ?lb, loads_of_issuesLoad hlh fun b => ?lh, loads_of_issuesLoad hlw fun b => ?lw,
    loads_of_issuesLoad hlbu fun b => ?lbu, loads_of_issuesLoad hlhu fun b => ?lhu⟩
  case lb => exact (congrArg _ (wordOfBytes_one _)).trans (hbyte true b)
  case lh => exact (congrArg _ (wordOfBytes_two _ _)).trans (hhalf true b)
  case lw => exact (congrArg _ (wordOfBytes_four _ _ _ _)).trans (hword b).symm
  case lbu => exact (congrArg _ (wordOfBytes_one _)).trans (hbyte false b)
  case lhu => exact (congrArg _ (wordOfBytes_two _ _)).trans (hhalf false b)

/-- Settles O30: by the row of each store. -/
theorem storesWriteMemoryInTwoTicks : Obligations.StoresWriteMemoryInTwoTicks := by
  obtain ⟨-, -, -, -, -, hsb, hsh, hsw⟩ := loadsAndStoresIssueRequest
  exact ⟨stores_of_issuesStore hsb, stores_of_issuesStore hsh, stores_of_issuesStore hsw⟩

end Sys2Proof.Machine
end

section
/-! SUPPORT. FENCE, ECALL and EBREAK (44_fence_system.md): the service each number calls, the decimal digits of
print_int, the string of print_string, and what a service that completes and one that stops the run change. -/

namespace Sys2Proof.Machine

open Sys2Proof.Claims

/-! ### What a service changes -/

/-- An execution that issues nothing and stops nothing changes at most registers, the pc, the output and the draws. -/
theorem frame_of_cpuOnly {s t : State} (h : CpuOnly s t) (hr : t.run = s.run) : Frame s t :=
  ⟨h.f, h.mode, h.bus, sameMem_of_eq h.mem, h.dma, hr, h.pevents, h.ticks, h.cfg⟩

/-- The emission of bytes and the move of the pc: print_int and print_string complete so (R243, R244). -/
theorem emit_completes (bs : List Byte) (s : State) :
    (s.emit bs).advance.out = s.out ++ bs ∧ SameRegs s (s.emit bs).advance ∧ (s.emit bs).advance.pc = s.pc + 4#32 ∧
    (s.emit bs).advance.draws = s.draws ∧ Frame s (s.emit bs).advance :=
  ⟨rfl, fun _ => rfl, rfl, rfl, frame_of_cpuOnly (cpuOnly_emit bs s) rfl⟩

/-- The tick of a machine about to execute an instruction that stops the run ends there (R151). -/
theorem stepStops_of_exec {s : State} {w : Word} {i : Instr} {r : StopReason} (hs : Ready s w)
    (hd : decode w = .instr i) (he : exec i s.beginTick = raise r s.beginTick) : StepStops s s r :=
  ⟨s.beginTick.stop r, by rw [step_of_ready hs, decodeExecute_of_instr hd, he, afterCpu_raise], s.ticks + 1, rfl⟩

/-! ### The service table (R242) -/

theorem decode_ecall : decode 0x00000073#32 = .instr .ecall := by decide

theorem exec_ecall_of_printInt {s : State} (h : s.readX s.cfg.syscallReg = s.cfg.sysPrintInt) :
    exec .ecall s = servicePrintInt s :=
  if_pos h

section
variable {s : State} (hd : DistinctServices s.cfg)
include hd

theorem exec_ecall_of_printString (h : s.readX s.cfg.syscallReg = s.cfg.sysPrintString) :
    exec .ecall s = servicePrintString s := by
  obtain ⟨hint, -⟩ := hd
  rw [exec, execEcall, h, if_neg hint.symm, if_pos rfl]

theorem exec_ecall_of_exit (h : s.readX s.cfg.syscallReg = s.cfg.sysExit) : exec .ecall s = raise .exit s := by
  obtain ⟨-, hint, -, hstring, -⟩ := hd
  rw [exec, execEcall, h, if_neg hint.symm, if_neg hstring.symm, if_pos rfl, serviceExit]

theorem exec_ecall_of_write (h : s.readX s.cfg.syscallReg = s.cfg.sysWrite) : exec .ecall s = serviceWrite s := by
  obtain ⟨-, -, hint, -, hstring, hexit⟩ := hd
  rw [exec, execEcall, h, if_neg hint.symm, if_neg hstring.symm, if_neg hexit.symm, if_pos rfl]

end

/-- A number outside the table stops the run (R247). -/
theorem exec_ecall_of_unknown {s : State}
    (h : s.readX s.cfg.syscallReg ∉ [s.cfg.sysPrintInt, s.cfg.sysPrintString, s.cfg.sysExit, s.cfg.sysWrite]) :
    exec .ecall s = raise (.modelFault (.unknownService (s.readX s.cfg.syscallReg))) s := by
  simp only [List.mem_cons, List.not_mem_nil, or_false, not_or] at h
  obtain ⟨hint, hstring, hexit, hwrite⟩ := h
  rw [exec, execEcall, if_neg hint, if_neg hstring, if_neg hexit, if_neg hwrite]

/-! ### print_int: decimal digits (R243) -/

/-- `ds` are the decimal digits of `n`, most significant first, with no leading zero unless `n` is 0. -/
structure DigitsOf (n : Nat) (ds : List Nat) : Prop where
  nonempty : ds ≠ []
  small    : ∀ d ∈ ds, d < 10
  leading  : ds.head? = some 0 → ds = [0]
  value    : ds.foldl (fun acc d => 10 * acc + d) 0 = n

theorem DigitsOf.singleton {n : Nat} (h : n < 10) : DigitsOf n [n] where
  nonempty := List.cons_ne_nil _ _
  small    := by simpa using h
  leading  := by simp
  value    := by simp

/-- The digits of a number of two digits or more are those of its tenth, and its last. -/
theorem DigitsOf.snoc {n : Nat} {ds : List Nat} (h : DigitsOf (n / 10) ds) (hn : 10 ≤ n) :
    DigitsOf n (ds ++ [n % 10]) where
  nonempty := by simp
  small d hd := by
    rcases List.mem_append.1 hd with hd | hd
    · exact h.small d hd
    · rw [List.mem_singleton.1 hd]; exact Nat.mod_lt _ (by decide)
  leading hz := by
    rw [List.head?_append_of_ne_nil _ h.nonempty] at hz
    have hzero : 0 = n / 10 := by rw [← h.value, h.leading hz]; rfl
    omega
  value := by
    rw [List.foldl_append, h.value]
    exact Nat.div_add_mod n 10

/-- The model's digits are those of the number, in ASCII, where the fuel is at least their count. -/
theorem decimalDigits_digitsOf {fuel n : Nat} (h : n < 10 ^ (fuel + 1)) :
    ∃ ds, DigitsOf n ds ∧ decimalDigits (fuel + 1) n = ds.map fun d => BitVec.ofNat 8 (48 + d) := by
  induction fuel generalizing n with
  | zero => exact ⟨[n], .singleton h, if_pos h⟩
  | succ fuel ih =>
    by_cases hn : n < 10
    · exact ⟨[n], .singleton hn, if_pos hn⟩
    · obtain ⟨ds, hds, heq⟩ := ih (n := n / 10) (by rw [pow_succ] at h; omega)
      refine ⟨ds ++ [n % 10], hds.snoc (Nat.le_of_not_lt hn), ?_⟩
      rw [decimalDigits, if_neg hn, heq, List.map_append, List.map_singleton]

/-- A word's signed value has at most ten digits. -/
theorem natAbs_toInt_lt (v : Word) : v.toInt.natAbs < 10 ^ (9 + 1) := by
  have hlow := BitVec.le_toInt v
  have hhigh := BitVec.toInt_lt (x := v)
  omega

/-- The model prints the decimal of a word's signed value. -/
theorem decimal_decimalBytes (v : Word) : Decimal v.toInt (decimalBytes v.toInt) := by
  obtain ⟨ds, ⟨hne, hsmall, hleading, hvalue⟩, heq⟩ := decimalDigits_digitsOf (natAbs_toInt_lt v)
  refine ⟨ds, hne, hsmall, hleading, hvalue, ?_⟩
  rw [decimalBytes, heq]
  split <;> rfl

/-! ### print_string: the bytes before the first NUL (R244) -/

/-- The bytes from `a` on are `bs`, and no NUL is among them. -/
structure StringAt (m : Memory) (a : Word) (bs : List Byte) : Prop where
  noNul : 0#8 ∉ bs
  bytes : ∀ i < bs.length, m.read (at_ a i).toNat = bs[i]?

/-- Present bytes without a NUL are a string. -/
theorem exists_stringAt {m : Memory} {a : Word} {k : Nat}
    (h : ∀ i < k, ∃ b : Byte, b ≠ 0#8 ∧ m.read (at_ a i).toNat = some b) :
    ∃ bs, bs.length = k ∧ StringAt m a bs := by
  choose b hne hb using fun i : Fin k => h i i.isLt
  refine ⟨List.ofFn b, List.length_ofFn, fun hmem => ?_, fun i hi => ?_⟩
  · obtain ⟨i, hi⟩ := (List.mem_ofFn' _ _).1 hmem
    exact hne i hi
  · rw [List.length_ofFn] at hi
    rw [hb ⟨i, hi⟩, List.getElem?_ofFn, dif_pos hi]

theorem StringAt.tail {m : Memory} {a : Word} {b : Byte} {bs : List Byte} (h : StringAt m a (b :: bs)) :
    StringAt m (a + 1#32) bs where
  noNul hmem := h.noNul (List.mem_cons_of_mem _ hmem)
  bytes i hi := by rw [at_add_one]; exact h.bytes (i + 1) (Nat.succ_lt_succ hi)

section
variable {m : Memory} {start a : Word} {bs : List Byte}

theorem collectString_of_absent (n : Nat) (h : m.read a.toNat = none) :
    collectString m start (n + 1) a = .error (.memoryError a) := by
  rw [collectString, h]

theorem collectString_of_nul (n : Nat) (h : m.read a.toNat = some 0#8) : collectString m start (n + 1) a = .ok [] := by
  rw [collectString, h]
  exact if_pos rfl

theorem collectString_of_byte {b : Byte} (n : Nat) (h : m.read a.toNat = some b) (hb : b ≠ 0#8) :
    collectString m start (n + 1) a = (collectString m start n (a + 1#32)).map (b :: ·) := by
  rw [collectString, h]
  refine (if_neg hb).trans ?_
  cases collectString m start n (a + 1#32) <;> rfl

/-- The loop runs over a string and goes on after it. -/
theorem collectString_append (n : Nat) (h : StringAt m a bs) :
    collectString m start (bs.length + n) a = (collectString m start n (at_ a bs.length)).map (bs ++ ·) := by
  induction bs generalizing a with
  | nil =>
    rw [List.length_nil, Nat.zero_add, at_zero]
    cases collectString m start n a <;> rfl
  | cons b bs ih =>
    have hfirst : m.read a.toNat = some b := by simpa using h.bytes 0 (Nat.succ_pos _)
    have hb : b ≠ 0#8 := fun hb => h.noNul (hb ▸ List.mem_cons_self)
    rw [List.length_cons, Nat.add_right_comm, collectString_of_byte _ hfirst hb, ih h.tail, at_add_one]
    cases collectString m start n (at_ a (bs.length + 1)) <;> rfl

variable {fuel : Nat} (h : StringAt m a bs)
include h

/-- A NUL after the string ends it. -/
theorem collectString_eq_ok (hf : bs.length < fuel) (hn : m.read (at_ a bs.length).toNat = some 0#8) :
    collectString m start fuel a = .ok bs := by
  obtain ⟨n, rfl⟩ := Nat.exists_eq_add_of_lt hf
  rw [Nat.add_assoc, collectString_append _ h, collectString_of_nul _ hn]
  exact congrArg _ (List.append_nil bs)

/-- An absent byte after the string raises. -/
theorem collectString_eq_memoryError (hf : bs.length < fuel) (hn : m.read (at_ a bs.length).toNat = none) :
    collectString m start fuel a = .error (.memoryError (at_ a bs.length)) := by
  obtain ⟨n, rfl⟩ := Nat.exists_eq_add_of_lt hf
  rw [Nat.add_assoc, collectString_append _ h, collectString_of_absent _ hn]
  rfl

/-- A string as long as the loop may run raises. -/
theorem collectString_eq_unterminated (hf : bs.length = fuel) :
    collectString m start fuel a = .error (.modelFault (.unterminatedString start)) := by
  rw [← hf, ← Nat.add_zero bs.length, collectString_append _ h]
  rfl

end

theorem servicePrintString_of_ok {s : State} {bs : List Byte}
    (h : collectString s.mem (s.readX 10#5) (2 ^ 32) (s.readX 10#5) = .ok bs) :
    servicePrintString s = .next (s.emit bs).advance := by
  rw [servicePrintString, h]

theorem servicePrintString_of_error {s : State} {e : StopReason}
    (h : collectString s.mem (s.readX 10#5) (2 ^ 32) (s.readX 10#5) = .error e) : servicePrintString s = raise e s := by
  rw [servicePrintString, h]

/-! ### write (R246) -/

theorem serviceWrite_of_unsupportedFd {s : State} (h : s.readX 10#5 ≠ 1#32) :
    serviceWrite s = raise (.modelFault (.unsupportedFd (s.readX 10#5))) s :=
  if_pos h

section
variable {s : State} (hfd : s.readX 10#5 = 1#32)
include hfd

theorem serviceWrite_of_ok {bs : List Byte} (h : s.mem.readBytes (s.readX 12#5).toNat (s.readX 11#5) = .ok bs) :
    serviceWrite s = .next ((s.emit bs).writeX 10#5 s.drawn).afterDraw.advance := by
  rw [serviceWrite, if_neg (not_not.2 hfd), h]

theorem serviceWrite_of_error {e : Word} (h : s.mem.readBytes (s.readX 12#5).toNat (s.readX 11#5) = .error e) :
    serviceWrite s = raise (.memoryError e) s := by
  rw [serviceWrite, if_neg (not_not.2 hfd), h]

end

/-- Bytes given by their index are the bytes read (R54). -/
theorem Memory.readBytes_of_getElem? {m : Memory} {a : Word} {bs : List Byte}
    (h : ∀ i < bs.length, m.read (at_ a i).toNat = bs[i]?) : m.readBytes bs.length a = .ok bs :=
  Memory.readBytes_eq_ok.2 ⟨rfl, fun i hi => (h i hi).trans (List.getElem?_eq_getElem hi)⟩

/-- The error of a read of bytes is the first absent one (R54). -/
theorem Memory.readBytes_of_firstAbsent {m : Memory} {a e : Word} {n : Nat} (h : FirstAbsent m a n e) :
    m.readBytes n a = .error e := by
  obtain ⟨k, hk, hpresent, habsent, rfl⟩ := h
  exact Memory.readBytes_eq_error.2 ⟨k, hk, rfl, habsent, hpresent⟩

/-! ### The obligations -/

/-- Settles O41: the digits of a number are those of its tenth and its last, and ten of them hold every word. -/
theorem printIntEmitsDecimal : Obligations.PrintIntEmitsDecimal :=
  ⟨decode_ecall, fun s _ hn => ⟨_, _, exec_ecall_of_printInt hn, decimal_decimalBytes _, emit_completes _ s⟩⟩

/-- Settles O42: the loop runs over the bytes without a NUL, and the next byte, or the end of the fuel, decides. -/
theorem printStringEmitsBytes : Obligations.PrintStringEmitsBytes := by
  intro s hd hn
  rw [exec_ecall_of_printString hd hn]
  refine ⟨fun bs hl hnul hbytes hend => ?nul, fun k hk hbytes habsent => ?absent, fun hbytes => ?unterminated⟩
  case nul =>
    exact ⟨_, servicePrintString_of_ok (collectString_eq_ok ⟨hnul, hbytes⟩ hl hend), emit_completes bs s⟩
  case absent =>
    obtain ⟨bs, rfl, hbs⟩ := exists_stringAt hbytes
    exact servicePrintString_of_error (collectString_eq_memoryError hbs hk habsent)
  case unterminated =>
    obtain ⟨bs, hl, hbs⟩ := exists_stringAt hbytes
    exact servicePrintString_of_error (collectString_eq_unterminated hbs hl)

/-- Settles O43: the buffer is read before anything is emitted, so an absent byte leaves no trace. -/
theorem writeEmitsBuffer : Obligations.WriteEmitsBuffer := by
  intro s hd hn
  rw [exec_ecall_of_write hd hn]
  refine ⟨serviceWrite_of_unsupportedFd, fun hfd bs hl hbytes => ?present, fun hfd e he => ?absent⟩
  case present =>
    have hread := Memory.readBytes_of_getElem? hbytes
    rw [hl] at hread
    exact ⟨_, serviceWrite_of_ok hfd hread, by simp, onlyReg_writeX (s.emit bs) 10#5 s.drawn, by simp, by simp,
      frame_of_cpuOnly (cpuOnly_write bs s) (by simp)⟩
  case absent => exact serviceWrite_of_error hfd (Memory.readBytes_of_firstAbsent he)

/-- Settles O40: opcode and funct3 alone find the row, and no field of the word is looked at. -/
theorem fenceOnlyAdvancesPc : Obligations.FenceOnlyAdvancesPc := by
  intro w s hw
  obtain ⟨hop, h3⟩ := funct3_of_match hw
  exact ⟨_, decode_of_row ((decodeRow_fence hop).trans (if_pos h3)), rfl, rfl⟩

/-- Settles O44: the service numbers differ, so exit's number reaches exit, and another none of the services. -/
theorem exitAndUnknownServiceStop : Obligations.ExitAndUnknownServiceStop := by
  refine fun s hd => ⟨fun hn => ⟨exec_ecall_of_exit hd hn, fun hs => ?tick⟩, exec_ecall_of_unknown⟩
  case tick =>
    have hexit : exec .ecall s.beginTick = raise .exit s.beginTick := exec_ecall_of_exit hd hn
    exact stepStops_of_exec hs decode_ecall hexit

/-- Settles O45: EBREAK is a stop of the run and nothing else. -/
theorem ebreakStopsTheRun : Obligations.EbreakStopsTheRun := by
  have hdecode : decode 0x00100073#32 = .instr .ebreak := by decide
  exact ⟨hdecode, fun _ => rfl, fun _ hs => stepStops_of_exec hs hdecode rfl⟩

end Sys2Proof.Machine
end

section
/-! SUPPORT. Multiplication and division (45_muldiv.md): the product's two halves, the quotients and remainders as those
of words, and the rows of the M extension, whose result may depend on the configuration. -/

namespace Sys2Proof.Machine

open Sys2Proof.Claims

/-! ### Products (R251 to R254) -/

/-- The low half of a product is the same in every reading of the operands (R251). -/
theorem productLow_eq_mul (a b : Word) : productLow a b = a * b := by
  rw [productLow, BitVec.ofNat_mul, BitVec.ofNat_toNat, BitVec.ofNat_toNat, BitVec.setWidth_eq, BitVec.setWidth_eq]

theorem productLow_eq_ofInt_exactProduct (op : HighOp) (a b : Word) :
    productLow a b = BitVec.ofInt 32 (exactProduct op a b) := by
  rw [productLow_eq_mul]
  cases op <;> simp [exactProduct, BitVec.ofInt_mul, BitVec.ofInt_natCast]

theorem productHigh_of_exact {c : Config} (h : c.highProducts = .exact) (op : HighOp) (a b : Word) :
    productHigh c op a b = upperHalf (exactProduct op a b) := by
  rw [productHigh, h]

/-- The two halves of an integer are its 64-bit value. -/
theorem upperHalf_append (p : Int) : (upperHalf p ++ BitVec.ofInt 32 p : BitVec 64) = BitVec.ofInt 64 p := by
  have hlow : BitVec.ofInt 32 p = (BitVec.ofInt 64 p).extractLsb' 0 32 := by
    apply BitVec.eq_of_toNat_eq
    simp only [BitVec.toNat_ofInt, BitVec.extractLsb'_toNat, Nat.shiftRight_zero]
    omega
  rw [hlow]
  exact BitVec.extractLsb'_append_extractLsb' (w := 32) (len := 32)

/-- Under the exact numerics the two halves are the exact product (R252 to R254). -/
theorem productHigh_append_productLow {c : Config} (h : c.highProducts = .exact) (op : HighOp) (a b : Word) :
    (productHigh c op a b ++ productLow a b : BitVec 64) = BitVec.ofInt 64 (exactProduct op a b) := by
  rw [productHigh_of_exact h, productLow_eq_ofInt_exactProduct op, upperHalf_append]

/-! The exact product fits 64 bits in the instruction's own reading. -/

theorem toInt_ofInt_exactProduct_mulh (a b : Word) :
    (BitVec.ofInt 64 (exactProduct .mulh a b)).toInt = a.toInt * b.toInt := by
  have hlo : -2 ^ 62 ≤ a.toInt * b.toInt := BitVec.le_toInt_mul_toInt
  have hhi : a.toInt * b.toInt ≤ 2 ^ 62 := BitVec.toInt_mul_toInt_le
  rw [exactProduct]
  exact BitVec.toInt_ofInt_eq_self (by decide) (by omega) (by omega)

theorem toInt_ofInt_exactProduct_mulhsu (a b : Word) :
    (BitVec.ofInt 64 (exactProduct .mulhsu a b)).toInt = a.toInt * b.toNat := by
  have hlo : -2 ^ 31 * (b.toNat : Int) ≤ a.toInt * b.toNat :=
    mul_le_mul_of_nonneg_right (BitVec.le_toInt a) (Int.natCast_nonneg _)
  have hhi : a.toInt * b.toNat ≤ 2 ^ 31 * (b.toNat : Int) :=
    mul_le_mul_of_nonneg_right BitVec.toInt_lt.le (Int.natCast_nonneg _)
  have hb : b.toNat < 2 ^ 32 := b.isLt
  rw [exactProduct]
  exact BitVec.toInt_ofInt_eq_self (by decide) (by omega) (by omega)

theorem toNat_ofInt_exactProduct_mulhu (a b : Word) :
    (BitVec.ofInt 64 (exactProduct .mulhu a b)).toNat = a.toNat * b.toNat := by
  have hlt : a.toNat * b.toNat < 2 ^ 32 * 2 ^ 32 := Nat.mul_lt_mul'' a.isLt b.isLt
  rw [exactProduct, ← Int.natCast_mul, BitVec.ofInt_natCast, BitVec.toNat_ofNat]
  exact Nat.mod_eq_of_lt hlt

/-! ### Quotients and remainders (R255 to R258) -/

theorem isOverflow_eq_true (a b : Word) : isOverflow a b = true ↔ Overflows a b := by
  simp [isOverflow, Overflows]

/-- The signed quotient rounded toward zero is the signed quotient of words, the overflow wrapping in both. -/
theorem ofInt_tdiv (a b : Word) : BitVec.ofInt 32 (a.toInt.tdiv b.toInt) = a.sdiv b := by
  apply BitVec.eq_of_toInt_eq
  rw [BitVec.toInt_ofInt, BitVec.toInt_sdiv]

/-- What is left of the signed dividend is the signed remainder of words. -/
theorem ofInt_sub_mul_tdiv (a b : Word) : BitVec.ofInt 32 (a.toInt - b.toInt * a.toInt.tdiv b.toInt) = a.srem b := by
  rw [← Int.tmod_def, ← BitVec.toInt_srem, BitVec.ofInt_toInt]

section
variable (c : Config) ⦃a b : Word⦄

theorem quotientSigned_of_not_corner (h : ¬ (b = 0#32 ∨ Overflows a b)) :
    quotientSigned c a b = BitVec.ofInt 32 (a.toInt.tdiv b.toInt) := by
  obtain ⟨hb, ho⟩ := not_or.1 h
  rw [quotientSigned, if_neg hb, if_neg (mt (isOverflow_eq_true a b).1 ho)]

theorem remainderSigned_of_not_corner (h : ¬ (b = 0#32 ∨ Overflows a b)) :
    remainderSigned c a b = BitVec.ofInt 32 (a.toInt - b.toInt * a.toInt.tdiv b.toInt) := by
  obtain ⟨hb, ho⟩ := not_or.1 h
  rw [remainderSigned, if_neg hb, if_neg (mt (isOverflow_eq_true a b).1 ho)]

theorem quotientUnsigned_of_ne_zero (hb : b ≠ 0#32) : quotientUnsigned c a b = a / b := by
  rw [quotientUnsigned, if_neg hb, BitVec.udiv_def]

theorem remainderUnsigned_of_ne_zero (hb : b ≠ 0#32) : remainderUnsigned c a b = a % b := by
  rw [remainderUnsigned, if_neg hb, BitVec.umod_def]

/-- Away from the corners the signed quotient does not wrap. -/
theorem toInt_quotientSigned (h : ¬ (b = 0#32 ∨ Overflows a b)) :
    (quotientSigned c a b).toInt = a.toInt.tdiv b.toInt := by
  rw [quotientSigned_of_not_corner c h, ofInt_tdiv]
  exact BitVec.toInt_sdiv_of_ne_or_ne a b (not_and_or.1 (not_or.1 h).2)

theorem toInt_remainderSigned (h : ¬ (b = 0#32 ∨ Overflows a b)) :
    (remainderSigned c a b).toInt = a.toInt.tmod b.toInt := by
  rw [remainderSigned_of_not_corner c h, ofInt_sub_mul_tdiv, BitVec.toInt_srem]

end

/-- The remainder of truncated division is smaller than the divisor and has the sign of the dividend. -/
theorem tmod_bounds (a : Int) {b : Int} (hb : b ≠ 0) :
    (a.tmod b).natAbs < b.natAbs ∧ (0 ≤ a → 0 ≤ a.tmod b) ∧ (a ≤ 0 → a.tmod b ≤ 0) := by
  refine ⟨?small, Int.tmod_nonneg b, fun ha => ?nonpos⟩
  case small =>
    rw [Int.natAbs_tmod]
    exact Nat.mod_lt _ (Int.natAbs_pos.2 hb)
  case nonpos =>
    have h : 0 ≤ (-a).tmod b := Int.tmod_nonneg b (by omega)
    rw [Int.neg_tmod] at h
    omega

/-! The corner results of the reset configuration (log 7). -/

section
variable {c : Config} (h : c.divisionCorners = ratifiedCorners) (a b : Word)
include h

theorem quotientSigned_of_ratified : quotientSigned c a b = if b = 0#32 then 0xFFFFFFFF#32
    else if a = 0x80000000#32 ∧ b = 0xFFFFFFFF#32 then 0x80000000#32 else BitVec.ofInt 32 (a.toInt.tdiv b.toInt) := by
  simp only [quotientSigned, h, isOverflow_eq_true, Overflows]
  rfl

theorem remainderSigned_of_ratified : remainderSigned c a b = if b = 0#32 then a
    else if a = 0x80000000#32 ∧ b = 0xFFFFFFFF#32 then 0#32
    else BitVec.ofInt 32 (a.toInt - b.toInt * a.toInt.tdiv b.toInt) := by
  simp only [remainderSigned, h, isOverflow_eq_true, Overflows]
  rfl

theorem quotientUnsigned_of_ratified : quotientUnsigned c a b = if b = 0#32 then 0xFFFFFFFF#32 else a / b := by
  rw [quotientUnsigned, h, BitVec.udiv_def]
  rfl

theorem remainderUnsigned_of_ratified : remainderUnsigned c a b = if b = 0#32 then a else a % b := by
  rw [remainderUnsigned, h, BitVec.umod_def]
  rfl

end

/-! ### The rows of the M extension (R102, R250) -/

section
variable {pattern : Word} {mk : RegIdx → RegIdx → RegIdx → Instr} {result : Config → Word → Word → Word}
  (hop : opcodeOf pattern = 0b0110011#7)
  (hrow : ∀ rd rs1 rs2, decodeOp (funct7Of pattern) (funct3Of pattern) rd rs1 rs2 = some (mk rd rs1 rs2))
include hop hrow

/-- A row of the M extension completes with a result of its operands and of the configuration (R250). -/
theorem computes_of_mulDivRow
    (hexec : ∀ rd rs1 rs2 s, exec (mk rd rs1 rs2) s = retire rd (result s.cfg (s.readX rs1) (s.readX rs2)) s) :
    Computes pattern 0xFE00707F#32 (fun w => mk (rd w) (rs1 w) (rs2 w))
      (fun w s => result s.cfg (s.readX (rs1 w)) (s.readX (rs2 w))) := by
  refine computes_of_retire (fun w hw => ?_) fun _ _ => hexec ..
  obtain ⟨hopw, h3, h7⟩ := funct7_of_match hw
  rw [decodeRow_op (hopw.trans hop), h3, h7, hrow]
  rfl

/-- A row that takes the upper half of a product has the exact product's under the exact numerics (R252 to R254). -/
theorem highProduct_of_row (op : HighOp)
    (hexec : ∀ rd rs1 rs2 s,
      exec (mk rd rs1 rs2) s = retire rd (productHigh s.cfg op (s.readX rs1) (s.readX rs2)) s) :
    HighProduct pattern mk fun a b => upperHalf (exactProduct op a b) := by
  intro w s hw
  obtain ⟨hdecode, t, ht, hreg, hpc, hquiet⟩ :=
    computes_of_mulDivRow (result := (productHigh · op)) hop hrow hexec w s hw
  exact ⟨hdecode, t, _, ht, hreg, hpc, hquiet, fun hc => productHigh_of_exact hc op _ _⟩

/-- A row whose result has the rule's value away from its corners, and everywhere under the ratified ones, divides
(R255 to R258). -/
theorem divides_of_row {corner : Word → Word → Prop} {exact full : Word → Word → Word}
    (hexec : ∀ rd rs1 rs2 s, exec (mk rd rs1 rs2) s = retire rd (result s.cfg (s.readX rs1) (s.readX rs2)) s)
    (hexact : ∀ c ⦃a b⦄, ¬ corner a b → result c a b = exact a b)
    (hfull : ∀ {c : Config}, c.divisionCorners = ratifiedCorners → ∀ a b, result c a b = full a b) :
    Divides pattern mk corner exact full := by
  intro w s hw
  obtain ⟨hdecode, t, ht, hreg, hpc, hquiet⟩ := computes_of_mulDivRow hop hrow hexec w s hw
  exact ⟨hdecode, t, _, ht, hreg, hpc, hquiet, fun hc => hexact _ hc, fun hc => hfull hc _ _⟩

end

/-! ### The obligations -/

/-- Settles O46: by the row of each form; the low half is the same in every reading, the signed one included. -/
theorem multiplicationResults : Obligations.MultiplicationResults := by
  refine ⟨?mul, ?mulh, ?mulhsu, ?mulhu⟩
  case mul =>
    exact computesReg_of_row rfl (fun _ _ _ => rfl) fun rd _ _ s =>
      congrArg (retire rd · s) (productLow_eq_ofInt_exactProduct .mulh _ _)
  case mulh => exact highProduct_of_row rfl (fun _ _ _ => rfl) .mulh fun _ _ _ _ => rfl
  case mulhsu => exact highProduct_of_row rfl (fun _ _ _ => rfl) .mulhsu fun _ _ _ _ => rfl
  case mulhu => exact highProduct_of_row rfl (fun _ _ _ => rfl) .mulhu fun _ _ _ _ => rfl

/-- Settles O47: by the row of each form, from the results away from the corners and at them. -/
theorem divisionResults : Obligations.DivisionResults := by
  refine ⟨?div, ?divu, ?rem, ?remu⟩
  case div =>
    exact divides_of_row rfl (fun _ _ _ => rfl) (fun _ _ _ _ => rfl) quotientSigned_of_not_corner
      quotientSigned_of_ratified
  case divu =>
    exact divides_of_row rfl (fun _ _ _ => rfl) (fun _ _ _ _ => rfl) quotientUnsigned_of_ne_zero
      quotientUnsigned_of_ratified
  case rem =>
    exact divides_of_row rfl (fun _ _ _ => rfl) (fun _ _ _ _ => rfl) remainderSigned_of_not_corner
      remainderSigned_of_ratified
  case remu =>
    exact divides_of_row rfl (fun _ _ _ => rfl) (fun _ _ _ _ => rfl) remainderUnsigned_of_ne_zero
      remainderUnsigned_of_ratified

/-- Settles O48: no result wraps, so the identities are those of truncated and of natural division. -/
theorem quotientAndRemainderRebuildDividend : Obligations.QuotientAndRemainderRebuildDividend := by
  intro c a b hb
  refine ⟨fun ho => ?signed, ?unsigned⟩
  case signed =>
    have hcorner : ¬ (b = 0#32 ∨ Overflows a b) := not_or.2 ⟨hb, ho⟩
    have hb0 : b.toInt ≠ 0 := fun h => hb (BitVec.eq_of_toInt_eq h)
    rw [toInt_quotientSigned c hcorner, toInt_remainderSigned c hcorner]
    exact ⟨(Int.mul_tdiv_add_tmod ..).symm, tmod_bounds _ hb0⟩
  case unsigned =>
    have hb0 : b.toNat ≠ 0 := fun h => hb (BitVec.eq_of_toNat_eq h)
    rw [quotientUnsigned_of_ne_zero c hb, remainderUnsigned_of_ne_zero c hb, BitVec.toNat_udiv, BitVec.toNat_umod]
    exact ⟨(Nat.div_add_mod ..).symm, Nat.mod_lt _ (Nat.pos_of_ne_zero hb0)⟩

/-- Settles O49: the halves are the exact product as a 64-bit value, and it fits in each instruction's own reading. -/
theorem productHalvesRebuildProduct : Obligations.ProductHalvesRebuildProduct := by
  intro c a b hc
  simp only [productHigh_append_productLow hc]
  exact ⟨toInt_ofInt_exactProduct_mulh a b, toInt_ofInt_exactProduct_mulhsu a b, toNat_ofInt_exactProduct_mulhu a b⟩

end Sys2Proof.Machine
end

section
/-! SUPPORT. Stops (60_exceptions.md): the phase of a tick that stops the run, and what each leaves as it was (R280, R281). -/

namespace Sys2Proof.Machine

open Sys2Proof.Claims

/-! ### A stop of the CPU phase (R143) -/

/-- A CPU phase leaves the run as it was, or stops it and changes nothing else. -/
theorem cpuPhase_run {s t : State} (h : cpuPhase s = .next t) : t.run = s.run ∨ ∃ r, t = s.stop r := by
  rcases cpuPhase_next h with ⟨-, e, rfl⟩ | ⟨-, w, i, -, -, hex⟩ | ⟨p, -, -, rfl⟩ | ⟨p, r, -, -, hc⟩
  · exact .inr ⟨e, rfl⟩
  · rcases exec_next hex with ho | ⟨q, p, -, -, rfl⟩
    · exact ho.run
    · exact .inl rfl
  · exact .inl rfl
  · obtain ⟨i, v, rfl⟩ := complete_eq_next hc
    exact .inl (by simp)

/-- A machine that does not run keeps the DMA phase idle (R80, R151). -/
theorem dmaPhase_of_stopped {s : State} (h : s.run ≠ .running) : dmaPhase s = s :=
  dmaPhase_of_not_enabled (by simp [dmaEnabled, h])

/-! ### A stop of the Bus/Memory phase (R62) -/

/-- A CPU that waits after its phase was idle before it: it issued in this phase (R148, R150). -/
theorem idle_of_cpuPhase_waiting {s t : State} (h : State.Inv s) (hr : s.run = .running) (ht : cpuPhase s = .next t)
    (hw : t.mode ≠ .idle) : s.mode = .idle := by
  cases hm : s.mode with
  | idle => rfl
  | awaitingMemory p =>
    obtain ⟨-, r, hrsp, -⟩ := h.awaiting p hm hr
    rw [cpuPhase_of_response hm hrsp] at ht
    obtain ⟨i, v, rfl⟩ := complete_eq_next ht
    exact (hw rfl).elim

/-- Where a request stands in its slot, only its service can stop the run, and that stop changes nothing else (R62, R80). -/
theorem Requesting.laterPhases_stop {s : State} {q : Request} {p : Pending} {r : StopReason} (h : Requesting s q p)
    (hs : (dmaPhase (busPhase s)).run = .stopped r) : dmaPhase (busPhase s) = s.stop r := by
  have hwait : (busPhase s).mode ≠ .idle := by simp [(busPhase_cpuKept s).mode, h.mode]
  rw [dmaPhase_of_waiting hwait, busPhase_of_request h.run h.bus] at hs ⊢
  rcases service_cases q s with ⟨e, he⟩ | hserved
  · rw [he] at hs ⊢
    cases hs
    rfl
  · cases (hserved.run.trans h.run).symm.trans hs

/-! ### A stop of the DMA phase (R82, R83) -/

theorem dmaPhase_engineKept (s : State) : EngineKept s (dmaPhase s) := by
  obtain ⟨⟨hx, hf, hpc, hmode, hout, -, hcfg⟩, hbus, hpevents, hdraws, -⟩ := dmaPhase_engineOnly s
  exact ⟨hx, hf, hpc, hmode, hbus, hout, hpevents, hdraws, hcfg⟩

/-! ### The obligation -/

/-- Settles O50: after the CPU phase the machine is at rest or has a request in its slot. At rest the stop is the CPU
phase's own or the DMA phase's; with a request it is that of its service. -/
theorem stopsArePrecise : Obligations.StopsArePrecise := by
  intro s t r h hr hs hstop
  rcases step_next hs with ⟨hstopped, -⟩ | ⟨-, -, u, hu, rfl⟩
  · exact (hstopped hr).elim
  rcases h.beginTick.cpuPhase hr hu with hrest | ⟨q, p, hreq⟩
  case inr =>
    have hwait : u.mode ≠ .idle := by simp [hreq.mode]
    have hidle := idle_of_cpuPhase_waiting h.beginTick hr hu hwait
    rw [hreq.laterPhases_stop hstop]
    obtain ⟨w, i, q, p, hf, hd, hex, -, rfl⟩ := issue_of_waiting h.beginTick hr hu hwait
    exact .inr (.inl ⟨hidle, w, i, q, p, hf, hd, hex, s.ticks + 1, rfl⟩)
  case inl =>
    rw [busPhase_of_no_request (by rw [hrest.bus])] at hstop ⊢
    rcases cpuPhase_run hu with hrun | ⟨e, rfl⟩
    case inr =>
      rw [dmaPhase_of_stopped (by simp)] at hstop ⊢
      cases hstop
      exact .inl ⟨s.ticks + 1, rfl⟩
    have hrun : u.run = .running := hrun.trans hr
    have hkept := dmaPhase_engineKept u
    obtain ⟨j, -, hj, hcases⟩ := dmaPhase_stops hrun hstop
    refine .inr (.inr ⟨u, j, hu, hrun, hrest.mode, hrest.bus, hj, ?_⟩)
    rcases hcases with ⟨rfl, hlt, habsent, heq⟩ | ⟨rfl, hhalts, hend⟩
    · exact .inl ⟨rfl, hlt, habsent, heq⟩
    have hhalts : s.cfg.dmaCompletionHalts = true := (cpuPhase_frame hu).cfg ▸ hhalts
    rcases hend with ⟨hdone, heq⟩ | ⟨hlast, b, hb, heq⟩
    · rw [heq] at hkept ⊢
      exact .inr ⟨rfl, hhalts, rfl, hkept, .inl ⟨hdone, fun _ => rfl⟩⟩
    · rw [heq] at hkept ⊢
      exact .inr ⟨rfl, hhalts, rfl, hkept, .inr ⟨hlast, b, hb, Memory.read_write_self _ _ _,
        fun a ha => Memory.read_write_other _ _ ha.symm⟩⟩

end Sys2Proof.Machine
end

section
/-! SUPPORT. The first tick after reset (70_reset_and_hazards.md R300): the fetch at 0 passes its checks and finds no memory. -/

namespace Sys2Proof.Machine

open Sys2Proof.Claims

/-- The address 0 is aligned under every configuration (R56). -/
theorem not_misaligns_zero (c : Config) (n : Nat) : ¬ Misaligns c 0#32 n := fun h => h.2 (Nat.zero_mod n)

/-- Memory without a cell lacks the first byte of every word (R54). -/
theorem firstAbsent_nil (a : Word) : FirstAbsent [] a 4 a :=
  ⟨0, by decide, fun _ hi => absurd hi (Nat.not_lt_zero _), rfl, (BitVec.add_zero a).symm⟩

/-- A machine without peripherals has no owned address (R66). -/
theorem not_owned_of_no_peripherals {c : Config} (h : c.peripherals = []) (a : Word) : ¬ Owned c a := by
  rintro ⟨d, p, hp, -⟩
  simp [h] at hp

/-- A machine without a control word has no access that meets it (R62). -/
theorem not_meetsControl_of_none {c : Config} (h : c.dmaCtrlAddr = none) (a : Word) (n : Nat) :
    ¬ MeetsControl c a n := by
  rintro ⟨D, hD, -⟩
  cases h.symm.trans hD

/-- The tick after a reset passes the three checks of the fetch at 0 (R144) and fails at its first byte (R273, R300). -/
theorem stepStops_hostReset {s : State} (hc : legalConfig s.cfg = true) (ho : ¬ Owned s.cfg 0#32)
    (hd : ¬ MeetsControl s.cfg 0#32 4) : StepStops (hostReset s) (hostReset s) (.memoryError 0#32) := by
  obtain ⟨-, -, -, hread⟩ := fetchChecksInOrder (hostReset s) rfl hc rfl
  obtain ⟨habsent, -⟩ := hread (not_misaligns_zero _ _) ho hd
  exact habsent _ (firstAbsent_nil 0#32)

/-- Settles O2: the machine the host starts from is its own reset, and has neither a peripheral nor a control word. -/
theorem firstTickAfterResetFindsNoMemory : Obligations.FirstTickAfterResetFindsNoMemory :=
  ⟨fun _ => stepStops_hostReset,
    stepStops_hostReset (s := State.reset) (by decide) (not_owned_of_no_peripherals rfl _)
      (not_meetsControl_of_none rfl _ _)⟩

end Sys2Proof.Machine
end
